-- ==== Sys2Proof/Word.lean ====
section
/-! DEFINITION. The word types of the block (00_scope.md R11): bytes, 32-bit command and register words, and
12-bit host-port addresses (20_memory.md R60). -/

namespace Sys2Proof

/-- An 8-bit unsigned value (R11). -/
abbrev Byte := BitVec 8

/-- A 32-bit command word or host register (R90, R65). -/
abbrev Word := BitVec 32

/-- An address of the 12-bit host port (R60). -/
abbrev HostAddr := BitVec 12

end Sys2Proof
end

