-- ==== Sys2Proof/Machine/Bus.lean ====
section
/-! DEFINITION. The downstream bus interface as data (40_protocol_engine.md R110): what the bus primitive answers, and
the calls as the trace of 70_reset_and_hazards.md R233 records them. -/

namespace Sys2Proof.Machine

/-- One answer of the bus primitive (R81, R110): the status, and the byte that a `BusRecv` receives with it.
`BusStart` and `BusSend` use the status alone; when the status is `error` the byte is discarded. -/
structure BusAnswer where
  ok : Bool
  byte : Byte
  deriving DecidableEq, Repr, Inhabited

/-- One bus-primitive call with its response (R110). The traces of 40_protocol_engine.md write them
`S(a)`, `W(b)`, `R->b` and `P`, with `!` for an `error` status. -/
inductive BusEvent where
  /-- `BusStart(a8, t)` -/
  | start (a8 : Byte) (timeout : Nat) (ok : Bool)
  /-- `BusSend(b)` -/
  | send (b : Byte) (ok : Bool)
  /-- `BusRecv()`: the byte received, or `none` when the status was `error` -/
  | recv (b : Option Byte)
  /-- `BusStop()` -/
  | stop
  deriving DecidableEq, Repr

end Sys2Proof.Machine
end

