-- ==== Sys2Proof/Config.lean ====
section
/-! DEFINITION. What an implementation fixes (00_scope.md R7 to R10): the constants of R7, the configuration record
`Cfg` with the parameters of R8 and R9, and the model's free values, which are opaque constants. -/

namespace Sys2Proof

/-- `EXT_ONOFF`: shadow extent of the on/off page (R7). -/
@[reducible, simp] def extOnoff : Nat := 0x48
/-- `ONOFF_CTRL_LEN`: the writable on/off control zone is offsets 0x00..0x17 (R7). -/
@[reducible, simp] def onoffCtrlLen : Nat := 0x18
/-- `ZONE_LEN`: length of each read-only diagnostic zone (R7). -/
@[reducible, simp] def zoneLen : Nat := 0x18
/-- `EXT_PWM`: shadow extent of the PWM page (R7). -/
@[reducible, simp] def extPwm : Nat := 0xC0
/-- `EXT_ABM`: shadow extent of the auto-breath-mode page (R7). -/
@[reducible, simp] def extAbm : Nat := 0xC0
/-- `EXT_FUNC`: shadow extent of the function-register page (R7). -/
@[reducible, simp] def extFunc : Nat := 0x12
/-- `DBUF_LEN` (R26). -/
@[reducible, simp] def dbufLen : Nat := 0xC0
/-- `ROWS`: matrix rows 0..3 (R7). -/
@[reducible, simp] def rows : Nat := 4
/-- `COLS`: matrix columns 0..15 (R7). -/
@[reducible, simp] def cols : Nat := 16
/-- `SUBROWS`: channel rows per matrix row (R7). -/
@[reducible, simp] def subrows : Nat := 3
/-- `TIMEOUT`: bus-clock ticks passed to every START (R7, R111). -/
@[reducible, simp] def timeoutTicks : Nat := 10
/-- `ABM_VALUE`: the byte `ABMSET` writes (R7). -/
@[reducible, simp] def abmValue : Byte := 0x01

/-- The configuration record `Cfg` (R7 to R9). Parameters are not state: no command changes them. The model carries the
record as the field `State.cfg`, because the rules ask that a model take it as an argument (log 1). -/
structure Config where
  /-- `P_ONOFF`, `P_PWM`, `P_ABM`, `P_FUNC`: page numbers (R8). -/
  pOnoff : Byte
  pPwm : Byte
  pAbm : Byte
  pFunc : Byte
  /-- `REG_CMD`, `REG_LOCK`, `UNLOCK_KEY`: the direct registers and the unlock value (R8). -/
  regCmd : Byte
  regLock : Byte
  unlockKey : Byte
  /-- `F_CONFIG`, `F_GCC`, `F_SWPU`, `F_CSPD`, `F_RESET`: function-page offsets (R8). -/
  fConfig : Byte
  fGcc : Byte
  fSwpu : Byte
  fCspd : Byte
  fReset : Byte
  /-- `CFG_OSD_BIT`: bit of the configuration register that triggers open/short detection (R8). -/
  cfgOsdBit : Nat
  /-- `CFG_RUN_VALUE`: what `RESET` writes to `F_CONFIG` (R8). -/
  cfgRunValue : Byte
  /-- `INIT_ADDR7`: the device address block reset loads (R9). Its range 0..0x7F (R10) is its type. -/
  initAddr7 : BitVec 7
  /-- `ONOFF_MASK`: the 0x18 on/off control bytes `RESET` writes (R9). -/
  onoffMask : Vector Byte 0x18
  /-- `SWPU_VALUE`, `CSPD_VALUE`, `DIAG_GCC` (R9). -/
  swpuValue : Byte
  cspdValue : Byte
  diagGcc : Byte
  /-- `HALF_POS[0]` and `HALF_POS[1]`: five (row, col) positions for each half (R9). -/
  halfLeft : Vector (Byte × Byte) 5
  halfRight : Vector (Byte × Byte) 5
  /-- `OSD_SETTLE`: the host's wait between `CHKTRIG` and `CHECK` (R9). No rule of the block reads it (R226). -/
  osdSettle : Nat
  /-- `HOST_BASE`: where the platform places the host port (R9, R205). -/
  hostBase : Nat
  deriving DecidableEq, Repr

/-- The platform address of a host-port address (R205: the base is the parameter `HOST_BASE`). -/
def Config.platformAddr (c : Config) (a : HostAddr) : Nat := c.hostBase + a.toNat

/-! The OPEN parameters of R9 have no default and nothing may be assumed of them: opaque constants (log 1). -/

/-- OPEN `INIT_ADDR7` (R9). -/
opaque Config.openInitAddr7 : BitVec 7
/-- OPEN `ONOFF_MASK` (R9). -/
opaque Config.openOnoffMask : Vector Byte 0x18
/-- OPEN `SWPU_VALUE` (R9). -/
opaque Config.openSwpuValue : Byte
/-- OPEN `CSPD_VALUE` (R9). -/
opaque Config.openCspdValue : Byte
/-- OPEN `DIAG_GCC` (R9). -/
opaque Config.openDiagGcc : Byte
/-- OPEN `HALF_POS[0]` (R9). -/
opaque Config.openHalfLeft : Vector (Byte × Byte) 5
/-- OPEN `HALF_POS[1]` (R9). -/
opaque Config.openHalfRight : Vector (Byte × Byte) 5
/-- OPEN `OSD_SETTLE` (R9). -/
opaque Config.openOsdSettle : Nat
/-- OPEN `HOST_BASE` (R9). -/
opaque Config.openHostBase : Nat

/-- The oracle of R81: the answer to the next `BusStart`, `BusSend` or `BusRecv` after a history of calls. Nothing
constrains it ("No law constrains its draws"): a free value (log 2). -/
opaque Config.oracle : List Machine.BusEvent → Machine.BusAnswer

/-- The configuration of the machine at reset: the defaults of R8 (the spec marks them general knowledge) and the OPEN
constants of R9 (log 1). -/
def Config.platform : Config where
  pOnoff := 0x00
  pPwm := 0x01
  pAbm := 0x02
  pFunc := 0x03
  regCmd := 0xFD
  regLock := 0xFE
  unlockKey := 0xC5
  fConfig := 0x00
  fGcc := 0x01
  fSwpu := 0x0F
  fCspd := 0x10
  fReset := 0x11
  cfgOsdBit := 2
  cfgRunValue := 0x01
  initAddr7 := Config.openInitAddr7
  onoffMask := Config.openOnoffMask
  swpuValue := Config.openSwpuValue
  cspdValue := Config.openCspdValue
  diagGcc := Config.openDiagGcc
  halfLeft := Config.openHalfLeft
  halfRight := Config.openHalfRight
  osdSettle := Config.openOsdSettle
  hostBase := Config.openHostBase

end Sys2Proof
end

