-- ==== Sys2Proof/Machine/State.lean ====
section
/-! DEFINITION. The state of the block (10_state.md R20) with the fields the model adds for the configuration, the host
and the bus oracle, the reasons a step can stop, and the state after block reset (70_reset_and_hazards.md R221). -/

namespace Sys2Proof.Machine

/-- Where a command stands between its bus calls (40_protocol_engine.md R113, 60_exceptions.md R191; log 4). -/
inductive Phase where
  /-- No call of the command has failed: the next step is its next call, or `complete(OK)`. -/
  | run
  /-- The last call returned `error`: the `BusStop` that ends its transaction is the next step (R113). -/
  | stopOwed
  /-- That `BusStop` is made: the next step is `raise BusError` (R113). -/
  | raising
  deriving DecidableEq, Repr

/-- The sequencer state `seq` (R22). -/
inductive Seq where
  | idle
  /-- `Busy(cmd, pos)`: the command word being executed and the number of bus calls made so far. -/
  | busy (cmd : Word) (pos : Nat) (phase : Phase)
  deriving DecidableEq, Repr

/-- The result codes of R37. Codes 4 to 7 are never produced. -/
inductive Result where
  | ok | busError | addressingError | protocolError
  deriving DecidableEq, Repr

/-- `DBUF` and the shadow register file, as the bytes of the host-port space that R38 maps them to: a list of
(host-port address, byte) in rising order of address without zero bytes. An address that is not listed reads 0x00, the value
block reset gives every one of these bytes (R26, R27). -/
abbrev Memory := List Host.Cell

/-- One access of the host (20_memory.md R80, 30_encoding.md R101). -/
inductive HostAccess where
  /-- Assert block reset (70_reset_and_hazards.md R220). -/
  | blockReset
  /-- `MemRead(a, n)` (R60). -/
  | memRead (a : HostAddr) (n : Nat)
  /-- `MemWrite(a, n, v)` (R60); a byte access uses `v[7:0]`. -/
  | memWrite (a : HostAddr) (n : Nat) (v : Word)
  /-- `WAIT`: poll `MemRead(0x004, 4)` until `BUSY = 0` (R101). -/
  | wait
  /-- `DELAY t` (R101). -/
  | delay (t : Nat)
  deriving DecidableEq, Repr

/-- A host access that lands after `gap` more steps (log 3). -/
structure HostEvent where
  gap : Nat
  access : HostAccess
  deriving DecidableEq, Repr

/-- What a host read returned: the data the host port gives back. -/
structure HostRead where
  addr : HostAddr
  width : Nat
  value : Word
  deriving DecidableEq, Repr

/-- The state. The first five fields are the tuple `(seq, STATUS, DEVADDR, DBUF, Shadow, SDB)` of R20, with `STATUS.BUSY`
read off `seq` and `DBUF` and `Shadow` held in `mem`; the others are the model's own (INVENTORY.md, State). -/
structure State where
  /-- `seq` (R22); `STATUS.BUSY` is 1 exactly while it is `busy` (R23). -/
  seq : Seq
  /-- `STATUS.RESULT` (R23, R37). -/
  result : Result
  /-- `DEVADDR.ADDR7` (R25); every other bit of `DEVADDR` reads 0. -/
  addr7 : BitVec 7
  /-- `DBUF` (R26) and `Shadow` (R27 to R33), by host-port address. -/
  mem : Memory
  /-- The `SDB` output (R34). -/
  sdb : Bool
  /-- Whether a block reset has happened; before the first, the model refuses (R40). -/
  live : Bool
  /-- The configuration `Cfg` (R7 to R10), which no step changes (log 1). -/
  cfg : Config
  /-- The next answers of the bus primitive; when the list is empty they are free values (R81; log 2). -/
  answers : List BusAnswer
  /-- The bus-call trace, oldest call first (R233). -/
  trace : List BusEvent
  /-- The host's pending accesses (log 3). -/
  host : List HostEvent
  /-- What the host's reads returned, oldest first (log 3). -/
  reads : List HostRead
  deriving DecidableEq, Repr

/-- Why the machine stops with a fault. Both are safe: the model stops where the spec says a model bug would show (R140),
and no run reaches one. -/
inductive Fault where
  /-- A shadow access outside `Pages` or at or past the extent (R140, 93 U21). Raised by `shadowAddr`. Safe. -/
  | shadowDomain
  /-- A `DBUF` access past 0xBF (R26). Raised by `dbufAddr`. Safe. -/
  | dbufDomain
  deriving DecidableEq, Repr

/-- Why the model has no step (60_exceptions.md R201). Each is safe: a refusal errs toward unprovable. -/
inductive Refusal where
  /-- An instruction without a meaning, refused in `exec` by name. Safe. No arm uses it. -/
  | notModelled (mnemonic : String)
  /-- The configuration breaks R10 (R201). Raised by `step`. Safe. -/
  | badConfig
  /-- An access or a step before the first block reset (R40, R201). Raised by `step`. Safe. -/
  | beforeBlockReset
  /-- `CMD`, `DBUF` or the shadow window accessed while `BUSY = 1` (R80, R201, 93 U15). Raised by the host port. Safe. -/
  | hostDuty
  /-- A host access of the wrong width, or one that covers part of a mapped place (R65, 93 U17). Raised by the host port. Safe. -/
  | wrongWidth
  /-- A meaning asked to run with no command in flight (`seq = Idle`). Raised by `exec` alone; no step does it. Safe. -/
  | noCommand
  deriving DecidableEq, Repr

/-- The state after block reset (R220, R221). The configuration's OPEN parameters are opaque (log 1), and nothing is
pending: no host access, no given answer, no history (logs 2 and 3). -/
def State.reset : State where
  seq := .idle
  result := .ok
  addr7 := Config.platform.initAddr7
  mem := []
  sdb := true
  live := true
  cfg := Config.platform
  answers := []
  trace := []
  host := []
  reads := []

end Sys2Proof.Machine
end

