-- ==== Sys2Proof/Machine/Flags.lean ====
section
/-! DEFINITION. The result codes and the two status words the host reads (10_state.md R23, R25, R37). The block has no
condition codes. -/

namespace Sys2Proof.Machine

/-- The code of a result (R37). -/
def Result.code : Result → BitVec 3
  | .ok => 0
  | .busError => 1
  | .addressingError => 2
  | .protocolError => 3

/-- `STATUS.BUSY` (R23): 1 while `seq` is `Busy`. -/
def State.busy (s : State) : Bool :=
  match s.seq with
  | .idle => false
  | .busy _ _ _ => true

/-- The `STATUS` register (R23): bit 0 `BUSY`, bits 3:1 `RESULT`, the others read 0. -/
def statusWord (s : State) : Word := (0 : BitVec 28) ++ s.result.code ++ BitVec.ofBool s.busy

/-- The `DEVADDR` register (R25): bits 7:1 `ADDR7`, the others read 0. -/
def devaddrWord (s : State) : Word := (0 : BitVec 24) ++ s.addr7 ++ (0 : BitVec 1)

end Sys2Proof.Machine
end

