-- ==== Sys2Proof/Syntax.lean ====
section
/-! DEFINITION. The twelve commands of the block (00_scope.md R3, 30_encoding.md R92), one constructor for each row of
spec/opcode_table.json. An operand is its raw 8-bit field (R91). -/

namespace Sys2Proof

/-- The commands, in the order of the opcode table. -/
inductive Instr where
  /-- `RD1 page, offset`: single-byte read (R121). -/
  | rd1 (page offset : Byte)
  /-- `RDB page, offset, size`: burst read (R122). -/
  | rdb (page offset size : Byte)
  /-- `WR1 page, offset, data`: single-byte write (R123). -/
  | wr1 (page offset data : Byte)
  /-- `WRB page, offset, size`: burst write from `DBUF` (R124). -/
  | wrb (page offset size : Byte)
  /-- `WRD reg, value`: direct register write (R125). -/
  | wrd (reg value : Byte)
  /-- `RESET`: re-initialise the chip and the shadow (R162). -/
  | reset
  /-- `BRIGHT data`: set the global current (R163). -/
  | bright (data : Byte)
  /-- `SET row, col`: set one cell's colour (R164). -/
  | set (row col : Byte)
  /-- `SETALL half`: set one half of the layout to one colour (R165). -/
  | setall (half : Byte)
  /-- `ABMSET row, col, chan`: assign a cell's channels to auto-breath mode (R166). -/
  | abmset (row col chan : Byte)
  /-- `CHKTRIG`: start an open/short detection cycle (R167). -/
  | chktrig
  /-- `CHECK`: read the open-detect and short-detect results (R168). -/
  | check
  deriving DecidableEq, Repr

/-- The mnemonics of the opcode table. -/
inductive Mnemonic where
  | rd1 | rdb | wr1 | wrb | wrd | reset | bright | set | setall | abmset | chktrig | check
  deriving DecidableEq, Repr

/-- Which row of the opcode table a command belongs to. -/
def Instr.mnemonic : Instr → Mnemonic
  | .rd1 _ _ => .rd1
  | .rdb _ _ _ => .rdb
  | .wr1 _ _ _ => .wr1
  | .wrb _ _ _ => .wrb
  | .wrd _ _ => .wrd
  | .reset => .reset
  | .bright _ => .bright
  | .set _ _ => .set
  | .setall _ => .setall
  | .abmset _ _ _ => .abmset
  | .chktrig => .chktrig
  | .check => .check

end Sys2Proof
end

