-- ==== Sys2Proof/Machine/Admission.lean ====
section
/-! DEFINITION. The four pages with their extents (20_memory.md R62), the admission check of 30_encoding.md R97 and the
parameter constraints of 00_scope.md R10. -/

namespace Sys2Proof.Machine

/-- The four pages of the chip's paged space that the block admits (R62). -/
inductive Page where
  | onoff | pwm | abm | func
  deriving DecidableEq, Repr

/-- `Ext(page)` (R97). -/
def Page.ext : Page → Nat
  | .onoff => extOnoff
  | .pwm => extPwm
  | .abm => extAbm
  | .func => extFunc

/-- The number a configuration gives a page (R8). -/
def Page.number (c : Config) : Page → Byte
  | .onoff => c.pOnoff
  | .pwm => c.pPwm
  | .abm => c.pAbm
  | .func => c.pFunc

/-- The page a number names, if it is in `Pages` (R97). -/
def pageOf (c : Config) (pg : Byte) : Option Page :=
  if pg = c.pOnoff then some .onoff
  else if pg = c.pPwm then some .pwm
  else if pg = c.pAbm then some .abm
  else if pg = c.pFunc then some .func
  else none

/-- `PAGE in Pages and OFFSET < Ext(PAGE)`, and for a burst `OFFSET + SIZE <= Ext(PAGE)` (R97). A single access is the
case `size = 1`, for which the second test says the same as the first. -/
def inExtent (c : Config) (pg : Byte) (off size : Nat) : Bool :=
  match pageOf c pg with
  | none => false
  | some p => decide (off < p.ext) && decide (off + size ≤ p.ext)

/-- `Writable(pg, off)`: not in a read-only zone of the on/off page (R97, R28). -/
def writable (c : Config) (pg : Byte) (off : Nat) : Bool :=
  !(decide (pg = c.pOnoff) && decide (onoffCtrlLen ≤ off))

/-- `Admit(w)` of R97, on the decoded command. A burst write tests its start offset too, even with size 0. -/
def admits (c : Config) : Instr → Bool
  | .rd1 page offset => inExtent c page offset.toNat 1
  | .rdb page offset size => inExtent c page offset.toNat size.toNat
  | .wr1 page offset _ => inExtent c page offset.toNat 1 && writable c page offset.toNat
  | .wrb page offset size =>
      inExtent c page offset.toNat size.toNat && writable c page offset.toNat
        && (List.range size.toNat).all fun i => writable c page (offset.toNat + i)
  | .wrd reg _ => decide (reg = c.regLock) || decide (reg = c.regCmd)
  | .setall half => decide (half.toNat ≤ 1)
  | .reset => true
  | .bright _ => true
  | .set _ _ => true
  | .abmset _ _ _ => true
  | .chktrig => true
  | .check => true

/-- The constraints of R10: a configuration that breaks one has no meaning, and the model refuses it (R201).
`INIT_ADDR7 <= 0x7F` holds by its type. -/
def configOk (c : Config) : Bool :=
  decide ([c.pOnoff, c.pPwm, c.pAbm, c.pFunc].Nodup)
    && decide (c.regCmd ≠ c.regLock)
    && decide ([c.fConfig, c.fGcc, c.fSwpu, c.fCspd, c.fReset].Nodup)
    && [c.fConfig, c.fGcc, c.fSwpu, c.fCspd, c.fReset].all (fun f => decide (f.toNat < extFunc))
    && decide (c.cfgOsdBit ≤ 7)

end Sys2Proof.Machine
end

