-- ==== Sys2Proof/Machine/Memory.lean ====
section
/-! DEFINITION. The bytes of `DBUF` and the shadow register file: reading and writing one byte of the canonical list, and the
places R38 of 10_state.md maps them to. -/

namespace Sys2Proof.Machine

/-- The byte at a host-port address; 0x00 where nothing is listed (R26, R27). -/
def Memory.read : Memory → Nat → Byte
  | [], _ => 0
  | (a, v) :: m, x => if a = x then v else Memory.read m x

/-- List a byte before the first higher address. -/
def Memory.putAt : Memory → Nat → Byte → Memory
  | [], x, v => [(x, v)]
  | (a, u) :: m, x, v => if x < a then (x, v) :: (a, u) :: m else (a, u) :: Memory.putAt m x v

/-- Forget the byte at an address. -/
def Memory.forget (m : Memory) (x : Nat) : Memory := m.filter fun c => c.1 != x

/-- Write one byte; 0x00 is what an unlisted address reads, so writing it removes the entry. -/
def Memory.write (m : Memory) (x : Nat) (v : Byte) : Memory :=
  if v = 0 then m.forget x else (m.forget x).putAt x v

/-- The canonical form: addresses strictly rising and no zero byte listed. -/
def Memory.wf : Memory → Bool
  | [] => true
  | (a, v) :: m => decide (v ≠ 0) && m.all (fun c => decide (a < c.1)) && Memory.wf m

/-! The windows of R38. -/

/-- `DBUF[0]` stands at 0x100. -/
@[reducible, simp] def dbufBase : Nat := 0x100
/-- `Shadow.onoff[0]` stands at 0x400. -/
@[reducible, simp] def onoffBase : Nat := 0x400
/-- `Shadow.pwm[0]` stands at 0x500. -/
@[reducible, simp] def pwmBase : Nat := 0x500
/-- `Shadow.abm[0]` stands at 0x600. -/
@[reducible, simp] def abmBase : Nat := 0x600
/-- `Shadow.func[0]` stands at 0x700. -/
@[reducible, simp] def funcBase : Nat := 0x700
/-- `Shadow.intmask` stands at 0x800. -/
@[reducible, simp] def intmaskAddr : Nat := 0x800

/-- A byte of `DBUF` (R38). -/
def isDbufAddr (a : Nat) : Bool := decide (dbufBase ≤ a) && decide (a < dbufBase + dbufLen)

/-- A byte of the shadow register file, `intmask` included (R27, R38). -/
def isShadowAddr (a : Nat) : Bool :=
  (decide (onoffBase ≤ a) && decide (a < onoffBase + extOnoff))
    || (decide (pwmBase ≤ a) && decide (a < pwmBase + extPwm))
    || (decide (abmBase ≤ a) && decide (a < abmBase + extAbm))
    || (decide (funcBase ≤ a) && decide (a < funcBase + extFunc))
    || decide (a = intmaskAddr)

/-- Every listed address is one that R38 maps to a byte. -/
def Memory.mapped (m : Memory) : Bool := m.all fun c => isDbufAddr c.1 || isShadowAddr c.1

/-- `ShadowClear` on the bytes: every shadow byte is 0x00 afterwards and `DBUF` stays (R144). -/
def Memory.clearShadow (m : Memory) : Memory := m.filter fun c => !isShadowAddr c.1

end Sys2Proof.Machine
end

