-- ==== Sys2Proof/Machine/Operands.lean ====
section
/-! DEFINITION. What a command's steps name: shadow and buffer bytes (41_shadow_state.md R140, 10_state.md R26), the LED
channel mapping and the cell check (R145 to R149), and the bytes a `BusSend` carries. -/

namespace Sys2Proof.Machine

/-- Where the window of a page begins (R38). -/
def Page.base : Page → Nat
  | .onoff => onoffBase
  | .pwm => pwmBase
  | .abm => abmBase
  | .func => funcBase

/-- Where `Shadow(pg, off)` stands; outside `Pages` and `Ext(pg)` it is not defined and the model faults (R140). -/
def shadowAddr (c : Config) (pg : Byte) (off : Nat) : Except Fault Nat :=
  match pageOf c pg with
  | none => .error .shadowDomain
  | some p => if off < p.ext then .ok (p.base + off) else .error .shadowDomain

/-- Where `DBUF[i]` stands (R26, R38). -/
def dbufAddr (i : Nat) : Except Fault Nat :=
  if i < dbufLen then .ok (dbufBase + i) else .error .dbufDomain

/-! Named views of the arrays (R20, R26, R27). -/

/-- `DBUF[i]`. -/
def State.dbuf (s : State) (i : Nat) : Byte := s.mem.read (dbufBase + i)
/-- `Shadow.onoff[o]`. -/
def State.onoff (s : State) (o : Nat) : Byte := s.mem.read (onoffBase + o)
/-- `Shadow.pwm[o]`. -/
def State.pwm (s : State) (o : Nat) : Byte := s.mem.read (pwmBase + o)
/-- `Shadow.abm[o]`. -/
def State.abm (s : State) (o : Nat) : Byte := s.mem.read (abmBase + o)
/-- `Shadow.func[f]`. -/
def State.func (s : State) (f : Nat) : Byte := s.mem.read (funcBase + f)
/-- `Shadow.intmask`. -/
def State.intmask (s : State) : Byte := s.mem.read intmaskAddr

/-! The LED channel mapping (R145 to R148): `k` is 0 for blue, 1 for green, 2 for red. -/

/-- `SubRow(row, k)` (R145). -/
def subRow (row k : Nat) : Nat := row * subrows + k

/-- `PwmOffset(row, col, k)` (R145). -/
def pwmOffset (row col k : Nat) : Nat := subRow row k * cols + col

/-- `Bank(col)` (R146). -/
def bank (col : Nat) : Nat := if col > 7 then 1 else 0

/-- `Idx(col)` (R146). -/
def colIdx (col : Nat) : Nat := if col > 7 then col - 8 else col

/-- `OnOffByte(row, col, k)` (R146). -/
def onOffByte (row col k : Nat) : Nat := subRow row k * 2 + bank col

/-- `OnOffBit(row, col, k)`, counted from the least significant bit (R146). -/
def onOffBit (col : Nat) : Nat := colIdx col

/-- `ChannelEnabled(o)` (R148): it reads the shadow only. -/
def channelEnabled (s : State) (o : Nat) : Bool :=
  decide ((s.onoff (o >>> 3) >>> (o &&& 7)) &&& 1#8 = 1#8)

/-- `CellCheck(row, col)` (R149): true when it raises nothing. The range test comes before the bit tests. -/
def cellCheck (s : State) (row col : Byte) : Bool :=
  decide (row.toNat < rows) && decide (col.toNat < cols)
    && (List.range 3).all fun k => channelEnabled s (pwmOffset row.toNat col.toNat k)

/-! The bytes a command sends. -/

/-- Where the byte of a `SEND` comes from. -/
inductive Src where
  /-- a value the command or the configuration gives -/
  | lit (b : Byte)
  /-- `DBUF[i]` -/
  | dbuf (i : Nat)
  /-- `func[F_CONFIG]` of the shadow with the OSD bit cleared (R167) -/
  | osdOff
  /-- `func[F_CONFIG]` of the shadow with the OSD bit set (R167) -/
  | osdOn
  deriving DecidableEq, Repr

/-- `v & ~(1 << CFG_OSD_BIT) & 0xFF` (R167). -/
def osdCleared (c : Config) (v : Byte) : Byte := v &&& ~~~(1#8 <<< c.cfgOsdBit)

/-- `v | (1 << CFG_OSD_BIT)` (R167). -/
def osdSet (c : Config) (v : Byte) : Byte := v ||| (1#8 <<< c.cfgOsdBit)

/-- The byte a source stands for in a state. -/
def evalSrc (s : State) : Src → Except Fault Byte
  | .lit b => .ok b
  | .dbuf i => (dbufAddr i).map s.mem.read
  | .osdOff => (shadowAddr s.cfg s.cfg.pFunc s.cfg.fConfig.toNat).map fun a => osdCleared s.cfg (s.mem.read a)
  | .osdOn => (shadowAddr s.cfg s.cfg.pFunc s.cfg.fConfig.toNat).map fun a => osdSet s.cfg (s.mem.read a)

/-- The bytes of several sources, in order. -/
def evalAll (s : State) : List Src → Except Fault (List Byte)
  | [] => .ok []
  | x :: xs =>
    match evalSrc s x, evalAll s xs with
    | .ok b, .ok bs => .ok (b :: bs)
    | .error f, _ => .error f
    | .ok _, .error f => .error f

/-- The two kinds of transaction (R112). -/
inductive Dir where
  | write
  | read
  deriving DecidableEq, Repr

/-- The R/W bit: 0 = write, 1 = read (R112). -/
def Dir.bit : Dir → BitVec 1
  | .write => 0
  | .read => 1

/-- The address byte of a START, `{ADDR7, rw}` (R112). -/
def addrByte (s : State) (d : Dir) : Byte := s.addr7 ++ d.bit

end Sys2Proof.Machine
end

