-- ==== Sys2Proof/Machine/Ops.lean ====
section
/-! DEFINITION. The named operations of the block: the four bus calls (40_protocol_engine.md R110 to R113), the shadow
commits and the clear (41_shadow_state.md R141 to R144), completion with or without an error (60_exceptions.md R191, the one
operation by which a command ends; nothing is saved, so there is no return from an error, R200), the protocol procedures
(R114 to R120, R161) as lists of bus calls, and the sequencer that makes one call a step (20_memory.md R67). -/

namespace Sys2Proof.Machine

/-! Completion and issue. -/

/-- Completion (R191): set `RESULT`, leave `Busy`. It makes no bus call and keeps every effect made before. -/
def complete (r : Result) (s : State) : State := { s with result := r, seq := .idle }

/-- `raise` (R12, R190): the command in flight ends at once with an error code. This is the taking of an exception: the block
saves nothing but the code (R195). -/
def raiseError (r : Result) (s : State) : State := complete r s

/-- A host write of `CMD` while `Idle` issues a command (R24). -/
def issue (w : Word) (s : State) : State := { s with seq := .busy w 0 .run }

/-- Every shadow byte becomes 0x00 in one step; the rest stays (R144). -/
def shadowClear (s : State) : State := { s with mem := s.mem.clearShadow }

/-- Block reset, the source's `init` (R220). A command in flight is abandoned without a further bus call. -/
def blockReset (s : State) : State :=
  { s with sdb := true, mem := [], addr7 := s.cfg.initAddr7, result := .ok, seq := .idle, live := true }

/-! Bus calls. -/

/-- The oracle's draw for the next call that has a status (R81). -/
def nextAnswer (s : State) : BusAnswer :=
  match s.answers with
  | a :: _ => a
  | [] => Config.oracle s.trace

/-- `pos` counts the call just made (R22), and the phase says what follows it. -/
def Seq.advance (p : Phase) : Seq → Seq
  | .idle => .idle
  | .busy w pos _ => .busy w (pos + 1) p

/-- What every bus call does to the block: it joins the trace and `pos` counts it. -/
def afterCall (e : BusEvent) (p : Phase) (s : State) : State :=
  { s with trace := s.trace ++ [e], seq := s.seq.advance p }

/-- What follows a call with this status: the command goes on, or owes a `BusStop` (R113). -/
def phaseAfter (ok : Bool) : Phase := if ok then .run else .stopOwed

/-- A call with a status takes one draw of the oracle. -/
def takeAnswer (s : State) : State := { s with answers := s.answers.tail }

/-- `START(rw)` (R113): `BusStart({ADDR7, rw}, TIMEOUT)`. -/
def busStart (d : Dir) (s : State) : State :=
  afterCall (.start (addrByte s d) timeoutTicks (nextAnswer s).ok) (phaseAfter (nextAnswer s).ok) (takeAnswer s)

/-- `SEND(b)` (R113). -/
def busSend (b : Byte) (s : State) : State :=
  afterCall (.send b (nextAnswer s).ok) (phaseAfter (nextAnswer s).ok) (takeAnswer s)

/-- `RECV()` with its read commit (R113, R142): the byte received goes to the shadow byte at `a` in the same step. A failed
`BusRecv` commits nothing and its byte is discarded. -/
def busRecv (a : Nat) (s : State) : State :=
  if (nextAnswer s).ok then
    { afterCall (.recv (some (nextAnswer s).byte)) .run (takeAnswer s) with
      mem := s.mem.write a (nextAnswer s).byte }
  else afterCall (.recv none) .stopOwed (takeAnswer s)

/-- `BusStop()` (R113): no status, it cannot fail. -/
def busStop (p : Phase) (s : State) : State := afterCall .stop p s

/-! Commits. -/

/-- `CommitWrite(pg, off, d)` (R141). -/
def commitWrite (c : Config) (pg : Byte) : Nat → List Byte → Memory → Except Fault Memory
  | _, [], m => .ok m
  | off, b :: bs, m =>
    match shadowAddr c pg off with
    | .ok a => commitWrite c pg (off + 1) bs (m.write a b)
    | .error f => .error f

/-- What a `BusStop` that ends a transaction does besides (R119, R120, R118). -/
inductive Post where
  | none
  /-- `CommitWrite(pg, off, data)`, atomic with the `BusStop` (R141). -/
  | commit (pg : Byte) (off : Nat) (data : List Src)
  /-- `DBUF[i] <- b`, where `b` is the byte the read pair just ended has committed to `Shadow(pg, off)` (R118; log 5). -/
  | toBuf (i : Nat) (pg : Byte) (off : Nat)
  deriving DecidableEq, Repr

/-- The effect of a `Post`. -/
def applyPost (s : State) : Post → Except Fault State
  | .none => .ok s
  | .commit pg off data =>
    match evalAll s data with
    | .error f => .error f
    | .ok bytes =>
      match commitWrite s.cfg pg off bytes s.mem with
      | .error f => .error f
      | .ok m => .ok { s with mem := m }
  | .toBuf i pg off =>
    match shadowAddr s.cfg pg off, dbufAddr i with
    | .ok a, .ok d => .ok { s with mem := s.mem.write d (s.mem.read a) }
    | .error f, _ => .error f
    | .ok _, .error f => .error f

/-! The calls of a procedure, as data. -/

/-- What a command does in the step of a `BusStart`, before the call (log 5). -/
inductive Pre where
  | none
  /-- `ShadowClear()` (R162 step 1). -/
  | clearShadow
  /-- `CellCheck(row, col)` (R161). -/
  | cell (row col : Byte)
  deriving DecidableEq, Repr

/-- One bus call of a procedure, made through the helpers of R113. -/
inductive Op where
  | start (d : Dir) (pre : Pre)
  | send (b : Src)
  | recv (pg : Byte) (off : Nat)
  | stop (post : Post)
  deriving DecidableEq, Repr

/-- The step of a `START`. A cell check that fails ends the command instead, with no bus call (R149, R193). -/
def startStep (d : Dir) (pre : Pre) (s : State) : State :=
  match pre with
  | .none => busStart d s
  | .clearShadow => busStart d (shadowClear s)
  | .cell row col => if cellCheck s row col then busStart d s else raiseError .addressingError s

/-- One call of a procedure. Whether the block has a next step never depends on the oracle (R81). -/
def callStep (s : State) : Op → Host.Outcome State Fault Refusal
  | .start d pre => .next (startStep d pre s)
  | .send x =>
    match evalSrc s x with
    | .ok b => .next (busSend b s)
    | .error f => .fault f
  | .recv pg off =>
    match shadowAddr s.cfg pg off with
    | .ok a => .next (busRecv a s)
    | .error f => .fault f
  | .stop post =>
    match applyPost s post with
    | .ok t => .next (busStop .run t)
    | .error f => .fault f

/-- One step of the command in flight, whose calls are `ops` (R22, R67, R113): its call number `pos`; after the last one
`complete(OK)`; after a failed call exactly one `BusStop` and then `raise BusError` (R192). -/
def sequencer (ops : List Op) (s : State) : Host.Outcome State Fault Refusal :=
  match s.seq with
  | .idle => .refused .noCommand
  | .busy _ pos .run =>
    match ops[pos]? with
    | some op => callStep s op
    | none => .next (complete .ok s)
  | .busy _ _ .stopOwed => .next (busStop .raising s)
  | .busy _ _ .raising => .next (raiseError .busError s)

/-- One step of a command: a word that fails admission completes at once with `PROTOCOL_ERROR` (R97, R194), any other runs
its procedure. -/
def runCommand (i : Instr) (ops : Config → List Op) (s : State) : Host.Outcome State Fault Refusal :=
  match s.seq with
  | .idle => .refused .noCommand
  | .busy _ _ _ =>
    if admits s.cfg i then sequencer (ops s.cfg) s else .next (raiseError .protocolError s)

/-! The protocol procedures (40_protocol_engine.md, 3). -/

/-- `DirectWrite(reg, val)` (R114). -/
def directWrite (reg val : Byte) : List Op :=
  [.start .write .none, .send (.lit reg), .send (.lit val), .stop .none]

/-- `PageSelect(pg)` (R115): unlock, then the page number, each a transaction of its own. -/
def pageSelect (c : Config) (pg : Byte) : List Op :=
  directWrite c.regLock c.unlockKey ++ directWrite c.regCmd pg

/-- `ReadAt(pg, off)` (R117), with `DBUF[i] <- b` at its end when `buf = some i` (R118, R121). -/
def readAt (pg : Byte) (off : Nat) (buf : Option Nat) : List Op :=
  [.start .write .none, .send (.lit (BitVec.ofNat 8 off)), .stop .none,
   .start .read .none, .recv pg off,
   .stop (match buf with
     | some i => .toBuf i pg off
     | none => .none)]

/-- `ReadBurst(pg, off, n, toBuf)` (R118): one page select, then a read pair for each byte. -/
def readBurst (c : Config) (pg : Byte) (off n : Nat) (toBuf : Bool) : List Op :=
  pageSelect c pg ++
    (List.range n).flatMap fun i => readAt pg (off + i) (if toBuf then some i else none)

/-- `WriteOne(pg, off, v)` (R119). -/
def writeOne (c : Config) (pg : Byte) (off : Nat) (v : Src) : List Op :=
  pageSelect c pg ++
    [.start .write .none, .send (.lit (BitVec.ofNat 8 off)), .send v, .stop (.commit pg off [v])]

/-- `WriteBurst(pg, off, d)` (R120): one write transaction carries every byte. -/
def writeBurst (c : Config) (pg : Byte) (off : Nat) (d : List Src) : List Op :=
  pageSelect c pg ++ [.start .write .none, .send (.lit (BitVec.ofNat 8 off))]
    ++ d.map .send ++ [.stop (.commit pg off d)]

/-- The same calls, with something done in the step of the first `BusStart`. -/
def withPre (pre : Pre) : List Op → List Op
  | .start d _ :: ops => .start d pre :: ops
  | ops => ops

/-- `LightCell(pg, row, col, vB, vG, vR)` (R161): the cell check, then blue, green, red. -/
def lightCell (c : Config) (pg row col : Byte) (vB vG vR : Src) : List Op :=
  withPre (.cell row col) (writeOne c pg (pwmOffset row.toNat col.toNat 0) vB)
    ++ writeOne c pg (pwmOffset row.toNat col.toNat 1) vG
    ++ writeOne c pg (pwmOffset row.toNat col.toNat 2) vR

end Sys2Proof.Machine
end

