-- ==== Sys2Proof/Machine/Backlight.lean ====
section
/-! DEFINITION. The seven backlight macro-commands (42_backlight_sequences.md R162 to R168): the calls of each, and its
meaning, which is one step of it at the position `seq` holds. -/

namespace Sys2Proof.Machine

/-- `RESET` (R162), steps 1 to 8. Step 1, `ShadowClear`, is done in the step of the first `BusStart` (log 5). -/
def opsReset (c : Config) : List Op :=
  withPre .clearShadow (readBurst c c.pFunc c.fReset.toNat 1 false)
    ++ writeOne c c.pFunc c.fConfig.toNat (.lit c.cfgRunValue)
    ++ writeOne c c.pFunc c.fGcc.toNat (.lit 0x00)
    ++ writeOne c c.pFunc c.fSwpu.toNat (.lit c.swpuValue)
    ++ writeOne c c.pFunc c.fCspd.toNat (.lit c.cspdValue)
    ++ writeBurst c c.pOnoff 0x00 (c.onoffMask.toList.map .lit)
    ++ writeBurst c c.pPwm 0x00 (List.replicate extPwm (.lit 0x00))

/-- `BRIGHT` (R163). -/
def opsBright (data : Byte) (c : Config) : List Op :=
  writeOne c c.pFunc c.fGcc.toNat (.lit data)

/-- `SET` (R164): `r = DBUF[0]`, `g = DBUF[1]`, `b = DBUF[2]`. -/
def opsSet (row col : Byte) (c : Config) : List Op :=
  lightCell c c.pPwm row col (.dbuf 2) (.dbuf 1) (.dbuf 0)

/-- `HALF_POS[HALF]` (R9, R165). -/
def halfPos (c : Config) (half : Byte) : List (Byte × Byte) :=
  if half = 0 then c.halfLeft.toList else c.halfRight.toList

/-- `SETALL` (R165): the five positions of a half, in list order. -/
def opsSetall (half : Byte) (c : Config) : List Op :=
  (halfPos c half).flatMap fun p => lightCell c c.pPwm p.1 p.2 (.dbuf 2) (.dbuf 1) (.dbuf 0)

/-- `ABMSET` (R166): `ABM_VALUE` to the cell's three bytes of the `abm` page. -/
def opsAbmset (row col : Byte) (c : Config) : List Op :=
  lightCell c c.pAbm row col (.lit abmValue) (.lit abmValue) (.lit abmValue)

/-- `CHKTRIG` (R167). -/
def opsChktrig (c : Config) : List Op :=
  writeOne c c.pFunc c.fGcc.toNat (.lit c.diagGcc)
    ++ writeOne c c.pFunc c.fConfig.toNat .osdOff
    ++ writeOne c c.pFunc c.fConfig.toNat .osdOn

/-- `CHECK` (R168): the open zone, then the short zone. -/
def opsCheck (c : Config) : List Op :=
  readBurst c c.pOnoff 0x18 zoneLen false ++ readBurst c c.pOnoff 0x30 zoneLen false

/-- One step of `RESET` (R162). -/
def execReset (s : State) : Host.Outcome State Fault Refusal :=
  runCommand .reset opsReset s

/-- One step of `BRIGHT` (R163). -/
def execBright (data : Byte) (s : State) : Host.Outcome State Fault Refusal :=
  runCommand (.bright data) (opsBright data) s

/-- One step of `SET` (R164). -/
def execSet (row col : Byte) (s : State) : Host.Outcome State Fault Refusal :=
  runCommand (.set row col) (opsSet row col) s

/-- One step of `SETALL` (R165). -/
def execSetall (half : Byte) (s : State) : Host.Outcome State Fault Refusal :=
  runCommand (.setall half) (opsSetall half) s

/-- One step of `ABMSET` (R166): `CHAN` is accepted and ignored. -/
def execAbmset (row col chan : Byte) (s : State) : Host.Outcome State Fault Refusal :=
  runCommand (.abmset row col chan) (opsAbmset row col) s

/-- One step of `CHKTRIG` (R167). -/
def execChktrig (s : State) : Host.Outcome State Fault Refusal :=
  runCommand .chktrig opsChktrig s

/-- One step of `CHECK` (R168). -/
def execCheck (s : State) : Host.Outcome State Fault Refusal :=
  runCommand .check opsCheck s

end Sys2Proof.Machine
end

