-- ==== Sys2Proof/Machine/Protocol.lean ====
section
/-! DEFINITION. The five protocol-primitive commands (40_protocol_engine.md R121 to R125): the calls of each, and its
meaning, which is one step of it at the position `seq` holds. -/

namespace Sys2Proof.Machine

/-- `RD1` (R121): page select, one read pair, the byte to `DBUF[0]`. -/
def opsRd1 (page offset : Byte) (c : Config) : List Op :=
  pageSelect c page ++ readAt page offset.toNat (some 0)

/-- `RDB` (R122). -/
def opsRdb (page offset size : Byte) (c : Config) : List Op :=
  readBurst c page offset.toNat size.toNat true

/-- `WR1` (R123). -/
def opsWr1 (page offset data : Byte) (c : Config) : List Op :=
  writeOne c page offset.toNat (.lit data)

/-- `WRB` (R124): the data is `DBUF[0..SIZE-1]`. -/
def opsWrb (page offset size : Byte) (c : Config) : List Op :=
  writeBurst c page offset.toNat ((List.range size.toNat).map .dbuf)

/-- `WRD` (R125). -/
def opsWrd (reg value : Byte) (_ : Config) : List Op := directWrite reg value

/-- One step of `RD1` (R121). -/
def execRd1 (page offset : Byte) (s : State) : Host.Outcome State Fault Refusal :=
  runCommand (.rd1 page offset) (opsRd1 page offset) s

/-- One step of `RDB` (R122). -/
def execRdb (page offset size : Byte) (s : State) : Host.Outcome State Fault Refusal :=
  runCommand (.rdb page offset size) (opsRdb page offset size) s

/-- One step of `WR1` (R123). -/
def execWr1 (page offset data : Byte) (s : State) : Host.Outcome State Fault Refusal :=
  runCommand (.wr1 page offset data) (opsWr1 page offset data) s

/-- One step of `WRB` (R124). -/
def execWrb (page offset size : Byte) (s : State) : Host.Outcome State Fault Refusal :=
  runCommand (.wrb page offset size) (opsWrb page offset size) s

/-- One step of `WRD` (R125). -/
def execWrd (reg value : Byte) (s : State) : Host.Outcome State Fault Refusal :=
  runCommand (.wrd reg value) (opsWrd reg value) s

end Sys2Proof.Machine
end

