-- ==== Sys2Proof/Machine/Dispatch.lean ====
section
/-! DEFINITION. The meaning of each command: what one step of it does (20_memory.md R67). -/

namespace Sys2Proof.Machine

def exec (i : Instr) (s : State) : Host.Outcome State Fault Refusal :=
  match i with
  | .rd1 page offset => Sys2Proof.Machine.execRd1 page offset s
  | .rdb page offset size => Sys2Proof.Machine.execRdb page offset size s
  | .wr1 page offset data => Sys2Proof.Machine.execWr1 page offset data s
  | .wrb page offset size => Sys2Proof.Machine.execWrb page offset size s
  | .wrd reg value => Sys2Proof.Machine.execWrd reg value s
  | .reset => Sys2Proof.Machine.execReset s
  | .bright data => Sys2Proof.Machine.execBright data s
  | .set row col => Sys2Proof.Machine.execSet row col s
  | .setall half => Sys2Proof.Machine.execSetall half s
  | .abmset row col chan => Sys2Proof.Machine.execAbmset row col chan s
  | .chktrig => Sys2Proof.Machine.execChktrig s
  | .check => Sys2Proof.Machine.execCheck s

end Sys2Proof.Machine
end

