-- ==== Sys2Proof/Decode.lean ====
section
/-! DEFINITION. Decoding a command word (30_encoding.md R90 to R96), total on every 32-bit word, and the encoder
(R99). -/

namespace Sys2Proof

/-! The fields of `CMD32` (R90). -/

/-- `OP`, bits 31:28. -/
def fieldOp (w : Word) : BitVec 4 := w.extractLsb' 28 4
/-- `RSV`, bits 27:24. -/
def fieldRsv (w : Word) : BitVec 4 := w.extractLsb' 24 4
/-- `A`, bits 23:16. -/
def fieldA (w : Word) : Byte := w.extractLsb' 16 8
/-- `B`, bits 15:8. -/
def fieldB (w : Word) : Byte := w.extractLsb' 8 8
/-- `C`, bits 7:0. -/
def fieldC (w : Word) : Byte := w.extractLsb' 0 8

/-- Why a word matches no row of the opcode table. -/
inductive DecodeError where
  /-- `OP` is 0x0, 0x6, 0x7 or 0xF (R95). -/
  | reservedOp
  /-- `RSV` is not 0 (R96). -/
  | reservedBits
  /-- A field that R92 marks 0 is not 0 (R96). -/
  | mustBeZero
  deriving DecidableEq, Repr

/-- The command a word decodes to by its `OP` and operand fields, when the fields R92 marks `0` are 0. -/
def decodeOp (op : Nat) (a b c : Byte) : Except DecodeError Instr :=
  match op with
  | 0x1 => if c = 0 then .ok (.rd1 a b) else .error .mustBeZero
  | 0x2 => .ok (.rdb a b c)
  | 0x3 => .ok (.wr1 a b c)
  | 0x4 => .ok (.wrb a b c)
  | 0x5 => if c = 0 then .ok (.wrd a b) else .error .mustBeZero
  | 0x8 => if a = 0 ∧ b = 0 ∧ c = 0 then .ok .reset else .error .mustBeZero
  | 0x9 => if a = 0 ∧ b = 0 then .ok (.bright c) else .error .mustBeZero
  | 0xA => if c = 0 then .ok (.set a b) else .error .mustBeZero
  | 0xB => if b = 0 ∧ c = 0 then .ok (.setall a) else .error .mustBeZero
  | 0xC => .ok (.abmset a b c)
  | 0xD => if a = 0 ∧ b = 0 ∧ c = 0 then .ok .chktrig else .error .mustBeZero
  | 0xE => if a = 0 ∧ b = 0 ∧ c = 0 then .ok .check else .error .mustBeZero
  | _ => .error .reservedOp

/-- Decode a command word (R94), or say by name why no row matches (R95, R96). -/
def decode (w : Word) : Except DecodeError Instr :=
  if fieldRsv w = 0 then decodeOp (fieldOp w).toNat (fieldA w) (fieldB w) (fieldC w)
  else .error .reservedBits

/-- `{OP, 0x0, A, B, C}` (R99). -/
def commandWord (op : BitVec 4) (a b c : Byte) : Word := op ++ (0 : BitVec 4) ++ a ++ b ++ c

/-- The word of a command (R92, R99). -/
def encode : Instr → Word
  | .rd1 page offset => commandWord 0x1 page offset 0
  | .rdb page offset size => commandWord 0x2 page offset size
  | .wr1 page offset data => commandWord 0x3 page offset data
  | .wrb page offset size => commandWord 0x4 page offset size
  | .wrd reg value => commandWord 0x5 reg value 0
  | .reset => commandWord 0x8 0 0 0
  | .bright data => commandWord 0x9 0 0 data
  | .set row col => commandWord 0xA row col 0
  | .setall half => commandWord 0xB half 0 0
  | .abmset row col chan => commandWord 0xC row col chan
  | .chktrig => commandWord 0xD 0 0 0
  | .check => commandWord 0xE 0 0 0

/-! The `match` and `mask` columns of spec/opcode_table.json, for stating that `decode` follows them (R94). -/

/-- The `match` value of a row of the opcode table. -/
def Mnemonic.matchBits : Mnemonic → Word
  | .rd1 => 0x10000000
  | .rdb => 0x20000000
  | .wr1 => 0x30000000
  | .wrb => 0x40000000
  | .wrd => 0x50000000
  | .reset => 0x80000000
  | .bright => 0x90000000
  | .set => 0xA0000000
  | .setall => 0xB0000000
  | .abmset => 0xC0000000
  | .chktrig => 0xD0000000
  | .check => 0xE0000000

/-- The `mask` value of a row of the opcode table. -/
def Mnemonic.maskBits : Mnemonic → Word
  | .rd1 => 0xFF0000FF
  | .rdb => 0xFF000000
  | .wr1 => 0xFF000000
  | .wrb => 0xFF000000
  | .wrd => 0xFF0000FF
  | .reset => 0xFFFFFFFF
  | .bright => 0xFFFFFF00
  | .set => 0xFF0000FF
  | .setall => 0xFF00FFFF
  | .abmset => 0xFF000000
  | .chktrig => 0xFFFFFFFF
  | .check => 0xFFFFFFFF

/-- The command word that the host's table gives as `nbits` bits; the bits above them are 0. A command word is written to
`CMD` as one 32-bit value (R65, R90), so no byte order enters. -/
def tableWord (nbits w : Nat) : Word := BitVec.ofNat 32 (w % 2 ^ nbits)

/-- The command this decoder reads from a row's bits. -/
def decodeTableWord (nbits w : Nat) : Option Instr :=
  match decode (tableWord nbits w) with
  | .ok i => some i
  | .error _ => none

end Sys2Proof
end

