-- ==== Sys2Proof/Machine/HostPort.lean ====
section
/-! DEFINITION. The host's side: the host port (10_state.md R38, R39; 20_memory.md R60, R65, R80), one access of the host,
and whose turn the next step is. -/

namespace Sys2Proof.Machine

/-- What an access of the host port reaches. -/
inductive Target where
  | cmd | status | devaddr
  /-- a byte of `DBUF` -/
  | buffer
  /-- a byte of the shadow window -/
  | window
  | unmapped
  /-- an access of the wrong width, or one that covers part of a mapped place (R65, 93 U17; log 6) -/
  | wrongWidth
  deriving DecidableEq, Repr

/-- The access covers some byte of `lo .. hi-1`. A width of 0 counts as the byte addressed. -/
def touches (a n lo hi : Nat) : Bool := decide (a < hi) && decide (lo < a + max n 1)

/-- The access covers some byte that R38 maps. -/
def touchesMapped (a n : Nat) : Bool :=
  touches a n 0x000 0x00C || touches a n dbufBase (dbufBase + dbufLen)
    || touches a n onoffBase (onoffBase + extOnoff) || touches a n pwmBase (pwmBase + extPwm)
    || touches a n abmBase (abmBase + extAbm) || touches a n funcBase (funcBase + extFunc)
    || touches a n intmaskAddr (intmaskAddr + 1)

/-- The map of R38: whole words for the registers, single bytes for the arrays (R60, R65). -/
def target (a : HostAddr) (n : Nat) : Target :=
  if n = 4 ∧ a.toNat = 0x000 then .cmd
  else if n = 4 ∧ a.toNat = 0x004 then .status
  else if n = 4 ∧ a.toNat = 0x008 then .devaddr
  else if n = 1 ∧ isDbufAddr a.toNat then .buffer
  else if n = 1 ∧ isShadowAddr a.toNat then .window
  else if touchesMapped a.toNat n then .wrongWidth
  else .unmapped

/-- The host gets a value back. -/
def giveBack (a : HostAddr) (n : Nat) (v : Word) (s : State) : State :=
  { s with reads := s.reads ++ [⟨a, n, v⟩] }

/-- An access of `CMD`, `DBUF` or the shadow window: refused while `BUSY = 1` (R75, R80; 93 U15). -/
def whileIdle (s : State) (access : Host.Outcome State Fault Refusal) : Host.Outcome State Fault Refusal :=
  if s.busy then .refused .hostDuty else access

/-- `MemRead(a, n)` (R80): `CMD` reads 0 (R24), an unmapped place reads 0 (R39); `CMD`, `DBUF` and the shadow only while
`Idle`. -/
def memRead (a : HostAddr) (n : Nat) (s : State) : Host.Outcome State Fault Refusal :=
  match target a n with
  | .cmd => whileIdle s (.next (giveBack a n 0 s))
  | .status => .next (giveBack a n (statusWord s) s)
  | .devaddr => .next (giveBack a n (devaddrWord s) s)
  | .buffer => whileIdle s (.next (giveBack a n ((s.mem.read a.toNat).zeroExtend 32) s))
  | .window => whileIdle s (.next (giveBack a n ((s.mem.read a.toNat).zeroExtend 32) s))
  | .unmapped => .next (giveBack a n 0 s)
  | .wrongWidth => .refused .wrongWidth

/-- `MemWrite(a, n, v)` (R80): `CMD` issues a command, `DBUF` takes a byte and the shadow window ignores the write, each only
while `Idle`; the read-only registers and the unmapped places ignore it (R23, R25, R38, R39). -/
def memWrite (a : HostAddr) (n : Nat) (v : Word) (s : State) : Host.Outcome State Fault Refusal :=
  match target a n with
  | .cmd => whileIdle s (.next (issue v s))
  | .status => .next s
  | .devaddr => .next s
  | .buffer => whileIdle s (.next { s with mem := s.mem.write a.toNat (v.extractLsb' 0 8) })
  | .window => whileIdle s (.next s)
  | .unmapped => .next s
  | .wrongWidth => .refused .wrongWidth

/-- One access of the host whose turn it is; `rest` are the accesses after it. Until the first block reset every access but a
block reset is refused (R40). A `WAIT` whose poll finds `BUSY = 1` lets the block take its step and polls again. -/
def hostTurn (block : State → Host.Outcome State Fault Refusal) (x : HostAccess) (rest : List HostEvent)
    (s : State) : Host.Outcome State Fault Refusal :=
  match x with
  | .blockReset => .next { blockReset s with host := rest }
  | .delay _ => .next { s with host := rest }
  | .memRead a n => if s.live then memRead a n { s with host := rest } else .refused .beforeBlockReset
  | .memWrite a n v => if s.live then memWrite a n v { s with host := rest } else .refused .beforeBlockReset
  | .wait =>
    if s.live then
      if s.busy then block s else memRead 0x004 4 { s with host := rest }
    else .refused .beforeBlockReset

/-- The block's turn: nothing in `Idle` (R71, R208), a step of the command in flight while `Busy` (R94), and
`PROTOCOL_ERROR` at once for a word that matches no row of the opcode table (R95, R96, R194). -/
def blockTurn (meaning : Instr → State → Host.Outcome State Fault Refusal) (s : State) :
    Host.Outcome State Fault Refusal :=
  if s.live then
    match s.seq with
    | .idle => .next s
    | .busy w _ _ =>
      match decode w with
      | .ok i => meaning i s
      | .error _ => .next (raiseError .protocolError s)
  else .refused .beforeBlockReset

/-- Whose turn it is: the host's when its next access is due, else the block's, which brings that access one step nearer
(log 3). A configuration that breaks R10 is refused (R201). -/
def turn (block : State → Host.Outcome State Fault Refusal) (s : State) : Host.Outcome State Fault Refusal :=
  if configOk s.cfg then
    match s.host with
    | [] => block s
    | ⟨0, x⟩ :: rest => hostTurn block x rest s
    | ⟨g + 1, x⟩ :: rest => block { s with host := ⟨g, x⟩ :: rest }
  else .refused .badConfig

end Sys2Proof.Machine
end

