-- ==== Sys2Proof/Machine/Step.lean ====
section
/-! DEFINITION. One step of the machine: a host access, or one bus call or completion of the block (20_memory.md R67). -/

namespace Sys2Proof.Machine

/-- One step. -/
def step (s : State) : Host.Outcome State Fault Refusal := turn (blockTurn exec) s

/-- `s` with the command word `w` issued and the host silent, so that the next step is the first step of that command. It
stands for the host write of `CMD` that brings every command to the block (R24; log 12). -/
def State.withFetchWord (s : State) (nbits w : Nat) : State :=
  issue (tableWord nbits w) { s with live := true, host := [] }

end Sys2Proof.Machine
end

