-- ==== Sys2Proof/Machine/Assembler.lean ====
section
/-! DEFINITION. Assembly lines, host pseudo-operations and pseudo-instructions (30_encoding.md R99 to R102), as the host
accesses they stand for. -/

namespace Sys2Proof.Machine

/-- The parameter names an operand may be (R100). -/
inductive ParamName where
  | pOnoff | pPwm | pAbm | pFunc | regCmd | regLock | unlockKey | fConfig | fGcc | fSwpu | fCspd | fReset
  deriving DecidableEq, Repr

/-- An operand: a number or a parameter name (R100). -/
inductive Operand where
  | num (n : Nat)
  | param (p : ParamName)
  deriving DecidableEq, Repr

/-- The `Cfg` value of a parameter name (R100). -/
def ParamName.value (c : Config) : ParamName → Byte
  | .pOnoff => c.pOnoff
  | .pPwm => c.pPwm
  | .pAbm => c.pAbm
  | .pFunc => c.pFunc
  | .regCmd => c.regCmd
  | .regLock => c.regLock
  | .unlockKey => c.unlockKey
  | .fConfig => c.fConfig
  | .fGcc => c.fGcc
  | .fSwpu => c.fSwpu
  | .fCspd => c.fCspd
  | .fReset => c.fReset

/-- An operand's byte; a number outside 0..0xFF is an assembly error (R100). -/
def Operand.value (c : Config) : Operand → Option Byte
  | .num n => if n ≤ 0xFF then some (BitVec.ofNat 8 n) else none
  | .param p => some (p.value c)

/-- A line of a program (R99, R101): a command, a raw command word (95_test_vectors.md L3-4), a host pseudo-operation or a
pseudo-instruction. -/
inductive Line where
  | rd1 (page offset : Operand)
  | rdb (page offset size : Operand)
  | wr1 (page offset data : Operand)
  | wrb (page offset size : Operand)
  | wrd (reg value : Operand)
  | reset
  | bright (data : Operand)
  | set (row col : Operand)
  | setall (half : Operand)
  | abmset (row col chan : Operand)
  | chktrig
  | check
  | word (w : Word)
  | buf (i v : Operand)
  | wait
  /-- The time `t` is no operand of R100: any natural number, never an assembly error (DESIGN CHOICE, log 13). -/
  | delay (t : Nat)
  | peek (page offset : Operand)
  | unlock
  | psel (page : Operand)
  | setc (row col r g b : Operand)
  | setallc (half r g b : Operand)
  | wrbuf (page offset : Operand) (data : List Operand)
  deriving DecidableEq, Repr

/-- An access right after the one before it. -/
def soon (x : HostAccess) : HostEvent := ⟨0, x⟩

/-- A command line: the host writes the word to `CMD`, and an implicit `WAIT` follows (R24, R102). -/
def commandLine (i : Instr) : List HostEvent := [soon (.memWrite 0x000 4 (encode i)), soon .wait]

/-- `BUF i, v` (R101). -/
def bufAccess (i v : Byte) : HostEvent :=
  soon (.memWrite (BitVec.ofNat 12 (dbufBase + i.toNat)) 1 (v.zeroExtend 32))

/-- `BUF 0, d0 ; ... ; BUF n-1, dn-1`, beginning at index `k` (R101). -/
def bufAll : Nat → List Byte → List HostEvent
  | _, [] => []
  | k, b :: bs => bufAccess (BitVec.ofNat 8 k) b :: bufAll (k + 1) bs

/-- The bytes of several operands. -/
def operandValues (c : Config) : List Operand → Option (List Byte)
  | [] => some []
  | x :: xs =>
    match x.value c, operandValues c xs with
    | some b, some bs => some (b :: bs)
    | _, _ => none

/-- The accesses a line stands for once its operands have values, or none for an assembly error: a number outside 0..0xFF
(R100), such as the count of a `WRBUF` of more than 0xFF bytes, and a `PEEK` of no shadow byte. The time of a `DELAY` is not held to
that limit (log 13). -/
def assembleLine (c : Config) : Line → Option (List HostEvent)
  | .rd1 p o => do return commandLine (.rd1 (← p.value c) (← o.value c))
  | .rdb p o n => do return commandLine (.rdb (← p.value c) (← o.value c) (← n.value c))
  | .wr1 p o d => do return commandLine (.wr1 (← p.value c) (← o.value c) (← d.value c))
  | .wrb p o n => do return commandLine (.wrb (← p.value c) (← o.value c) (← n.value c))
  | .wrd r v => do return commandLine (.wrd (← r.value c) (← v.value c))
  | .reset => some (commandLine .reset)
  | .bright d => do return commandLine (.bright (← d.value c))
  | .set r k => do return commandLine (.set (← r.value c) (← k.value c))
  | .setall h => do return commandLine (.setall (← h.value c))
  | .abmset r k n => do return commandLine (.abmset (← r.value c) (← k.value c) (← n.value c))
  | .chktrig => some (commandLine .chktrig)
  | .check => some (commandLine .check)
  | .word w => some [soon (.memWrite 0x000 4 w), soon .wait]
  | .buf i v => do return [bufAccess (← i.value c) (← v.value c)]
  | .wait => some [soon .wait]
  | .delay t => some [soon (.delay t)]
  | .peek p o => do
      match shadowAddr c (← p.value c) (← o.value c).toNat with
      | .ok a => return [soon (.memRead (BitVec.ofNat 12 a) 1)]
      | .error _ => none
  | .unlock => some (commandLine (.wrd c.regLock c.unlockKey))
  | .psel p => do
      return commandLine (.wrd c.regLock c.unlockKey) ++ commandLine (.wrd c.regCmd (← p.value c))
  | .setc r k red g b => do
      return bufAll 0 [← red.value c, ← g.value c, ← b.value c] ++ commandLine (.set (← r.value c) (← k.value c))
  | .setallc h red g b => do
      return bufAll 0 [← red.value c, ← g.value c, ← b.value c] ++ commandLine (.setall (← h.value c))
  | .wrbuf p o d => do
      return bufAll 0 (← operandValues c d)
        ++ commandLine (.wrb (← p.value c) (← o.value c) (← (Operand.num d.length).value c))

/-- A program's accesses, line after line (R102). -/
def assemble (c : Config) : List Line → Option (List HostEvent)
  | [] => some []
  | l :: ls =>
    match assembleLine c l, assemble c ls with
    | some es, some rest => some (es ++ rest)
    | _, _ => none

/-- Give the host a list of accesses to make. -/
def State.withHost (s : State) (es : List HostEvent) : State := { s with host := es }

end Sys2Proof.Machine
end

