-- ==== Sys2Proof/Safety.lean ====
section
/-! DEFINITION. The terms that claims about runs use: several steps of one command, the invariants of the state, the traces and
counts of the spec's tables, and the places a command may write. -/

namespace Sys2Proof.Machine

/-! Running a command. -/

/-- `n` steps of one command, stopping at the first fault or refusal. -/
def execTimes : Nat → Instr → State → Host.Outcome State Fault Refusal
  | 0, _, s => .next s
  | n + 1, i, s =>
    match exec i s with
    | .next t => execTimes n i t
    | .fault f => .fault f
    | .refused r => .refused r

/-- The calls of a command, by its rule (R121 to R125, R162 to R168). -/
def opsOf (c : Config) : Instr → List Op
  | .rd1 page offset => opsRd1 page offset c
  | .rdb page offset size => opsRdb page offset size c
  | .wr1 page offset data => opsWr1 page offset data c
  | .wrb page offset size => opsWrb page offset size c
  | .wrd reg value => opsWrd reg value c
  | .reset => opsReset c
  | .bright data => opsBright data c
  | .set row col => opsSet row col c
  | .setall half => opsSetall half c
  | .abmset row col _ => opsAbmset row col c
  | .chktrig => opsChktrig c
  | .check => opsCheck c

/-- Bus calls of a command when every call returns `ok` and every cell check passes: the tables of R126 and R169. -/
def callCount : Instr → Nat
  | .rd1 _ _ => 14
  | .rdb _ _ size => 8 + 6 * size.toNat
  | .wr1 _ _ _ => 12
  | .wrb _ _ size => 11 + size.toNat
  | .wrd _ _ => 4
  | .reset => 300
  | .bright _ => 12
  | .set _ _ => 36
  | .setall _ => 180
  | .abmset _ _ _ => 36
  | .chktrig => 36
  | .check => 304

/-- Transactions of a command in the same case: the tables of R126 and R169. -/
def transactionCount : Instr → Nat
  | .rd1 _ _ => 4
  | .rdb _ _ size => 2 + 2 * size.toNat
  | .wr1 _ _ _ => 3
  | .wrb _ _ _ => 3
  | .wrd _ _ => 1
  | .reset => 22
  | .bright _ => 3
  | .set _ _ => 9
  | .setall _ => 45
  | .abmset _ _ _ => 9
  | .chktrig => 9
  | .check => 100

/-- A call that begins a transaction. -/
def BusEvent.isStart : BusEvent → Bool
  | .start _ _ _ => true
  | .send _ _ => false
  | .recv _ => false
  | .stop => false

/-- A call whose status was `error` (R113). -/
def BusEvent.failed : BusEvent → Bool
  | .start _ _ ok => !ok
  | .send _ ok => !ok
  | .recv b => b.isNone
  | .stop => false

/-- Everything of the state that only the host and the platform change. -/
abbrev KeepsRest (s t : State) : Prop :=
  t.addr7 = s.addr7 ∧ t.sdb = s.sdb ∧ t.live = s.live ∧ t.cfg = s.cfg ∧ t.host = s.host ∧ t.reads = s.reads

/-- A command ended with a result and nothing else happened in that step (R191). -/
def endsWith (r : Result) (s : State) : State := { s with result := r, seq := .idle }

/-! The traces of 95_test_vectors.md, for calls that all return `ok`. -/

/-- `PS(p)`: the 8-call page select (R115). -/
def selectTrace (s : State) (pg : Byte) : List BusEvent :=
  [.start (addrByte s .write) 10 true, .send s.cfg.regLock true, .send s.cfg.unlockKey true, .stop,
   .start (addrByte s .write) 10 true, .send s.cfg.regCmd true, .send pg true, .stop]

/-- `S(A0) W(o) W(d0) ... P`: one write transaction at an offset (R119, R120). -/
def writeTrace (s : State) (off : Nat) (bytes : List Byte) : List BusEvent :=
  [.start (addrByte s .write) 10 true, .send (BitVec.ofNat 8 off) true]
    ++ bytes.map (fun b => .send b true) ++ [.stop]

/-- `RA(o,b)`: one read pair (R117). -/
def readTrace (s : State) (off : Nat) (b : Byte) : List BusEvent :=
  [.start (addrByte s .write) 10 true, .send (BitVec.ofNat 8 off) true, .stop,
   .start (addrByte s .read) 10 true, .recv (some b), .stop]

/-- One read pair at an offset whose call with status `r` of its four returns `error`, with the `BusStop` after it (R113, R117). -/
def failedReadTrace (s : State) (off : Nat) : Nat → List BusEvent
  | 0 => [.start (addrByte s .write) 10 false, .stop]
  | 1 => [.start (addrByte s .write) 10 true, .send (BitVec.ofNat 8 off) false, .stop]
  | 2 => [.start (addrByte s .write) 10 true, .send (BitVec.ofNat 8 off) true, .stop,
          .start (addrByte s .read) 10 false, .stop]
  | _ => [.start (addrByte s .write) 10 true, .send (BitVec.ofNat 8 off) true, .stop,
          .start (addrByte s .read) 10 true, .recv none, .stop]

/-- Page select and one single-byte write (R119). -/
def writeOneTrace (s : State) (pg : Byte) (off : Nat) (b : Byte) : List BusEvent :=
  selectTrace s pg ++ writeTrace s off [b]

/-- The byte that the `k`-th of some answers carries. -/
def answerByte (as : List BusAnswer) (k : Nat) : Byte :=
  match as[k]? with
  | some a => a.byte
  | none => 0

/-- The byte that `CHECK` receives for `onoff[0x18 + j]`, from the answers to its calls: six statuses for each page select before it
and four for each read pair (R118, R168). -/
def checkByte (as : List BusAnswer) (j : Nat) : Byte := answerByte as (9 + 4 * j + 6 * (j / 0x18))

/-! Rules in the spec's own words. -/

/-- `Ext(pg) = e`, as R97 lists it. -/
def ExtIs (c : Config) (pg : Byte) (e : Nat) : Prop :=
  (pg = c.pOnoff ∧ e = 0x48) ∨ (pg = c.pPwm ∧ e = 0xC0) ∨ (pg = c.pAbm ∧ e = 0xC0) ∨ (pg = c.pFunc ∧ e = 0x12)

/-- `Writable(pg, off)`, as R97 defines it. -/
def WritableAt (c : Config) (pg : Byte) (off : Nat) : Prop := ¬ (pg = c.pOnoff ∧ 0x18 ≤ off)

/-- `Admit(w)`, as R97 writes it. -/
def AdmitRule (c : Config) : Instr → Prop
  | .rd1 page offset => ∃ e, ExtIs c page e ∧ offset.toNat < e
  | .rdb page offset size => ∃ e, ExtIs c page e ∧ offset.toNat < e ∧ offset.toNat + size.toNat ≤ e
  | .wr1 page offset _ => ∃ e, ExtIs c page e ∧ offset.toNat < e ∧ WritableAt c page offset.toNat
  | .wrb page offset size =>
      ∃ e, ExtIs c page e ∧ offset.toNat < e ∧ offset.toNat + size.toNat ≤ e ∧ WritableAt c page offset.toNat ∧
        ∀ i, i < size.toNat → WritableAt c page (offset.toNat + i)
  | .wrd reg _ => reg = c.regLock ∨ reg = c.regCmd
  | .setall half => half = 0 ∨ half = 1
  | .reset => True
  | .bright _ => True
  | .set _ _ => True
  | .abmset _ _ _ => True
  | .chktrig => True
  | .check => True

/-- A cell in range whose three on/off bits are set in the shadow, with the byte and bit of R146 (R149). -/
def CellEnabled (s : State) (row col : Nat) : Prop :=
  row < 4 ∧ col < 16 ∧ ∀ k, k < 3 → (s.onoff (onOffByte row col k)).getLsbD (onOffBit col) = true

/-- Every cell a command writes is enabled. -/
def CellsEnabled (s : State) : Instr → Prop
  | .set row col => CellEnabled s row.toNat col.toNat
  | .abmset row col _ => CellEnabled s row.toNat col.toNat
  | .setall half => ∀ p ∈ halfPos s.cfg half, CellEnabled s p.1.toNat p.2.toNat
  | .rd1 _ _ => True
  | .rdb _ _ _ => True
  | .wr1 _ _ _ => True
  | .wrb _ _ _ => True
  | .wrd _ _ => True
  | .reset => True
  | .bright _ => True
  | .chktrig => True
  | .check => True

/-- The colour channel `k` of a colour in `DBUF[0..2]`: 0 is blue, 1 green, 2 red (R93, R145). -/
def colourByte (s : State) (k : Nat) : Byte := s.dbuf (2 - k)

/-- The three single-byte writes of a cell, blue first: host-port address and byte (R161). -/
def cellWrites (base : Nat) (row col : Byte) (v : Nat → Byte) : List (Nat × Byte) :=
  (List.range 3).map fun k => (base + pwmOffset row.toNat col.toNat k, v k)

/-- The cells a command writes, in order (R164 to R166). -/
def cellsOf (c : Config) : Instr → List (Byte × Byte)
  | .set row col => [(row, col)]
  | .setall half => halfPos c half
  | .abmset row col _ => [(row, col)]
  | .rd1 _ _ => []
  | .rdb _ _ _ => []
  | .wr1 _ _ _ => []
  | .wrb _ _ _ => []
  | .wrd _ _ => []
  | .reset => []
  | .bright _ => []
  | .chktrig => []
  | .check => []

/-- The writes of the commands that consist of several single-byte write accesses, in order (R164 to R167); empty for the others. -/
def singleWrites (s : State) : Instr → List (Nat × Byte)
  | .set row col => cellWrites 0x500 row col (colourByte s)
  | .setall half => (halfPos s.cfg half).flatMap fun p => cellWrites 0x500 p.1 p.2 (colourByte s)
  | .abmset row col _ => cellWrites 0x600 row col fun _ => 0x01
  | .chktrig =>
      [(0x700 + s.cfg.fGcc.toNat, s.cfg.diagGcc),
       (0x700 + s.cfg.fConfig.toNat, s.func s.cfg.fConfig.toNat &&& ~~~(1#8 <<< s.cfg.cfgOsdBit)),
       (0x700 + s.cfg.fConfig.toNat, s.func s.cfg.fConfig.toNat ||| (1#8 <<< s.cfg.cfgOsdBit))]
  | .rd1 _ _ => []
  | .rdb _ _ _ => []
  | .wr1 _ _ _ => []
  | .wrb _ _ _ => []
  | .wrd _ _ => []
  | .reset => []
  | .bright _ => []
  | .check => []

/-- Some writes made one after another. -/
def writeAll (m : Memory) (ws : List (Nat × Byte)) : Memory := ws.foldl (fun m x => m.write x.1 x.2) m

/-- A word that breaks R96: `RSV` or a field that R92 marks `0` is not 0. -/
def BreaksFixedField (w : Word) : Prop :=
  fieldRsv w ≠ 0 ∨
    ((fieldOp w = 0x1 ∨ fieldOp w = 0x5 ∨ fieldOp w = 0xA) ∧ fieldC w ≠ 0) ∨
    ((fieldOp w = 0x8 ∨ fieldOp w = 0xD ∨ fieldOp w = 0xE) ∧ (fieldA w ≠ 0 ∨ fieldB w ≠ 0 ∨ fieldC w ≠ 0)) ∨
    (fieldOp w = 0x9 ∧ (fieldA w ≠ 0 ∨ fieldB w ≠ 0)) ∨
    (fieldOp w = 0xB ∧ (fieldB w ≠ 0 ∨ fieldC w ≠ 0))

/-! Where a command may write: the host-port addresses of its shadow targets, computed as the commits compute them, and of the
`DBUF` bytes it receives into. -/

/-- The bytes of `DBUF` and the shadow that a command may change. -/
def StoresTo (c : Config) (a : Nat) : Instr → Prop
  | .rd1 page offset => shadowAddr c page offset.toNat = .ok a ∨ dbufAddr 0 = .ok a
  | .rdb page offset size =>
      ∃ k, k < size.toNat ∧ (shadowAddr c page (offset.toNat + k) = .ok a ∨ dbufAddr k = .ok a)
  | .wr1 page offset _ => shadowAddr c page offset.toNat = .ok a
  | .wrb page offset size => ∃ k, k < size.toNat ∧ shadowAddr c page (offset.toNat + k) = .ok a
  | .wrd _ _ => False
  | .reset => isShadowAddr a = true
  | .bright _ => shadowAddr c c.pFunc c.fGcc.toNat = .ok a
  | .set row col => ∃ k, k < 3 ∧ shadowAddr c c.pPwm (pwmOffset row.toNat col.toNat k) = .ok a
  | .setall half => ∃ p ∈ halfPos c half, ∃ k, k < 3 ∧ shadowAddr c c.pPwm (pwmOffset p.1.toNat p.2.toNat k) = .ok a
  | .abmset row col _ => ∃ k, k < 3 ∧ shadowAddr c c.pAbm (pwmOffset row.toNat col.toNat k) = .ok a
  | .chktrig => shadowAddr c c.pFunc c.fGcc.toNat = .ok a ∨ shadowAddr c c.pFunc c.fConfig.toNat = .ok a
  | .check => ∃ k, k < 0x30 ∧ shadowAddr c c.pOnoff (0x18 + k) = .ok a

/-! Invariants. -/

/-- The bytes of `DBUF` and the shadow stand in canonical form, and nothing else is listed. -/
abbrev MemoryOk (s : State) : Prop := s.mem.wf = true ∧ s.mem.mapped = true

/-- Every cell whose check stands before call number `pos` of a command is in range: the check comes in the step of the cell's
first call and ends the command where the cell is not (R149, R161). -/
def PassedCellsInRange (c : Config) (i : Instr) (pos : Nat) : Prop :=
  ∀ k, k < pos → ∀ d row col, (opsOf c i)[k]? = some (.start d (.cell row col)) → row.toNat < 4 ∧ col.toNat < 16

/-- The number of calls made never passes the command's count: `pos` stays within it, an owed `BusStop` is still one of them, and
a word that completes at once has made none (R22, R95, R97); and while no call has failed, the cells whose checks are made are in
range. -/
def PositionOk (s : State) : Prop :=
  match s.seq with
  | .idle => True
  | .busy w pos phase =>
    match decode w with
    | .error _ => pos = 0 ∧ phase = .run
    | .ok i =>
      (admits s.cfg i = false → pos = 0 ∧ phase = .run) ∧
        match phase with
        | .run => pos ≤ callCount i ∧ PassedCellsInRange s.cfg i pos
        | .stopOwed => pos < callCount i
        | .raising => pos ≤ callCount i

/-- Whether the bus is inside a transaction after one more call: a `BusStart` opens one, whatever its status, because the block
ends it with a `BusStop` (R113). -/
def insideAfter (inside : Bool) : BusEvent → Bool
  | .start _ _ _ => true
  | .send _ _ => inside
  | .recv _ => inside
  | .stop => false

/-- Whether a trace ends inside a transaction. -/
def traceOpen (tr : List BusEvent) : Bool := tr.foldl insideAfter false

/-- Whether the call at a position goes on with a transaction: false for a `BusStart` and past the last call. -/
def goesOn (ops : List Op) (k : Nat) : Bool :=
  match ops[k]? with
  | none => false
  | some (.start _ _) => false
  | some (.send _) => true
  | some (.recv _ _) => true
  | some (.stop _) => true

/-- What the sequencer's position says about the bus: in `Idle` every transaction is closed, and while a command runs the bus is
inside a transaction exactly when the command's next call goes on with one (R196). -/
def TransactionOk (s : State) : Prop :=
  PositionOk s ∧
    match s.seq with
    | .idle => traceOpen s.trace = false
    | .busy w pos phase =>
      match decode w with
      | .error _ => traceOpen s.trace = false
      | .ok i =>
        match phase with
        | .run => traceOpen s.trace = goesOn (opsOf s.cfg i) pos
        | .stopOwed => traceOpen s.trace = true
        | .raising => traceOpen s.trace = false

/-- The host asserts block reset in this step. -/
def blockResetDue (s : State) : Bool :=
  match s.host with
  | ⟨0, .blockReset⟩ :: _ => true
  | _ => false

end Sys2Proof.Machine
end

