-- ==== Sys2Proof/WellFormed.lean ====
section
/-! DEFINITION. Which commands the block admits: the well-formedness of a command under a configuration is the
admission check of 30_encoding.md R97. Every operand is a raw byte, so every command has an encoding; a command that is not
well-formed still decodes, and completes with `PROTOCOL_ERROR`. -/

namespace Sys2Proof

/-- A command is well-formed under a configuration when the block admits it (R97). -/
def Instr.wellFormed (c : Config) (i : Instr) : Bool := Machine.admits c i

end Sys2Proof
end

