-- ==== Sys2Proof/Certificates/Slice0/Obligations.lean ====
section
/-! DEFINITION. The statements for the provers. -/

open Sys2Proof Sys2Proof.Machine

/-! Encoding (30_encoding.md). -/

/-- Decoding the word of a command gives the command back, for every command with every operand (R92, R94, R99). -/
def Obligations.DecodeInvertsEncode : Prop := ∀ i : Instr, decode (encode i) = .ok i

/-- A word that decodes is the word of the command it decodes to: each command has one word (R90, R96, R98). -/
def Obligations.EncodeInvertsDecode : Prop := ∀ (w : Word) (i : Instr), decode w = .ok i → encode i = w

/-- A word decodes to a command of a row of the opcode table exactly when it matches the row's `match` and `mask`; so at most
one row matches (R94). -/
def Obligations.DecodeFollowsOpcodeTable : Prop :=
  ∀ (w : Word) (m : Mnemonic), (∃ i, decode w = .ok i ∧ i.mnemonic = m) ↔ w &&& m.maskBits = m.matchBits

/-- Words of 95_test_vectors.md decode to the commands they stand for. -/
def Obligations.SpecWordsDecode : Prop :=
  decode 0x10011000 = .ok (.rd1 0x01 0x10) ∧ decode 0x2001BD03 = .ok (.rdb 0x01 0xBD 0x03) ∧
  decode 0x30030180 = .ok (.wr1 0x03 0x01 0x80) ∧ decode 0x40012004 = .ok (.wrb 0x01 0x20 0x04) ∧
  decode 0x50FEC500 = .ok (.wrd 0xFE 0xC5) ∧ decode 0x80000000 = .ok .reset ∧
  decode 0x90000080 = .ok (.bright 0x80) ∧ decode 0xA0030F00 = .ok (.set 0x03 0x0F) ∧
  decode 0xB0000000 = .ok (.setall 0x00) ∧ decode 0xC0020503 = .ok (.abmset 0x02 0x05 0x03) ∧
  decode 0xD0000000 = .ok .chktrig ∧ decode 0xE0000000 = .ok .check

/-- A command word with a reserved `OP` completes at once with `PROTOCOL_ERROR`: no bus call, and no other change (R95). -/
def Obligations.ReservedOpCompletesWithProtocolError : Prop :=
  ∀ (s : State) (w : Word), configOk s.cfg = true → s.live = true → s.host = [] → s.seq = .busy w 0 .run →
    (fieldOp w = 0x0 ∨ fieldOp w = 0x6 ∨ fieldOp w = 0x7 ∨ fieldOp w = 0xF) →
    step s = .next { s with result := .protocolError, seq := .idle }

/-- A command word with a nonzero `RSV` or a nonzero field that R92 marks `0` completes at once with `PROTOCOL_ERROR`, with no
bus call and no other change (R96). -/
def Obligations.NonzeroFixedFieldCompletesWithProtocolError : Prop :=
  ∀ (s : State) (w : Word), configOk s.cfg = true → s.live = true → s.host = [] → s.seq = .busy w 0 .run →
    BreaksFixedField w → step s = .next { s with result := .protocolError, seq := .idle }

/-- The admission check is R97's, and a command that fails it completes at once with `PROTOCOL_ERROR`, with no bus call and no
change to the shadow or `DBUF` (R97). -/
def Obligations.AdmissionFollowsRule : Prop :=
  ∀ (s : State) (i : Instr), configOk s.cfg = true →
    (i.wellFormed s.cfg = true ↔ AdmitRule s.cfg i) ∧
    ∀ (w : Word) (pos : Nat) (ph : Phase), s.seq = .busy w pos ph → ¬ AdmitRule s.cfg i →
      exec i s = .next { s with result := .protocolError, seq := .idle }

/-! The step. -/

/-- When the word in flight decodes to a command, the step of the machine is that command's meaning, if no host access is due
(R22, R94). With a host access pending after `g + 1` steps, the meaning runs with that access one step nearer (the model's own
schedule, log 3). -/
def Obligations.StepRunsDecodedInstruction : Prop :=
  ∀ (s : State) (w : Word) (pos : Nat) (ph : Phase) (i : Instr),
    configOk s.cfg = true → s.live = true → s.seq = .busy w pos ph → decode w = .ok i →
    (s.host = [] → step s = exec i s) ∧
    ∀ (g : Nat) (x : HostAccess) (rest : List HostEvent), s.host = ⟨g + 1, x⟩ :: rest →
      step s = exec i { s with host := ⟨g, x⟩ :: rest }

/-- `withFetchWord` issues the word of a command, so that the next step is the first step of that command (R24, log 12). -/
def Obligations.FetchedWordRuns : Prop :=
  ∀ (s : State) (i : Instr), configOk s.cfg = true →
    decodeTableWord 32 (encode i).toNat = some i →
    step (s.withFetchWord 32 (encode i).toNat)
      = exec i { s with live := true, host := [], seq := .busy (encode i) 0 .run }

/-- `WAIT` as the model makes it (R101 says only that it polls `STATUS` until `BUSY = 0`; that a `WAIT` lets the block take its turn,
stays pending meanwhile and records the last poll alone is the model's choice, log 3). While a command runs, the step is the command's;
an illegal word completes with `PROTOCOL_ERROR`; in `Idle` the host has read `STATUS` once and goes on. An illegal word also completes
so with any other access pending after `g + 1` steps. -/
def Obligations.WaitPollsStatusUntilIdle : Prop :=
  ∀ s : State, configOk s.cfg = true → s.live = true →
    (∀ rest, s.host = ⟨0, .wait⟩ :: rest →
      (∀ (w : Word) (pos : Nat) (ph : Phase) (i : Instr), s.seq = .busy w pos ph → decode w = .ok i →
        step s = exec i s) ∧
      (∀ (w : Word) (pos : Nat) (ph : Phase) (e : DecodeError), s.seq = .busy w pos ph → decode w = .error e →
        step s = .next (endsWith .protocolError s)) ∧
      (s.seq = .idle →
        step s = .next { s with host := rest, reads := s.reads ++ [⟨0x004, 4, statusWord s⟩] })) ∧
    ∀ (g : Nat) (x : HostAccess) (rest : List HostEvent) (w : Word) (pos : Nat) (ph : Phase) (e : DecodeError),
      s.host = ⟨g + 1, x⟩ :: rest → s.seq = .busy w pos ph → decode w = .error e →
      step s = .next (endsWith .protocolError { s with host := ⟨g, x⟩ :: rest })

/-- Whether the machine has a next step never depends on the oracle; and after a block reset, under a configuration that keeps
R10, at a position a run reaches and with no host access due, be it that none is pending or that the next one lands after `g + 1` steps,
the block always has one (R81). In `Idle` that step changes nothing, but that a pending access comes one step nearer (R71, R208; that
waiting is a step at all, and that it counts, is the model's choice, log 3). -/
def Obligations.NextStepIndependentOfOracle : Prop :=
  (∀ (s : State) (as : List BusAnswer),
    (∃ t, step s = .next t) ↔ (∃ t, step { s with answers := as } = .next t)) ∧
  ∀ s : State, configOk s.cfg = true → s.live = true → PositionOk s →
    (s.host = [] → (∃ t, step s = .next t) ∧ (s.seq = .idle → step s = .next s)) ∧
    ∀ (g : Nat) (x : HostAccess) (rest : List HostEvent), s.host = ⟨g + 1, x⟩ :: rest →
      (∃ t, step s = .next t) ∧ (s.seq = .idle → step s = .next { s with host := ⟨g, x⟩ :: rest })

/-! Invariants. -/

/-- No step faults: no admitted command reaches a shadow access outside its domain (R140, 93 U21). `PositionOk` rules out positions
past the check of a cell that is out of range, which no run reaches; every step keeps it (`StepKeepsPositionBounded`). -/
def Obligations.StepNeverFaults : Prop := ∀ (s : State) (f : Fault), PositionOk s → step s ≠ .fault f

/-- Every step keeps the bytes of `DBUF` and the shadow in canonical form, with no other address listed (R26, R27, R38). -/
def Obligations.StepKeepsMemoryCanonical : Prop :=
  ∀ s t : State, MemoryOk s → step s = .next t → MemoryOk t

/-- Every step keeps `pos` within the call count of the command in flight, and the cells whose checks it has made in range (R22,
R126, R149, R169). -/
def Obligations.StepKeepsPositionBounded : Prop :=
  ∀ s t : State, PositionOk s → step s = .next t → PositionOk t

/-- Every step but a block reset keeps the bus closed in `Idle`: the block never leaves a transaction open at completion,
whether the command succeeded or failed (R196). A block reset may abandon an open transaction (R220). -/
def Obligations.StepKeepsTransactionsClosed : Prop :=
  ∀ s t : State, TransactionOk s → blockResetDue s = false → step s = .next t → TransactionOk t

/-- `State.reset` meets the three invariants (its empty trace is the model's choice, log 2). A block reset in any state answers a
state that meets the first two, and the third exactly when no transaction was left open: a reset that abandons a command keeps the
abandoned calls in the trace (R220; the trace that is kept is the model's reading, log 9). -/
def Obligations.ResetMeetsInvariants : Prop :=
  (MemoryOk State.reset ∧ PositionOk State.reset ∧ TransactionOk State.reset) ∧
  ∀ (s : State) (rest : List HostEvent), configOk s.cfg = true → s.host = ⟨0, .blockReset⟩ :: rest →
    ∃ t, step s = .next t ∧ MemoryOk t ∧ PositionOk t ∧ (TransactionOk t ↔ traceOpen s.trace = false)

/-- Every issued command whose word decodes is in `Idle` again after at most one step more than its call count, whatever the bus answers,
and every illegal word after one step (R232; the steps after a failed call and the one step of an illegal word are counted as log 4 reads
them). It rests on every bus call answering: a call that never returns is not in the model (log 11). -/
def Obligations.EveryCommandCompletes : Prop :=
  ∀ (s : State) (w : Word), configOk s.cfg = true → s.live = true → s.host = [] → s.seq = .busy w 0 .run →
    (∀ i, decode w = .ok i →
      ∃ (n : Nat) (t : State), n ≤ callCount i + 1 ∧ core.run n s = .next t ∧ t.seq = .idle) ∧
    (∀ e, decode w = .error e → ∃ t, core.run 1 s = .next t ∧ t.seq = .idle)

/-! Reset, the host port and refusals. -/

/-- Block reset at any time: one step, no bus call, and every element as R220 says. -/
def Obligations.BlockResetSetsEveryElement : Prop :=
  ∀ (s : State) (rest : List HostEvent), configOk s.cfg = true → s.host = ⟨0, .blockReset⟩ :: rest →
    ∃ t, step s = .next t ∧ t.sdb = true ∧
      (∀ a, isShadowAddr a = true → t.mem.read a = 0) ∧
      devaddrWord t = (0 : BitVec 24) ++ s.cfg.initAddr7 ++ (0 : BitVec 1) ∧
      (∀ i, i < 0xC0 → t.dbuf i = 0) ∧ statusWord t = 0 ∧ t.seq = .idle ∧ t.trace = s.trace

/-- Until the first block reset every access of the host port, every `WAIT` and every step of the block is refused, also with an
access pending after `g + 1` steps (R40, R201). A block reset is not, and a `DELAY` is not either: it is no access of the block, and
that it passes is the model's choice (log 8). -/
def Obligations.RefusedBeforeFirstBlockReset : Prop :=
  ∀ (s : State), configOk s.cfg = true → s.live = false →
    (s.host = [] → step s = .refused .beforeBlockReset) ∧
    (∀ g x rest, s.host = ⟨g + 1, x⟩ :: rest → step s = .refused .beforeBlockReset) ∧
    (∀ a n rest, s.host = ⟨0, .memRead a n⟩ :: rest → step s = .refused .beforeBlockReset) ∧
    (∀ a n v rest, s.host = ⟨0, .memWrite a n v⟩ :: rest → step s = .refused .beforeBlockReset) ∧
    (∀ rest, s.host = ⟨0, .wait⟩ :: rest → step s = .refused .beforeBlockReset) ∧
    (∀ t rest, s.host = ⟨0, .delay t⟩ :: rest → step s = .next { s with host := rest }) ∧
    (∀ rest, s.host = ⟨0, .blockReset⟩ :: rest → ∃ t, step s = .next t ∧ t.live = true)

/-- A configuration that breaks a constraint of R10 is refused at every step (R10, R201). -/
def Obligations.BadConfigurationRefused : Prop :=
  ∀ s : State,
    (¬ [s.cfg.pOnoff, s.cfg.pPwm, s.cfg.pAbm, s.cfg.pFunc].Nodup ∨ s.cfg.regCmd = s.cfg.regLock ∨
      ¬ [s.cfg.fConfig, s.cfg.fGcc, s.cfg.fSwpu, s.cfg.fCspd, s.cfg.fReset].Nodup ∨
      (∃ f ∈ [s.cfg.fConfig, s.cfg.fGcc, s.cfg.fSwpu, s.cfg.fCspd, s.cfg.fReset], 0x12 ≤ f.toNat) ∨
      7 < s.cfg.cfgOsdBit) →
    step s = .refused .badConfig

/-- `STATUS`: bit 0 is `BUSY`, bits 3:1 are `RESULT`, the others read 0; it can be read at any time (R80), and host writes to it are
ignored (R23). That such a write is ignored also while `BUSY = 1` is the model's reading (log 7, DEDUCED). -/
def Obligations.StatusRegisterReads : Prop :=
  ∀ s : State,
    (statusWord s).getLsbD 0 = s.busy ∧ (statusWord s).extractLsb' 1 3 = s.result.code ∧
      (statusWord s).extractLsb' 4 28 = 0 ∧ memRead 0x004 4 s = .next (giveBack 0x004 4 (statusWord s) s) ∧
      (s.busy = true ↔ ∃ w pos ph, s.seq = .busy w pos ph) ∧ ∀ v, memWrite 0x004 4 v s = .next s

/-- `DEVADDR`: bits 7:1 are the device address, bit 0 and bits 31:8 read 0; reading it changes nothing but what the host got (at any time,
R80), and host writes to it are ignored (R25, R38). That such a write is ignored also while `BUSY = 1` is the model's reading (log 7,
DEDUCED). -/
def Obligations.DeviceAddressReads : Prop :=
  ∀ s : State,
    (devaddrWord s).getLsbD 0 = false ∧ (devaddrWord s).extractLsb' 1 7 = s.addr7 ∧
      (devaddrWord s).extractLsb' 8 24 = 0 ∧ memRead 0x008 4 s = .next (giveBack 0x008 4 (devaddrWord s) s) ∧
      ∀ v, memWrite 0x008 4 v s = .next s

/-- A host write of `CMD` while `Idle` issues the command and sets `BUSY`, and a host read of it returns 0; while `Busy` the write is
refused (R24; the read while `Busy` is in `BusyAccessRefused`). After the first block reset a host read or write that is due is what the
step does, with the accesses after it left pending, and a `DELAY` that is due does nothing else (R80, R101; that an access takes a step of
its own, and that a `DELAY` passes no time, is the model's choice, log 3). -/
def Obligations.CommandWriteIssues : Prop :=
  (∀ (s : State) (w : Word),
    (s.seq = .idle → ∃ t, memWrite 0x000 4 w s = .next t ∧ t = { s with seq := .busy w 0 .run } ∧
      (statusWord t).getLsbD 0 = true) ∧
    (∀ w' pos ph, s.seq = .busy w' pos ph → memWrite 0x000 4 w s = .refused .hostDuty) ∧
    (s.seq = .idle → memRead 0x000 4 s = .next (giveBack 0x000 4 0 s))) ∧
  ∀ s : State, configOk s.cfg = true → s.live = true →
    (∀ a n rest, s.host = ⟨0, .memRead a n⟩ :: rest → step s = memRead a n { s with host := rest }) ∧
    (∀ a n v rest, s.host = ⟨0, .memWrite a n v⟩ :: rest → step s = memWrite a n v { s with host := rest }) ∧
    (∀ t rest, s.host = ⟨0, .delay t⟩ :: rest → step s = .next { s with host := rest })

/-- While `Idle` a host read of `DBUF[i]` returns that byte, and a host write of it changes that byte and no other, so that reading it
back returns what was written (R26, R38). -/
def Obligations.BufferReadAfterWrite : Prop :=
  ∀ (s : State) (i : Nat) (v : Word), i < 0xC0 → s.seq = .idle →
    memRead (BitVec.ofNat 12 (0x100 + i)) 1 s
      = .next (giveBack (BitVec.ofNat 12 (0x100 + i)) 1 ((s.dbuf i).zeroExtend 32) s) ∧
    ∃ t, memWrite (BitVec.ofNat 12 (0x100 + i)) 1 v s = .next t ∧ t.dbuf i = v.extractLsb' 0 8 ∧
      (∀ a, a ≠ 0x100 + i → t.mem.read a = s.mem.read a) ∧ t = { s with mem := t.mem } ∧
      memRead (BitVec.ofNat 12 (0x100 + i)) 1 t
        = .next (giveBack (BitVec.ofNat 12 (0x100 + i)) 1 ((v.extractLsb' 0 8).zeroExtend 32) t)

/-- While `Idle` the host reads every byte of the shadow window, `intmask` included, and its writes there are ignored; the windows
stand where R38 maps them. While `Busy` both are refused (`BusyAccessRefused`). -/
def Obligations.ShadowWindowReadOnly : Prop :=
  ∀ s : State, s.seq = .idle →
    (∀ (a : HostAddr) (v : Word), isShadowAddr a.toNat = true → memWrite a 1 v s = .next s ∧
      memRead a 1 s = .next (giveBack a 1 ((s.mem.read a.toNat).zeroExtend 32) s)) ∧
    (∀ o, o < 0x48 → memRead (BitVec.ofNat 12 (0x400 + o)) 1 s
      = .next (giveBack (BitVec.ofNat 12 (0x400 + o)) 1 ((s.onoff o).zeroExtend 32) s)) ∧
    (∀ o, o < 0xC0 → memRead (BitVec.ofNat 12 (0x500 + o)) 1 s
      = .next (giveBack (BitVec.ofNat 12 (0x500 + o)) 1 ((s.pwm o).zeroExtend 32) s)) ∧
    (∀ o, o < 0xC0 → memRead (BitVec.ofNat 12 (0x600 + o)) 1 s
      = .next (giveBack (BitVec.ofNat 12 (0x600 + o)) 1 ((s.abm o).zeroExtend 32) s)) ∧
    (∀ f, f < 0x12 → memRead (BitVec.ofNat 12 (0x700 + f)) 1 s
      = .next (giveBack (BitVec.ofNat 12 (0x700 + f)) 1 ((s.func f).zeroExtend 32) s)) ∧
    memRead 0x800 1 s = .next (giveBack 0x800 1 (s.intmask.zeroExtend 32) s)

/-- A host read of an address that R38 does not map returns 0 and a host write there is ignored (R39). The statement takes in two cases
that are the model's own: an access of any width that covers no mapped byte (log 6, DESIGN CHOICE; the accesses that do cover one are
refused), and an access while `BUSY = 1` (log 7, DEDUCED). -/
def Obligations.UnmappedAccessHasNoEffect : Prop :=
  ∀ (s : State) (a : HostAddr) (n : Nat) (v : Word),
    (∀ k, k < max n 1 → 0x00C ≤ a.toNat + k ∧ isDbufAddr (a.toNat + k) = false ∧ isShadowAddr (a.toNat + k) = false) →
    memRead a n s = .next (giveBack a n 0 s) ∧ memWrite a n v s = .next s

/-- The registers are accessed only as whole 32-bit words, and a byte of `DBUF` or of the shadow window only with width 1; any
other access to them is refused (R65). -/
def Obligations.WrongWidthRefused : Prop :=
  ∀ (s : State) (a : HostAddr) (n : Nat) (v : Word),
    (a.toNat < 0x00C ∧ ¬ (n = 4 ∧ (a = 0x000 ∨ a = 0x004 ∨ a = 0x008))) ∨
      ((isDbufAddr a.toNat = true ∨ isShadowAddr a.toNat = true) ∧ n ≠ 1) →
    memRead a n s = .refused .wrongWidth ∧ memWrite a n v s = .refused .wrongWidth

/-- While `BUSY = 1` a host write of `CMD` or `DBUF` and a host read of `DBUF` or the shadow window are refused (R225); so are a read of
`CMD` and a write of the shadow window (93 U15). -/
def Obligations.BusyAccessRefused : Prop :=
  ∀ (s : State) (w : Word) (pos : Nat) (ph : Phase), s.seq = .busy w pos ph →
    (∀ v, memWrite 0x000 4 v s = .refused .hostDuty) ∧ memRead 0x000 4 s = .refused .hostDuty ∧
    ∀ a : HostAddr, isDbufAddr a.toNat = true ∨ isShadowAddr a.toNat = true →
      memRead a 1 s = .refused .hostDuty ∧ ∀ v, memWrite a 1 v s = .refused .hostDuty

/-! Frames: what a step of a command leaves unchanged. -/

/-- No step of a command changes `DEVADDR`, `SDB` or the configuration, and no step of `RESET` changes a byte of `DBUF` (R223). -/
def Obligations.CommandsKeepDeviceAddressAndOutput : Prop :=
  ∀ (i : Instr) (s t : State), exec i s = .next t →
    KeepsRest s t ∧ (i = .reset → ∀ k, k < 0xC0 → t.dbuf k = s.dbuf k)

/-- A step of `RD1`, `RDB` or `CHECK` leaves every byte unchanged but its shadow targets and, for `RD1` and `RDB`, the `DBUF`
bytes it receives into (R121, R122, R168). -/
def Obligations.ReadCommandsFrame : Prop :=
  ∀ (i : Instr) (s t : State),
    (i.mnemonic = .rd1 ∨ i.mnemonic = .rdb ∨ i.mnemonic = .check) → exec i s = .next t →
    ∀ a, ¬ StoresTo s.cfg a i → t.mem.read a = s.mem.read a

/-- A step of `WR1`, `WRB`, `WRD`, `BRIGHT` or `CHKTRIG` leaves every byte unchanged but its shadow targets; of `WRD`, every byte
(R123, R124, R125, R163, R167). -/
def Obligations.WriteCommandsFrame : Prop :=
  ∀ (i : Instr) (s t : State),
    (i.mnemonic = .wr1 ∨ i.mnemonic = .wrb ∨ i.mnemonic = .wrd ∨ i.mnemonic = .bright ∨ i.mnemonic = .chktrig) →
    exec i s = .next t → ∀ a, ¬ StoresTo s.cfg a i → t.mem.read a = s.mem.read a

/-- A step of `SET`, `SETALL` or `ABMSET` leaves every byte unchanged but the three bytes of each of its cells (R161). -/
def Obligations.CellCommandsFrame : Prop :=
  ∀ (i : Instr) (s t : State),
    (i.mnemonic = .set ∨ i.mnemonic = .setall ∨ i.mnemonic = .abmset) → exec i s = .next t →
    ∀ a, ¬ StoresTo s.cfg a i → t.mem.read a = s.mem.read a

/-- `Shadow.intmask` changes in no step of a command but the clear of `RESET`, which makes it 0 (R33); that the clear falls in the step
of the first call is the model's choice (log 5). -/
def Obligations.IntmaskClearedOnlyByReset : Prop :=
  ∀ (i : Instr) (s t : State), exec i s = .next t →
    t.intmask = s.intmask ∨ (i = .reset ∧ (∃ w, s.seq = .busy w 0 .run) ∧ t.intmask = 0)

/-- `RESULT` changes only in the step that ends a command, and it keeps its value while the command runs (R23, R191). -/
def Obligations.ResultChangesOnlyAtCompletion : Prop :=
  ∀ (i : Instr) (s t : State), exec i s = .next t →
    (t.seq ≠ .idle → t.result = s.result) ∧
    (t.seq = .idle → t.mem = s.mem ∧ t.trace = s.trace ∧ t = { s with result := t.result, seq := .idle })

/-! Completion: every command answers a next state at every position. -/

/-- Every admitted command in flight, at each position before its call count, makes one bus call or fails a cell check, and at its call
count completes with `OK`. One call joins the trace; after an `ok` the command goes on at the next position, after an `error` it owes a
`BusStop` (R22, R67, R113, R126, R169, R191). That the owed `BusStop` is a step of its own, and that a cell check is made in the step of a
`BusStart`, is the model's reading (logs 4 and 5). -/
def Obligations.EveryPositionAnswersNext : Prop :=
  ∀ (i : Instr) (s : State) (w : Word) (pos : Nat),
    configOk s.cfg = true → i.wellFormed s.cfg = true → s.seq = .busy w pos .run → PassedCellsInRange s.cfg i pos →
    (pos < callCount i →
      (∃ t e, exec i s = .next t ∧ t.trace = s.trace ++ [e] ∧ t.result = s.result ∧ KeepsRest s t ∧
        t.seq = .busy w (pos + 1) (if e.failed then .stopOwed else .run)) ∨
      (exec i s = .next { s with result := .addressingError, seq := .idle } ∧
        (i.mnemonic = .set ∨ i.mnemonic = .setall ∨ i.mnemonic = .abmset))) ∧
    (pos = callCount i → exec i s = .next { s with result := .ok, seq := .idle })

/-- When every call returns `ok` and every cell a command writes is enabled, the command ends with `OK` after the calls and
transactions of R126 and R169. -/
def Obligations.SuccessfulCommandCounts : Prop :=
  ∀ (i : Instr) (s : State) (w : Word),
    configOk s.cfg = true → i.wellFormed s.cfg = true → CellsEnabled s i → s.seq = .busy w 0 .run →
    (∀ a ∈ s.answers, a.ok = true) → callCount i ≤ s.answers.length →
    ∃ t tr, execTimes (callCount i + 1) i s = .next t ∧ t.seq = .idle ∧ t.result = .ok ∧ t.trace = s.trace ++ tr ∧
      tr.length = callCount i ∧ tr.countP BusEvent.isStart = transactionCount i

/-! Failure. -/

/-- A bus call that returns `error` is followed by exactly one `BusStop` and no further call, and the command ends with `BUS_ERROR` (R113,
R192, R196). That these are three steps is the model's reading (log 4), and so is the memory clause: nothing is committed in those steps
but the clear of `RESET`, which the model makes in the step of its first call (log 5). -/
def Obligations.FailedCallEndsInOneStop : Prop :=
  ∀ (i : Instr) (s : State) (w : Word) (pos : Nat),
    configOk s.cfg = true → i.wellFormed s.cfg = true → s.seq = .busy w pos .run → (nextAnswer s).ok = false →
    (∀ row col d, (opsOf s.cfg i)[pos]? = some (.start d (.cell row col)) → cellCheck s row col = true) →
    (∃ op, (opsOf s.cfg i)[pos]? = some op ∧ ∀ post, op ≠ .stop post) →
    ∃ t e, execTimes 3 i s = .next t ∧ e.failed = true ∧ t.trace = s.trace ++ [e, .stop] ∧
      t.seq = .idle ∧ t.result = .busError ∧ KeepsRest s t ∧
      (t.mem = s.mem ∨ (i = .reset ∧ pos = 0 ∧ t.mem = s.mem.clearShadow))

/-- A write access that fails commits nothing, and the accesses before it stay (R141, R161, R198). A `WR1`, `WRB` or `BRIGHT` that does
not end with `OK` changes no byte, whichever call failed. A `SET`, `SETALL`, `ABMSET` or `CHKTRIG` whose write access `j` fails, in the
call with status `r` of its nine, ends with `BUS_ERROR` and exactly the writes before `j`; a `SETALL` whose position `q` is disabled or
out of range ends with `ADDRESSING_ERROR` and exactly the writes of the positions before `q`. The numbers of steps rest on logs 4 and 5. -/
def Obligations.FailedWriteCommitsNothing : Prop :=
  (∀ (i : Instr) (s t : State) (w : Word) (n : Nat),
    (i.mnemonic = .wr1 ∨ i.mnemonic = .wrb ∨ i.mnemonic = .bright) →
    s.seq = .busy w 0 .run → execTimes n i s = .next t → t.seq = .idle → t.result ≠ .ok → t.mem = s.mem) ∧
  (∀ (i : Instr) (s : State) (w : Word) (j r : Nat) (as rest : List BusAnswer) (bad : BusAnswer),
    configOk s.cfg = true → i.wellFormed s.cfg = true → j < (singleWrites s i).length → r < 9 →
    (∀ p ∈ (cellsOf s.cfg i).take (j / 3 + 1), CellEnabled s p.1.toNat p.2.toNat) →
    s.seq = .busy w 0 .run → s.answers = as ++ bad :: rest → as.length = 9 * j + r → (∀ a ∈ as, a.ok = true) →
    bad.ok = false →
    ∃ t, execTimes (12 * j + r + r / 3 + 3) i s = .next t ∧ t.seq = .idle ∧ t.result = .busError ∧
      t.mem = writeAll s.mem ((singleWrites s i).take j) ∧ t.answers = rest ∧ KeepsRest s t) ∧
  ∀ (s : State) (w : Word) (half : Byte) (q : Nat) (p : Byte × Byte) (as rest : List BusAnswer),
    configOk s.cfg = true → (half = 0 ∨ half = 1) → (halfPos s.cfg half)[q]? = some p →
    ¬ CellEnabled s p.1.toNat p.2.toNat →
    (∀ p' ∈ (halfPos s.cfg half).take q, CellEnabled s p'.1.toNat p'.2.toNat) →
    s.seq = .busy w 0 .run → s.answers = as ++ rest → as.length = 27 * q → (∀ a ∈ as, a.ok = true) →
    ∃ t, execTimes (36 * q + 1) (.setall half) s = .next t ∧ t.seq = .idle ∧ t.result = .addressingError ∧
      t.mem = writeAll s.mem ((singleWrites s (.setall half)).take (3 * q)) ∧ t.answers = rest ∧ KeepsRest s t

/-- A read that fails ends with `BUS_ERROR` and keeps exactly the bytes whose read pairs were complete (R118, R142, R168). An `RDB` whose
read pair of byte `k` fails, in the call with status `r` of its four: bytes `0 .. k-1` are in the shadow and in `DBUF`. A `CHECK` whose
read pair of byte `k` of zone `z` fails (0 is the open zone, 1 the short zone), or whose page select of zone `z` fails in the call with
status `r` of its six: the bytes of `onoff` before it are in the shadow. An `RD1` that fails in any call, and an `RDB` that fails in its
page select, change no byte. Every other byte keeps its value. The numbers of steps rest on log 4. -/
def Obligations.FailedBurstReadKeepsEarlierBytes : Prop :=
  (∀ (s : State) (w : Word) (page offset size : Byte) (p : Page) (k r : Nat) (as rest : List BusAnswer) (bad : BusAnswer),
    pageOf s.cfg page = some p → offset.toNat + size.toNat ≤ p.ext → k < size.toNat → r < 4 →
    s.seq = .busy w 0 .run → s.answers = as ++ bad :: rest → as.length = 6 + 4 * k + r → (∀ a ∈ as, a.ok = true) →
    bad.ok = false →
    ∃ t, execTimes (8 + 6 * k + r + r / 2 + 3) (.rdb page offset size) s = .next t ∧ t.seq = .idle ∧ t.result = .busError ∧
      (∀ j, j < k → t.mem.read (p.base + (offset.toNat + j)) = answerByte as (9 + 4 * j) ∧
        t.dbuf j = answerByte as (9 + 4 * j)) ∧
      (∀ a, (∀ j, j < k → a ≠ p.base + (offset.toNat + j) ∧ a ≠ 0x100 + j) → t.mem.read a = s.mem.read a) ∧
      t.trace = s.trace ++ selectTrace s page
        ++ (List.range k).flatMap (fun j => readTrace s (offset.toNat + j) (answerByte as (9 + 4 * j)))
        ++ failedReadTrace s (offset.toNat + k) r ∧
      t.answers = rest ∧ KeepsRest s t) ∧
  (∀ (s : State) (w : Word) (z k r : Nat) (as rest : List BusAnswer) (bad : BusAnswer), configOk s.cfg = true →
    z < 2 → k < 0x18 → r < 4 →
    s.seq = .busy w 0 .run → s.answers = as ++ bad :: rest → as.length = 102 * z + 6 + 4 * k + r → (∀ a ∈ as, a.ok = true) →
    bad.ok = false →
    ∃ t, execTimes (152 * z + 8 + 6 * k + r + r / 2 + 3) .check s = .next t ∧ t.seq = .idle ∧ t.result = .busError ∧
      (∀ j, j < 0x18 * z + k → t.onoff (0x18 + j) = checkByte as j) ∧
      (∀ a, (∀ j, j < 0x18 * z + k → a ≠ 0x418 + j) → t.mem.read a = s.mem.read a) ∧
      t.trace = s.trace
        ++ (List.range z).flatMap (fun _ => selectTrace s s.cfg.pOnoff
          ++ (List.range 0x18).flatMap (fun j => readTrace s (0x18 + j) (checkByte as j)))
        ++ selectTrace s s.cfg.pOnoff
        ++ (List.range k).flatMap (fun j => readTrace s (0x18 + (0x18 * z + j)) (checkByte as (0x18 * z + j)))
        ++ failedReadTrace s (0x18 + (0x18 * z + k)) r ∧
      t.answers = rest ∧ KeepsRest s t) ∧
  (∀ (s : State) (w : Word) (z r : Nat) (as rest : List BusAnswer) (bad : BusAnswer), configOk s.cfg = true →
    z < 2 → r < 6 →
    s.seq = .busy w 0 .run → s.answers = as ++ bad :: rest → as.length = 102 * z + r → (∀ a ∈ as, a.ok = true) →
    bad.ok = false →
    ∃ t, execTimes (152 * z + r + r / 3 + 3) .check s = .next t ∧ t.seq = .idle ∧ t.result = .busError ∧
      (∀ j, j < 0x18 * z → t.onoff (0x18 + j) = checkByte as j) ∧
      (∀ a, (∀ j, j < 0x18 * z → a ≠ 0x418 + j) → t.mem.read a = s.mem.read a) ∧
      t.answers = rest ∧ KeepsRest s t) ∧
  ∀ (i : Instr) (s : State) (w : Word) (n : Nat) (as rest : List BusAnswer) (bad : BusAnswer),
    i.wellFormed s.cfg = true → (i.mnemonic = .rd1 ∧ n < 10) ∨ (i.mnemonic = .rdb ∧ n < 6) →
    s.seq = .busy w 0 .run → s.answers = as ++ bad :: rest → as.length = n → (∀ a ∈ as, a.ok = true) → bad.ok = false →
    ∃ (steps : Nat) (t : State), execTimes steps i s = .next t ∧ t.seq = .idle ∧ t.result = .busError ∧
      t.mem = s.mem ∧ t.answers = rest ∧ KeepsRest s t

/-! The commands, when every call returns `ok`. -/

/-- `RD1` (R121): the trace of a page select and one read pair; the byte received stands in the shadow and in `DBUF[0]`; nothing
else changes. -/
def Obligations.Rd1ReadsOneByte : Prop :=
  ∀ (s : State) (w : Word) (page offset : Byte) (p : Page) (as rest : List BusAnswer),
    pageOf s.cfg page = some p → offset.toNat < p.ext →
    s.seq = .busy w 0 .run → s.answers = as ++ rest → as.length = 10 → (∀ a ∈ as, a.ok = true) →
    ∃ t, execTimes 15 (.rd1 page offset) s = .next t ∧ t.seq = .idle ∧ t.result = .ok ∧
      t.mem.read (p.base + offset.toNat) = answerByte as 9 ∧ t.dbuf 0 = answerByte as 9 ∧
      (∀ a, a ≠ p.base + offset.toNat → a ≠ 0x100 → t.mem.read a = s.mem.read a) ∧
      t.trace = s.trace ++ selectTrace s page ++ readTrace s offset.toNat (answerByte as 9) ∧
      t.answers = rest ∧ KeepsRest s t

/-- `RDB` (R122): one page select, then a read pair for each byte; the bytes received stand in the shadow and in `DBUF`. -/
def Obligations.RdbReadsBurst : Prop :=
  ∀ (s : State) (w : Word) (page offset size : Byte) (p : Page) (as rest : List BusAnswer),
    pageOf s.cfg page = some p → offset.toNat < p.ext → offset.toNat + size.toNat ≤ p.ext →
    s.seq = .busy w 0 .run → s.answers = as ++ rest → as.length = 6 + 4 * size.toNat → (∀ a ∈ as, a.ok = true) →
    ∃ t, execTimes (8 + 6 * size.toNat + 1) (.rdb page offset size) s = .next t ∧ t.seq = .idle ∧ t.result = .ok ∧
      (∀ k, k < size.toNat → t.mem.read (p.base + (offset.toNat + k)) = answerByte as (9 + 4 * k) ∧
        t.dbuf k = answerByte as (9 + 4 * k)) ∧
      (∀ a, (∀ k, k < size.toNat → a ≠ p.base + (offset.toNat + k) ∧ a ≠ 0x100 + k) →
        t.mem.read a = s.mem.read a) ∧
      t.trace = s.trace ++ selectTrace s page
        ++ (List.range size.toNat).flatMap (fun k => readTrace s (offset.toNat + k) (answerByte as (9 + 4 * k))) ∧
      t.answers = rest ∧ KeepsRest s t

/-- `WR1` (R123): page select and one write transaction; the shadow byte is the byte written; nothing else changes. -/
def Obligations.Wr1WritesOneByte : Prop :=
  ∀ (s : State) (w : Word) (page offset data : Byte) (p : Page) (as rest : List BusAnswer),
    pageOf s.cfg page = some p → offset.toNat < p.ext → WritableAt s.cfg page offset.toNat →
    s.seq = .busy w 0 .run → s.answers = as ++ rest → as.length = 9 → (∀ a ∈ as, a.ok = true) →
    ∃ t, execTimes 13 (.wr1 page offset data) s = .next t ∧ t.seq = .idle ∧ t.result = .ok ∧
      t.mem.read (p.base + offset.toNat) = data ∧
      (∀ a, a ≠ p.base + offset.toNat → t.mem.read a = s.mem.read a) ∧
      t.trace = s.trace ++ writeOneTrace s page offset.toNat data ∧ t.answers = rest ∧ KeepsRest s t

/-- `WRB` (R124): one page select and one transaction with the offset and `SIZE` bytes of `DBUF`; the shadow bytes are the bytes
written; nothing else changes. -/
def Obligations.WrbWritesBurst : Prop :=
  ∀ (s : State) (w : Word) (page offset size : Byte) (p : Page) (as rest : List BusAnswer),
    AdmitRule s.cfg (.wrb page offset size) → pageOf s.cfg page = some p → offset.toNat < p.ext →
    offset.toNat + size.toNat ≤ p.ext →
    s.seq = .busy w 0 .run → s.answers = as ++ rest → as.length = 8 + size.toNat → (∀ a ∈ as, a.ok = true) →
    ∃ t, execTimes (11 + size.toNat + 1) (.wrb page offset size) s = .next t ∧ t.seq = .idle ∧ t.result = .ok ∧
      (∀ k, k < size.toNat → t.mem.read (p.base + (offset.toNat + k)) = s.dbuf k) ∧
      (∀ a, (∀ k, k < size.toNat → a ≠ p.base + (offset.toNat + k)) → t.mem.read a = s.mem.read a) ∧
      t.trace = s.trace ++ selectTrace s page
        ++ writeTrace s offset.toNat ((List.range size.toNat).map s.dbuf) ∧
      t.answers = rest ∧ KeepsRest s t

/-- `WRD` (R125): one write transaction with the register and the value; no shadow or `DBUF` byte changes. -/
def Obligations.WrdWritesDirectRegister : Prop :=
  ∀ (s : State) (w : Word) (reg value : Byte) (as rest : List BusAnswer),
    (reg = s.cfg.regLock ∨ reg = s.cfg.regCmd) →
    s.seq = .busy w 0 .run → s.answers = as ++ rest → as.length = 3 → (∀ a ∈ as, a.ok = true) →
    execTimes 5 (.wrd reg value) s = .next { s with
      seq := .idle, result := .ok, answers := rest,
      trace := s.trace ++ [.start (addrByte s .write) 10 true, .send reg true, .send value true, .stop] }

/-- `RESET` (R162, R221): the 300 calls of steps 2 to 8, and the state of R221's second column; `DBUF` keeps its bytes. -/
def Obligations.ResetReinitialises : Prop :=
  ∀ (s : State) (w : Word) (as rest : List BusAnswer), configOk s.cfg = true →
    s.seq = .busy w 0 .run → s.answers = as ++ rest → as.length = 278 → (∀ a ∈ as, a.ok = true) →
    ∃ t, execTimes 301 .reset s = .next t ∧ t.seq = .idle ∧ t.result = .ok ∧
      (∀ k (h : k < 0x18), t.onoff k = s.cfg.onoffMask[k]) ∧ (∀ k, 0x18 ≤ k → k < 0x48 → t.onoff k = 0) ∧
      (∀ k, k < 0xC0 → t.pwm k = 0) ∧ (∀ k, k < 0xC0 → t.abm k = 0) ∧
      t.func s.cfg.fReset.toNat = answerByte as 9 ∧ t.func s.cfg.fConfig.toNat = s.cfg.cfgRunValue ∧
      t.func s.cfg.fGcc.toNat = 0 ∧ t.func s.cfg.fSwpu.toNat = s.cfg.swpuValue ∧
      t.func s.cfg.fCspd.toNat = s.cfg.cspdValue ∧
      (∀ k, k < 0x12 → k ≠ s.cfg.fReset.toNat → k ≠ s.cfg.fConfig.toNat → k ≠ s.cfg.fGcc.toNat →
        k ≠ s.cfg.fSwpu.toNat → k ≠ s.cfg.fCspd.toNat → t.func k = 0) ∧
      t.intmask = 0 ∧ (∀ k, k < 0xC0 → t.dbuf k = s.dbuf k) ∧ t.answers = rest ∧ KeepsRest s t ∧
      t.trace = s.trace
        ++ selectTrace s s.cfg.pFunc ++ readTrace s s.cfg.fReset.toNat (answerByte as 9)
        ++ writeOneTrace s s.cfg.pFunc s.cfg.fConfig.toNat s.cfg.cfgRunValue
        ++ writeOneTrace s s.cfg.pFunc s.cfg.fGcc.toNat 0
        ++ writeOneTrace s s.cfg.pFunc s.cfg.fSwpu.toNat s.cfg.swpuValue
        ++ writeOneTrace s s.cfg.pFunc s.cfg.fCspd.toNat s.cfg.cspdValue
        ++ selectTrace s s.cfg.pOnoff ++ writeTrace s 0 s.cfg.onoffMask.toList
        ++ selectTrace s s.cfg.pPwm ++ writeTrace s 0 (List.replicate 0xC0 0)

/-- `RESET` step 1: every shadow byte becomes 0 and no `DBUF` byte changes, whatever the bus answers (R144, R162); that this falls in
the step of the first `BusStart` is the model's choice (log 5). A `RESET` that fails at a later call ends with `BUS_ERROR` and leaves
the shadow cleared but for the steps that completed, which the number `n` of calls answered `ok` tells: 10 for step 2, 9 more for each
of steps 3 to 6, 32 more for step 7 (R222). -/
def Obligations.ResetClearsShadowFirst : Prop :=
  (∀ (s : State) (w : Word), s.seq = .busy w 0 .run →
    ∃ t, exec .reset s = .next t ∧ (∀ a, isShadowAddr a = true → t.mem.read a = 0) ∧
      (∀ a, isShadowAddr a = false → t.mem.read a = s.mem.read a)) ∧
  ∀ (s : State) (w : Word) (n : Nat) (as rest : List BusAnswer) (bad : BusAnswer), configOk s.cfg = true →
    s.seq = .busy w 0 .run → s.answers = as ++ bad :: rest → as.length = n → n < 278 → (∀ a ∈ as, a.ok = true) →
    bad.ok = false →
    ∃ (steps : Nat) (t : State), execTimes steps .reset s = .next t ∧ t.seq = .idle ∧ t.result = .busError ∧
      t.func s.cfg.fReset.toNat = (if 10 ≤ n then answerByte as 9 else 0) ∧
      t.func s.cfg.fConfig.toNat = (if 19 ≤ n then s.cfg.cfgRunValue else 0) ∧
      t.func s.cfg.fSwpu.toNat = (if 37 ≤ n then s.cfg.swpuValue else 0) ∧
      t.func s.cfg.fCspd.toNat = (if 46 ≤ n then s.cfg.cspdValue else 0) ∧
      (∀ k, k < 0x12 → k ≠ s.cfg.fReset.toNat → k ≠ s.cfg.fConfig.toNat → k ≠ s.cfg.fSwpu.toNat →
        k ≠ s.cfg.fCspd.toNat → t.func k = 0) ∧
      (∀ k (h : k < 0x18), t.onoff k = (if 78 ≤ n then s.cfg.onoffMask[k] else 0)) ∧
      (∀ k, 0x18 ≤ k → k < 0x48 → t.onoff k = 0) ∧ (∀ k, k < 0xC0 → t.pwm k = 0) ∧ (∀ k, k < 0xC0 → t.abm k = 0) ∧
      t.intmask = 0 ∧ (∀ k, k < 0xC0 → t.dbuf k = s.dbuf k) ∧ t.answers = rest ∧ KeepsRest s t

/-- `BRIGHT` (R163): the bus traffic of `WR1 P_FUNC, F_GCC, data`, and `func[F_GCC]` is the data. -/
def Obligations.BrightSetsGlobalCurrent : Prop :=
  ∀ (s : State) (w : Word) (data : Byte) (as rest : List BusAnswer), configOk s.cfg = true →
    s.seq = .busy w 0 .run → s.answers = as ++ rest → as.length = 9 → (∀ a ∈ as, a.ok = true) →
    ∃ t, execTimes 13 (.bright data) s = .next t ∧ t.seq = .idle ∧ t.result = .ok ∧
      t.func s.cfg.fGcc.toNat = data ∧
      (∀ a, a ≠ 0x700 + s.cfg.fGcc.toNat → t.mem.read a = s.mem.read a) ∧
      t.trace = s.trace ++ writeOneTrace s s.cfg.pFunc s.cfg.fGcc.toNat data ∧ t.answers = rest ∧ KeepsRest s t

/-- `SET` on an enabled cell (R164): three single-byte writes, blue, green, red, from `DBUF[2]`, `DBUF[1]`, `DBUF[0]`, at the
offsets of R145. -/
def Obligations.SetWritesCellColour : Prop :=
  ∀ (s : State) (w : Word) (row col : Byte) (as rest : List BusAnswer), configOk s.cfg = true →
    CellEnabled s row.toNat col.toNat →
    s.seq = .busy w 0 .run → s.answers = as ++ rest → as.length = 27 → (∀ a ∈ as, a.ok = true) →
    ∃ t, execTimes 37 (.set row col) s = .next t ∧ t.seq = .idle ∧ t.result = .ok ∧
      t.pwm (row.toNat * 3 * 16 + col.toNat) = s.dbuf 2 ∧
      t.pwm ((row.toNat * 3 + 1) * 16 + col.toNat) = s.dbuf 1 ∧
      t.pwm ((row.toNat * 3 + 2) * 16 + col.toNat) = s.dbuf 0 ∧
      (∀ a, (∀ k, k < 3 → a ≠ 0x500 + ((row.toNat * 3 + k) * 16 + col.toNat)) → t.mem.read a = s.mem.read a) ∧
      t.trace = s.trace ++ writeOneTrace s s.cfg.pPwm (row.toNat * 3 * 16 + col.toNat) (s.dbuf 2)
        ++ writeOneTrace s s.cfg.pPwm ((row.toNat * 3 + 1) * 16 + col.toNat) (s.dbuf 1)
        ++ writeOneTrace s s.cfg.pPwm ((row.toNat * 3 + 2) * 16 + col.toNat) (s.dbuf 0) ∧
      t.answers = rest ∧ KeepsRest s t

/-- `SET` and `ABMSET` on a cell out of range, or with any of its three on/off bits clear, end with `ADDRESSING_ERROR` in one step, with
no bus call and no other change; so does `SETALL` at such a position, after the writes of the positions before it (R149, R164, R165, R166,
R197). That the check stands in the step of the `BusStart` after it, so that the command ends in that one step, is the model's reading
(log 5). -/
def Obligations.DisabledCellEndsWithAddressingError : Prop :=
  (∀ (s : State) (w : Word) (row col : Byte), s.seq = .busy w 0 .run → ¬ CellEnabled s row.toNat col.toNat →
    exec (.set row col) s = .next { s with result := .addressingError, seq := .idle } ∧
    ∀ chan, exec (.abmset row col chan) s = .next { s with result := .addressingError, seq := .idle }) ∧
  ∀ (s : State) (w : Word) (half : Byte) (j : Nat) (p : Byte × Byte), (half = 0 ∨ half = 1) →
    (halfPos s.cfg half)[j]? = some p → ¬ CellEnabled s p.1.toNat p.2.toNat → s.seq = .busy w (36 * j) .run →
    exec (.setall half) s = .next { s with result := .addressingError, seq := .idle }

/-- `SETALL` with the five cells enabled (R165): the writes of `SET` at each position, in list order. -/
def Obligations.SetallWritesHalf : Prop :=
  ∀ (s : State) (w : Word) (half : Byte) (as rest : List BusAnswer), configOk s.cfg = true → (half = 0 ∨ half = 1) →
    (∀ p ∈ halfPos s.cfg half, CellEnabled s p.1.toNat p.2.toNat) →
    s.seq = .busy w 0 .run → s.answers = as ++ rest → as.length = 135 → (∀ a ∈ as, a.ok = true) →
    ∃ t, execTimes 181 (.setall half) s = .next t ∧ t.seq = .idle ∧ t.result = .ok ∧
      (∀ p ∈ halfPos s.cfg half, ∀ k, k < 3 →
        t.pwm ((p.1.toNat * 3 + k) * 16 + p.2.toNat) = colourByte s k) ∧
      (∀ a, (∀ p ∈ halfPos s.cfg half, ∀ k, k < 3 → a ≠ 0x500 + ((p.1.toNat * 3 + k) * 16 + p.2.toNat)) →
        t.mem.read a = s.mem.read a) ∧
      t.trace = s.trace ++ (halfPos s.cfg half).flatMap (fun p =>
        (List.range 3).flatMap fun k =>
          writeOneTrace s s.cfg.pPwm ((p.1.toNat * 3 + k) * 16 + p.2.toNat) (colourByte s k)) ∧
      t.answers = rest ∧ KeepsRest s t

/-- `ABMSET` on an enabled cell (R166): 0x01 to the three `abm` bytes of the cell, whatever `CHAN` is. -/
def Obligations.AbmsetAssignsCell : Prop :=
  ∀ (s : State) (w : Word) (row col chan : Byte) (as rest : List BusAnswer), configOk s.cfg = true →
    CellEnabled s row.toNat col.toNat →
    s.seq = .busy w 0 .run → s.answers = as ++ rest → as.length = 27 → (∀ a ∈ as, a.ok = true) →
    ∃ t, execTimes 37 (.abmset row col chan) s = .next t ∧ t.seq = .idle ∧ t.result = .ok ∧
      (∀ k, k < 3 → t.abm ((row.toNat * 3 + k) * 16 + col.toNat) = 0x01) ∧
      (∀ a, (∀ k, k < 3 → a ≠ 0x600 + ((row.toNat * 3 + k) * 16 + col.toNat)) → t.mem.read a = s.mem.read a) ∧
      t.trace = s.trace ++ (List.range 3).flatMap (fun k =>
        writeOneTrace s s.cfg.pAbm ((row.toNat * 3 + k) * 16 + col.toNat) 0x01) ∧
      t.answers = rest ∧ KeepsRest s t

/-- `CHKTRIG` (R167): the diagnostic current, then the configuration byte of the shadow with the OSD bit clear, then with it
set. -/
def Obligations.ChktrigTogglesDetection : Prop :=
  ∀ (s : State) (w : Word) (v : Byte) (as rest : List BusAnswer), configOk s.cfg = true →
    s.func s.cfg.fConfig.toNat = v →
    s.seq = .busy w 0 .run → s.answers = as ++ rest → as.length = 27 → (∀ a ∈ as, a.ok = true) →
    ∃ t, execTimes 37 .chktrig s = .next t ∧ t.seq = .idle ∧ t.result = .ok ∧
      t.func s.cfg.fGcc.toNat = s.cfg.diagGcc ∧
      t.func s.cfg.fConfig.toNat = v ||| (1#8 <<< s.cfg.cfgOsdBit) ∧
      (∀ a, a ≠ 0x700 + s.cfg.fGcc.toNat → a ≠ 0x700 + s.cfg.fConfig.toNat → t.mem.read a = s.mem.read a) ∧
      t.trace = s.trace ++ writeOneTrace s s.cfg.pFunc s.cfg.fGcc.toNat s.cfg.diagGcc
        ++ writeOneTrace s s.cfg.pFunc s.cfg.fConfig.toNat (v &&& ~~~(1#8 <<< s.cfg.cfgOsdBit))
        ++ writeOneTrace s s.cfg.pFunc s.cfg.fConfig.toNat (v ||| (1#8 <<< s.cfg.cfgOsdBit)) ∧
      t.answers = rest ∧ KeepsRest s t

/-- `CHECK` (R168): the open zone, then the short zone, into `onoff[0x18..0x47]`; `DBUF` and every other byte keep their values. -/
def Obligations.CheckReadsZones : Prop :=
  ∀ (s : State) (w : Word) (as rest : List BusAnswer), configOk s.cfg = true →
    s.seq = .busy w 0 .run → s.answers = as ++ rest → as.length = 204 → (∀ a ∈ as, a.ok = true) →
    ∃ t, execTimes 305 .check s = .next t ∧ t.seq = .idle ∧ t.result = .ok ∧
      (∀ k, k < 0x18 → t.onoff (0x18 + k) = answerByte as (9 + 4 * k)) ∧
      (∀ k, k < 0x18 → t.onoff (0x30 + k) = answerByte as (111 + 4 * k)) ∧
      (∀ a, (∀ k, k < 0x30 → a ≠ 0x418 + k) → t.mem.read a = s.mem.read a) ∧
      t.trace = s.trace
        ++ selectTrace s s.cfg.pOnoff
        ++ (List.range 0x18).flatMap (fun k => readTrace s (0x18 + k) (answerByte as (9 + 4 * k)))
        ++ selectTrace s s.cfg.pOnoff
        ++ (List.range 0x18).flatMap (fun k => readTrace s (0x30 + k) (answerByte as (111 + 4 * k))) ∧
      t.answers = rest ∧ KeepsRest s t

/-! The step in which a command's effect lands. -/

/-- A byte read commits in the step of its `BusRecv`, and only if that returned `ok` (R142): `RD1` and `RESET` at position 12, `RDB` and
`CHECK` at the fifth call of a read pair. After a `BusRecv` that failed the `BusStop` is owed, in a step of its own (log 4). -/
def Obligations.ReadCommitsWithItsReceive : Prop :=
  ∀ (s : State) (w : Word) (p : Page) (a pos : Nat) (i : Instr),
    i.wellFormed s.cfg = true → s.seq = .busy w pos .run →
    ((∃ page offset, i = .rd1 page offset ∧ pageOf s.cfg page = some p ∧ a = p.base + offset.toNat ∧ pos = 12) ∨
      (∃ page offset size k, i = .rdb page offset size ∧ pageOf s.cfg page = some p ∧ k < size.toNat ∧
        a = p.base + (offset.toNat + k) ∧ pos = 8 + 6 * k + 4) ∨
      (i = .reset ∧ configOk s.cfg = true ∧ a = 0x700 + s.cfg.fReset.toNat ∧ pos = 12) ∨
      (∃ k, i = .check ∧ configOk s.cfg = true ∧ k < 0x18 ∧ a = 0x418 + k ∧ pos = 8 + 6 * k + 4) ∨
      (∃ k, i = .check ∧ configOk s.cfg = true ∧ k < 0x18 ∧ a = 0x430 + k ∧ pos = 160 + 6 * k + 4)) →
    ((nextAnswer s).ok = true → exec i s = .next { s with
      mem := s.mem.write a (nextAnswer s).byte, trace := s.trace ++ [.recv (some (nextAnswer s).byte)],
      answers := s.answers.tail, seq := .busy w (pos + 1) .run }) ∧
    ((nextAnswer s).ok = false → exec i s = .next { s with
      trace := s.trace ++ [.recv none], answers := s.answers.tail, seq := .busy w (pos + 1) .stopOwed })

/-- A write access commits in the step of the last `BusStop` of that access (R141). Single bytes: `WR1` and `BRIGHT` at position 11, `SET`
and `ABMSET` at 11, 23 and 35, `SETALL` at 11 of each group of 12, `CHKTRIG` at 11, 23 and 35, `RESET` at 25, 37, 49 and 61. The two
bursts of `RESET`: the on/off mask at 96, the `pwm` zeros at 299. The bytes are those that `DBUF` or the shadow holds in that step (log
5). The burst of `WRB` is in `WrbCommitsWithItsStop`. -/
def Obligations.WriteCommitsWithItsStop : Prop :=
  (∀ (s : State) (w : Word) (a pos : Nat) (b : Byte) (i : Instr), configOk s.cfg = true →
    i.wellFormed s.cfg = true → s.seq = .busy w pos .run →
    ((∃ page offset p, i = .wr1 page offset b ∧ pageOf s.cfg page = some p ∧ a = p.base + offset.toNat ∧ pos = 11) ∨
      (i = .bright b ∧ a = 0x700 + s.cfg.fGcc.toNat ∧ pos = 11) ∨
      (∃ row col k, i = .set row col ∧ row.toNat < 4 ∧ col.toNat < 16 ∧ k < 3 ∧ b = colourByte s k ∧
        a = 0x500 + ((row.toNat * 3 + k) * 16 + col.toNat) ∧ pos = 12 * k + 11) ∨
      (∃ row col chan k, i = .abmset row col chan ∧ row.toNat < 4 ∧ col.toNat < 16 ∧ k < 3 ∧ b = 0x01 ∧
        a = 0x600 + ((row.toNat * 3 + k) * 16 + col.toNat) ∧ pos = 12 * k + 11) ∨
      (∃ half j p k, i = .setall half ∧ (halfPos s.cfg half)[j]? = some p ∧ p.1.toNat < 4 ∧ p.2.toNat < 16 ∧ k < 3 ∧
        b = colourByte s k ∧ a = 0x500 + ((p.1.toNat * 3 + k) * 16 + p.2.toNat) ∧ pos = 36 * j + 12 * k + 11) ∨
      (i = .reset ∧ b = s.cfg.cfgRunValue ∧ a = 0x700 + s.cfg.fConfig.toNat ∧ pos = 25) ∨
      (i = .reset ∧ b = 0x00 ∧ a = 0x700 + s.cfg.fGcc.toNat ∧ pos = 37) ∨
      (i = .reset ∧ b = s.cfg.swpuValue ∧ a = 0x700 + s.cfg.fSwpu.toNat ∧ pos = 49) ∨
      (i = .reset ∧ b = s.cfg.cspdValue ∧ a = 0x700 + s.cfg.fCspd.toNat ∧ pos = 61) ∨
      (i = .chktrig ∧ b = s.cfg.diagGcc ∧ a = 0x700 + s.cfg.fGcc.toNat ∧ pos = 11) ∨
      (i = .chktrig ∧ b = s.func s.cfg.fConfig.toNat &&& ~~~(1#8 <<< s.cfg.cfgOsdBit) ∧
        a = 0x700 + s.cfg.fConfig.toNat ∧ pos = 23) ∨
      (i = .chktrig ∧ b = s.func s.cfg.fConfig.toNat ||| (1#8 <<< s.cfg.cfgOsdBit) ∧
        a = 0x700 + s.cfg.fConfig.toNat ∧ pos = 35)) →
    exec i s = .next { s with
      mem := s.mem.write a b, trace := s.trace ++ [.stop], seq := .busy w (pos + 1) .run }) ∧
  ∀ (s : State) (w : Word), configOk s.cfg = true →
    (s.seq = .busy w 96 .run →
      ∃ m, exec .reset s = .next { s with mem := m, trace := s.trace ++ [.stop], seq := .busy w 97 .run } ∧
        (∀ k (h : k < 0x18), m.read (0x400 + k) = s.cfg.onoffMask[k]) ∧
        (∀ a, (∀ k, k < 0x18 → a ≠ 0x400 + k) → m.read a = s.mem.read a)) ∧
    (s.seq = .busy w 299 .run →
      ∃ m, exec .reset s = .next { s with mem := m, trace := s.trace ++ [.stop], seq := .busy w 300 .run } ∧
        (∀ k, k < 0xC0 → m.read (0x500 + k) = 0) ∧
        (∀ a, (∀ k, k < 0xC0 → a ≠ 0x500 + k) → m.read a = s.mem.read a))

/-- `WRB` commits all its bytes in the step of the last `BusStop` (R120, R141): at position `10 + SIZE` the step answers a next state in
which the shadow bytes are `DBUF[0..SIZE-1]` and every other byte is as before. The bytes are those that `DBUF` holds in that step (log
5). -/
def Obligations.WrbCommitsWithItsStop : Prop :=
  ∀ (s : State) (w : Word) (page offset size : Byte) (p : Page),
    AdmitRule s.cfg (.wrb page offset size) → pageOf s.cfg page = some p → offset.toNat < p.ext →
    offset.toNat + size.toNat ≤ p.ext → s.seq = .busy w (10 + size.toNat) .run →
    ∃ m, exec (.wrb page offset size) s = .next { s with
        mem := m, trace := s.trace ++ [.stop], seq := .busy w (11 + size.toNat) .run } ∧
      (∀ k, k < size.toNat → m.read (p.base + (offset.toNat + k)) = s.dbuf k) ∧
      (∀ a, (∀ k, k < size.toNat → a ≠ p.base + (offset.toNat + k)) → m.read a = s.mem.read a)

/-- The four calls of `WRD` (R114, R125), each the effect of one step: with an `ok` answer the command goes on at the next
position, and no byte of the shadow or `DBUF` changes. -/
def Obligations.WrdMakesItsFourCalls : Prop :=
  ∀ (s : State) (w : Word) (pos : Nat) (reg value : Byte), (reg = s.cfg.regLock ∨ reg = s.cfg.regCmd) →
    s.seq = .busy w pos .run → (nextAnswer s).ok = true →
    (pos = 0 → exec (.wrd reg value) s = .next { s with
      trace := s.trace ++ [.start (addrByte s .write) 10 true], answers := s.answers.tail, seq := .busy w 1 .run }) ∧
    (pos = 1 → exec (.wrd reg value) s = .next { s with
      trace := s.trace ++ [.send reg true], answers := s.answers.tail, seq := .busy w 2 .run }) ∧
    (pos = 2 → exec (.wrd reg value) s = .next { s with
      trace := s.trace ++ [.send value true], answers := s.answers.tail, seq := .busy w 3 .run }) ∧
    (pos = 3 → exec (.wrd reg value) s = .next { s with trace := s.trace ++ [.stop], seq := .busy w 4 .run }) ∧
    (pos = 4 → exec (.wrd reg value) s = .next { s with result := .ok, seq := .idle })

/-! The LED channel mapping (41_shadow_state.md). -/

/-- The on/off bit of PWM byte `o` is bit `o & 7` of `onoff[o >> 3]`, for every channel (R147). -/
def Obligations.OnOffBitOfPwmOffset : Prop :=
  ∀ row, row < 4 → ∀ col, col < 16 → ∀ k, k < 3 →
    onOffByte row col k = pwmOffset row col k >>> 3 ∧ onOffBit col = pwmOffset row col k &&& 7

/-- The cell check passes exactly for a cell in range whose three bits, at the byte and bit of R146, are set; so after
`ShadowClear` it fails for every cell (R149, R227). -/
def Obligations.CellCheckReadsOnOffBits : Prop :=
  ∀ (s : State) (row col : Byte),
    (cellCheck s row col = true ↔ CellEnabled s row.toNat col.toNat) ∧ cellCheck (shadowClear s) row col = false

/-! The assembler (30_encoding.md R99 to R102). -/

/-- The pseudo-operations and pseudo-instructions stand for the accesses and lines that R101 lists; that a `WAIT` follows each command
of an expansion, and that a `DELAY` of any time assembles, is the model's choice (log 13). `WR1 P_FUNC, F_GCC, 0x80` with default parameters is the word 0x30030180 (R99); the
defaults are those of R8, which the model takes as general knowledge (log 1). -/
def Obligations.PseudoInstructionsExpand : Prop :=
  (∀ (c : Config) (page : Operand), assembleLine c .unlock = assembleLine c (.wrd (.param .regLock) (.param .unlockKey)) ∧
    assembleLine c (.psel page) =
      assemble c [.wrd (.param .regLock) (.param .unlockKey), .wrd (.param .regCmd) page]) ∧
  (∀ (c : Config) (row col r g b : Operand), assembleLine c (.setc row col r g b) =
    assemble c [.buf (.num 0) r, .buf (.num 1) g, .buf (.num 2) b, .set row col]) ∧
  (∀ (c : Config) (half r g b : Operand), assembleLine c (.setallc half r g b) =
    assemble c [.buf (.num 0) r, .buf (.num 1) g, .buf (.num 2) b, .setall half]) ∧
  (∀ (c : Config) (page offset : Operand) (d : List Operand), assembleLine c (.wrbuf page offset d) =
    assemble c (d.mapIdx (fun i x => .buf (.num i) x) ++ [.wrb page offset (.num d.length)])) ∧
  (∀ (c : Config) (i v : Operand) (x y : Byte), i.value c = some x → v.value c = some y →
    assembleLine c (.buf i v) = some [⟨0, .memWrite (BitVec.ofNat 12 (0x100 + x.toNat)) 1 (y.zeroExtend 32)⟩]) ∧
  (∀ (c : Config) (pg off : Operand) (x y : Byte) (a : Nat), pg.value c = some x → off.value c = some y →
    shadowAddr c x y.toNat = .ok a → assembleLine c (.peek pg off) = some [⟨0, .memRead (BitVec.ofNat 12 a) 1⟩]) ∧
  (∀ (c : Config) (t : Nat), assembleLine c .wait = some [⟨0, .wait⟩] ∧ assembleLine c (.delay t) = some [⟨0, .delay t⟩]) ∧
  assembleLine Config.platform (.wr1 (.param .pFunc) (.param .fGcc) (.num 0x80))
    = some [⟨0, .memWrite 0x000 4 0x30030180⟩, ⟨0, .wait⟩]
end

