-- ==== Sys2Proof/Laws/Memory.lean ====
section
/-! SUPPORT. Reading after writing, and the canonical form of the bytes, once for each memory operation. -/

namespace Sys2Proof.Machine

@[simp] theorem read_nil (x : Nat) : Memory.read [] x = 0 := rfl

theorem read_cons (a : Nat) (u : Byte) (m : Memory) (x : Nat) :
    Memory.read ((a, u) :: m) x = if a = x then u else m.read x := rfl

/-- Keeping the entries of some addresses keeps what they read, and makes every other address read 0. -/
theorem read_filter (f : Nat → Bool) (m : Memory) (x : Nat) :
    Memory.read (m.filter fun c => f c.1) x = if f x then m.read x else 0 := by
  induction m with
  | nil => simp
  | cons c m ih =>
    obtain ⟨a, u⟩ := c
    by_cases hax : a = x
    · subst hax
      by_cases hf : f a <;> simp [hf, read_cons, ih]
    · by_cases hf : f a <;> simp [hf, read_cons, hax, ih]

theorem read_forget (m : Memory) (x y : Nat) :
    (m.forget x).read y = if y = x then 0 else m.read y := by
  unfold Memory.forget
  rw [read_filter (fun a => a != x)]
  by_cases h : y = x <;> simp [h]

theorem read_putAt_same (m : Memory) (x : Nat) (v : Byte) (h : m.read x = 0 ∧ ∀ c ∈ m, c.1 ≠ x) :
    (m.putAt x v).read x = v := by
  induction m with
  | nil => simp [Memory.putAt, read_cons]
  | cons c m ih =>
    obtain ⟨a, u⟩ := c
    have hax : a ≠ x := h.2 (a, u) (by simp)
    have ih' := ih ⟨by simpa [read_cons, hax] using h.1, fun c hc => h.2 c (by simp [hc])⟩
    by_cases hlt : x < a <;> simp [Memory.putAt, hlt, read_cons, hax, ih']

theorem read_putAt_ne (m : Memory) {x y : Nat} (v : Byte) (h : y ≠ x) :
    (m.putAt x v).read y = m.read y := by
  induction m with
  | nil => simp [Memory.putAt, read_cons, Ne.symm h]
  | cons c m ih =>
    obtain ⟨a, u⟩ := c
    by_cases hlt : x < a
    · simp [Memory.putAt, hlt, read_cons, Ne.symm h]
    · by_cases hay : a = y
      · subst hay; simp [Memory.putAt, hlt, read_cons]
      · simp [Memory.putAt, hlt, read_cons, hay, ih]

theorem mem_forget_ne {m : Memory} {x : Nat} {c : Host.Cell} (h : c ∈ m.forget x) : c.1 ≠ x := by
  simpa using (List.mem_filter.mp h).2

/-- A byte written is the byte read. -/
@[simp] theorem read_write_same (m : Memory) (x : Nat) (v : Byte) : (m.write x v).read x = v := by
  unfold Memory.write
  split
  · next h => simp [read_forget, h]
  · exact read_putAt_same _ _ _ ⟨by simp [read_forget], fun _ hc => mem_forget_ne hc⟩

/-- A write leaves every other address alone. -/
theorem read_write_ne (m : Memory) {x y : Nat} (v : Byte) (h : y ≠ x) : (m.write x v).read y = m.read y := by
  unfold Memory.write
  split
  · simp [read_forget, h]
  · rw [read_putAt_ne _ _ h]; simp [read_forget, h]

theorem read_write (m : Memory) (x y : Nat) (v : Byte) :
    (m.write x v).read y = if y = x then v else m.read y := by
  by_cases h : y = x
  · subst h; simp
  · simp [read_write_ne _ _ h, h]

/-- `ShadowClear` on one byte (R144). -/
theorem read_clearShadow (m : Memory) (x : Nat) :
    m.clearShadow.read x = if isShadowAddr x then 0 else m.read x := by
  unfold Memory.clearShadow
  rw [read_filter (fun a => !isShadowAddr a)]
  by_cases h : isShadowAddr x <;> simp [h]

/-! The canonical form. -/

@[simp] theorem wf_nil : Memory.wf [] = true := rfl

theorem wf_cons {a : Nat} {u : Byte} {m : Memory} :
    Memory.wf ((a, u) :: m) = true ↔ u ≠ 0 ∧ (∀ c ∈ m, a < c.1) ∧ m.wf = true := by
  simp [Memory.wf, and_assoc]

theorem wf_filter {m : Memory} (f : Host.Cell → Bool) (h : m.wf = true) : Memory.wf (m.filter f) = true := by
  induction m with
  | nil => rfl
  | cons c m ih =>
    obtain ⟨a, u⟩ := c
    obtain ⟨hu, hlt, hm⟩ := wf_cons.mp h
    by_cases hf : f (a, u)
    · rw [List.filter_cons_of_pos hf]
      exact wf_cons.mpr ⟨hu, fun c hc => hlt c (List.mem_of_mem_filter hc), ih hm⟩
    · rw [List.filter_cons_of_neg hf]; exact ih hm

theorem mem_putAt {m : Memory} {x : Nat} {v : Byte} {c : Host.Cell} (h : c ∈ m.putAt x v) :
    c = (x, v) ∨ c ∈ m := by
  induction m with
  | nil => simpa [Memory.putAt] using h
  | cons d m ih =>
    obtain ⟨a, u⟩ := d
    by_cases hlt : x < a
    · simpa [Memory.putAt, hlt] using h
    · rcases (by simpa [Memory.putAt, hlt] using h : c = (a, u) ∨ c ∈ Memory.putAt m x v) with h | h
      · simp [h]
      · rcases ih h with h | h <;> simp [h]

theorem wf_putAt {m : Memory} {x : Nat} {v : Byte} (hv : v ≠ 0) (hx : ∀ c ∈ m, c.1 ≠ x) (h : m.wf = true) :
    (m.putAt x v).wf = true := by
  induction m with
  | nil => exact wf_cons.mpr ⟨hv, by simp, rfl⟩
  | cons c m ih =>
    obtain ⟨a, u⟩ := c
    obtain ⟨hu, hlt, hm⟩ := wf_cons.mp h
    have hax : a ≠ x := hx (a, u) (by simp)
    by_cases hxa : x < a
    · simp only [Memory.putAt, hxa, if_true]
      refine wf_cons.mpr ⟨hv, fun c hc => ?_, h⟩
      rcases List.mem_cons.mp hc with rfl | hc
      · exact hxa
      · exact lt_trans hxa (hlt c hc)
    · simp only [Memory.putAt, hxa, if_false]
      refine wf_cons.mpr ⟨hu, fun c hc => ?_, ih (fun c hc => hx c (by simp [hc])) hm⟩
      rcases mem_putAt hc with rfl | hc
      · exact lt_of_le_of_ne (not_lt.mp hxa) hax
      · exact hlt c hc

/-- A write keeps the canonical form. -/
theorem wf_write {m : Memory} (x : Nat) (v : Byte) (h : m.wf = true) : (m.write x v).wf = true := by
  unfold Memory.write
  split
  · exact wf_filter _ h
  · next hv => exact wf_putAt hv (fun _ hc => mem_forget_ne hc) (wf_filter _ h)

/-- `ShadowClear` keeps the canonical form. -/
theorem wf_clearShadow {m : Memory} (h : m.wf = true) : m.clearShadow.wf = true := wf_filter _ h

@[simp] theorem mapped_nil : Memory.mapped [] = true := rfl

theorem mapped_filter {m : Memory} (f : Host.Cell → Bool) (h : m.mapped = true) :
    Memory.mapped (m.filter f) = true := by
  unfold Memory.mapped at *
  exact List.all_eq_true.mpr fun c hc => List.all_eq_true.mp h c (List.mem_of_mem_filter hc)

/-- A write to a mapped byte lists mapped bytes only. -/
theorem mapped_write {m : Memory} {x : Nat} (v : Byte) (hx : (isDbufAddr x || isShadowAddr x) = true)
    (h : m.mapped = true) : (m.write x v).mapped = true := by
  unfold Memory.write
  split
  · exact mapped_filter _ h
  · unfold Memory.mapped
    refine List.all_eq_true.mpr fun c hc => ?_
    rcases mem_putAt hc with rfl | hc
    · exact hx
    · exact List.all_eq_true.mp h c (List.mem_of_mem_filter hc)

theorem mapped_clearShadow {m : Memory} (h : m.mapped = true) : m.clearShadow.mapped = true :=
  mapped_filter _ h

/-- Canonical memories that read the same everywhere are equal data. -/
theorem eq_of_read_eq {m n : Memory} (hm : m.wf = true) (hn : n.wf = true) (h : ∀ x, m.read x = n.read x) : m = n := by
  have low : ∀ {k : Memory} {x : Nat}, (∀ c ∈ k, x < c.1) → k.read x = 0 := by
    intro k x hk
    induction k with
    | nil => rfl
    | cons c k ih =>
      obtain ⟨a, u⟩ := c
      have : a ≠ x := (hk (a, u) (by simp)).ne'
      simpa [read_cons, this] using ih fun c hc => hk c (by simp [hc])
  induction m generalizing n with
  | nil =>
    cases n with
    | nil => rfl
    | cons d n =>
      obtain ⟨b, v⟩ := d
      exact absurd (by simpa [read_cons] using (h b).symm) (wf_cons.mp hn).1
  | cons c m ih =>
    obtain ⟨a, u⟩ := c
    obtain ⟨hu, hlt, hm'⟩ := wf_cons.mp hm
    cases n with
    | nil => exact absurd (by simpa [read_cons] using h a) hu
    | cons d n =>
      obtain ⟨b, v⟩ := d
      obtain ⟨hv, hlt', hn'⟩ := wf_cons.mp hn
      have hab : a = b := by
        rcases lt_trichotomy a b with hab | hab | hab
        · have := h a
          rw [read_cons, if_pos rfl, read_cons, if_neg hab.ne',
            low fun c hc => lt_trans hab (hlt' c hc)] at this
          exact absurd this hu
        · exact hab
        · have := h b
          rw [read_cons, if_neg hab.ne', read_cons, if_pos rfl,
            low fun c hc => lt_trans hab (hlt c hc)] at this
          exact absurd this.symm hv
      subst hab
      have huv : u = v := by simpa [read_cons] using h a
      subst huv
      rw [ih hm' hn' fun x => ?_]
      by_cases hx : a = x
      · subst hx; rw [low hlt, low hlt']
      · simpa [read_cons, hx] using h x

/-! The places of R38, as inequalities. -/

theorem isDbufAddr_iff {a : Nat} : isDbufAddr a = true ↔ 0x100 ≤ a ∧ a < 0x1C0 := by
  simp [isDbufAddr]

theorem isShadowAddr_iff {a : Nat} : isShadowAddr a = true ↔
    (0x400 ≤ a ∧ a < 0x448) ∨ (0x500 ≤ a ∧ a < 0x5C0) ∨ (0x600 ≤ a ∧ a < 0x6C0) ∨ (0x700 ≤ a ∧ a < 0x712) ∨
      a = 0x800 := by
  simp [isShadowAddr, or_assoc]

end Sys2Proof.Machine
end

