-- ==== Sys2Proof/Laws/State.lean ====
section
/-! SUPPORT. Every field of the state after every update, each true by rfl, so that no later proof unfolds an update. -/

namespace Sys2Proof.Machine

variable (s : State)

@[simp] theorem complete_seq (r : Result) : (complete r s).seq = .idle := rfl
@[simp] theorem complete_result (r : Result) : (complete r s).result = r := rfl
@[simp] theorem complete_addr7 (r : Result) : (complete r s).addr7 = s.addr7 := rfl
@[simp] theorem complete_mem (r : Result) : (complete r s).mem = s.mem := rfl
@[simp] theorem complete_sdb (r : Result) : (complete r s).sdb = s.sdb := rfl
@[simp] theorem complete_live (r : Result) : (complete r s).live = s.live := rfl
@[simp] theorem complete_cfg (r : Result) : (complete r s).cfg = s.cfg := rfl
@[simp] theorem complete_answers (r : Result) : (complete r s).answers = s.answers := rfl
@[simp] theorem complete_trace (r : Result) : (complete r s).trace = s.trace := rfl
@[simp] theorem complete_host (r : Result) : (complete r s).host = s.host := rfl
@[simp] theorem complete_reads (r : Result) : (complete r s).reads = s.reads := rfl

@[simp] theorem raiseError_seq (r : Result) : (raiseError r s).seq = .idle := rfl
@[simp] theorem raiseError_result (r : Result) : (raiseError r s).result = r := rfl
@[simp] theorem raiseError_addr7 (r : Result) : (raiseError r s).addr7 = s.addr7 := rfl
@[simp] theorem raiseError_mem (r : Result) : (raiseError r s).mem = s.mem := rfl
@[simp] theorem raiseError_sdb (r : Result) : (raiseError r s).sdb = s.sdb := rfl
@[simp] theorem raiseError_live (r : Result) : (raiseError r s).live = s.live := rfl
@[simp] theorem raiseError_cfg (r : Result) : (raiseError r s).cfg = s.cfg := rfl
@[simp] theorem raiseError_answers (r : Result) : (raiseError r s).answers = s.answers := rfl
@[simp] theorem raiseError_trace (r : Result) : (raiseError r s).trace = s.trace := rfl
@[simp] theorem raiseError_host (r : Result) : (raiseError r s).host = s.host := rfl
@[simp] theorem raiseError_reads (r : Result) : (raiseError r s).reads = s.reads := rfl

@[simp] theorem issue_seq (w : Word) : (issue w s).seq = .busy w 0 .run := rfl
@[simp] theorem issue_result (w : Word) : (issue w s).result = s.result := rfl
@[simp] theorem issue_addr7 (w : Word) : (issue w s).addr7 = s.addr7 := rfl
@[simp] theorem issue_mem (w : Word) : (issue w s).mem = s.mem := rfl
@[simp] theorem issue_sdb (w : Word) : (issue w s).sdb = s.sdb := rfl
@[simp] theorem issue_live (w : Word) : (issue w s).live = s.live := rfl
@[simp] theorem issue_cfg (w : Word) : (issue w s).cfg = s.cfg := rfl
@[simp] theorem issue_answers (w : Word) : (issue w s).answers = s.answers := rfl
@[simp] theorem issue_trace (w : Word) : (issue w s).trace = s.trace := rfl
@[simp] theorem issue_host (w : Word) : (issue w s).host = s.host := rfl
@[simp] theorem issue_reads (w : Word) : (issue w s).reads = s.reads := rfl

@[simp] theorem shadowClear_seq : (shadowClear s).seq = s.seq := rfl
@[simp] theorem shadowClear_result : (shadowClear s).result = s.result := rfl
@[simp] theorem shadowClear_addr7 : (shadowClear s).addr7 = s.addr7 := rfl
@[simp] theorem shadowClear_mem : (shadowClear s).mem = s.mem.clearShadow := rfl
@[simp] theorem shadowClear_sdb : (shadowClear s).sdb = s.sdb := rfl
@[simp] theorem shadowClear_live : (shadowClear s).live = s.live := rfl
@[simp] theorem shadowClear_cfg : (shadowClear s).cfg = s.cfg := rfl
@[simp] theorem shadowClear_answers : (shadowClear s).answers = s.answers := rfl
@[simp] theorem shadowClear_trace : (shadowClear s).trace = s.trace := rfl
@[simp] theorem shadowClear_host : (shadowClear s).host = s.host := rfl
@[simp] theorem shadowClear_reads : (shadowClear s).reads = s.reads := rfl

@[simp] theorem blockReset_seq : (blockReset s).seq = .idle := rfl
@[simp] theorem blockReset_result : (blockReset s).result = .ok := rfl
@[simp] theorem blockReset_addr7 : (blockReset s).addr7 = s.cfg.initAddr7 := rfl
@[simp] theorem blockReset_mem : (blockReset s).mem = [] := rfl
@[simp] theorem blockReset_sdb : (blockReset s).sdb = true := rfl
@[simp] theorem blockReset_live : (blockReset s).live = true := rfl
@[simp] theorem blockReset_cfg : (blockReset s).cfg = s.cfg := rfl
@[simp] theorem blockReset_answers : (blockReset s).answers = s.answers := rfl
@[simp] theorem blockReset_trace : (blockReset s).trace = s.trace := rfl
@[simp] theorem blockReset_host : (blockReset s).host = s.host := rfl
@[simp] theorem blockReset_reads : (blockReset s).reads = s.reads := rfl

@[simp] theorem takeAnswer_seq : (takeAnswer s).seq = s.seq := rfl
@[simp] theorem takeAnswer_result : (takeAnswer s).result = s.result := rfl
@[simp] theorem takeAnswer_addr7 : (takeAnswer s).addr7 = s.addr7 := rfl
@[simp] theorem takeAnswer_mem : (takeAnswer s).mem = s.mem := rfl
@[simp] theorem takeAnswer_sdb : (takeAnswer s).sdb = s.sdb := rfl
@[simp] theorem takeAnswer_live : (takeAnswer s).live = s.live := rfl
@[simp] theorem takeAnswer_cfg : (takeAnswer s).cfg = s.cfg := rfl
@[simp] theorem takeAnswer_answers : (takeAnswer s).answers = s.answers.tail := rfl
@[simp] theorem takeAnswer_trace : (takeAnswer s).trace = s.trace := rfl
@[simp] theorem takeAnswer_host : (takeAnswer s).host = s.host := rfl
@[simp] theorem takeAnswer_reads : (takeAnswer s).reads = s.reads := rfl

@[simp] theorem afterCall_seq (e : BusEvent) (p : Phase) : (afterCall e p s).seq = s.seq.advance p := rfl
@[simp] theorem afterCall_result (e : BusEvent) (p : Phase) : (afterCall e p s).result = s.result := rfl
@[simp] theorem afterCall_addr7 (e : BusEvent) (p : Phase) : (afterCall e p s).addr7 = s.addr7 := rfl
@[simp] theorem afterCall_mem (e : BusEvent) (p : Phase) : (afterCall e p s).mem = s.mem := rfl
@[simp] theorem afterCall_sdb (e : BusEvent) (p : Phase) : (afterCall e p s).sdb = s.sdb := rfl
@[simp] theorem afterCall_live (e : BusEvent) (p : Phase) : (afterCall e p s).live = s.live := rfl
@[simp] theorem afterCall_cfg (e : BusEvent) (p : Phase) : (afterCall e p s).cfg = s.cfg := rfl
@[simp] theorem afterCall_answers (e : BusEvent) (p : Phase) : (afterCall e p s).answers = s.answers := rfl
@[simp] theorem afterCall_trace (e : BusEvent) (p : Phase) : (afterCall e p s).trace = s.trace ++ [e] := rfl
@[simp] theorem afterCall_host (e : BusEvent) (p : Phase) : (afterCall e p s).host = s.host := rfl
@[simp] theorem afterCall_reads (e : BusEvent) (p : Phase) : (afterCall e p s).reads = s.reads := rfl

@[simp] theorem busStop_seq (p : Phase) : (busStop p s).seq = s.seq.advance p := rfl
@[simp] theorem busStop_result (p : Phase) : (busStop p s).result = s.result := rfl
@[simp] theorem busStop_addr7 (p : Phase) : (busStop p s).addr7 = s.addr7 := rfl
@[simp] theorem busStop_mem (p : Phase) : (busStop p s).mem = s.mem := rfl
@[simp] theorem busStop_sdb (p : Phase) : (busStop p s).sdb = s.sdb := rfl
@[simp] theorem busStop_live (p : Phase) : (busStop p s).live = s.live := rfl
@[simp] theorem busStop_cfg (p : Phase) : (busStop p s).cfg = s.cfg := rfl
@[simp] theorem busStop_answers (p : Phase) : (busStop p s).answers = s.answers := rfl
@[simp] theorem busStop_trace (p : Phase) : (busStop p s).trace = s.trace ++ [.stop] := rfl
@[simp] theorem busStop_host (p : Phase) : (busStop p s).host = s.host := rfl
@[simp] theorem busStop_reads (p : Phase) : (busStop p s).reads = s.reads := rfl

@[simp] theorem busStart_seq (d : Dir) : (busStart d s).seq = s.seq.advance (phaseAfter (nextAnswer s).ok) := rfl
@[simp] theorem busStart_result (d : Dir) : (busStart d s).result = s.result := rfl
@[simp] theorem busStart_addr7 (d : Dir) : (busStart d s).addr7 = s.addr7 := rfl
@[simp] theorem busStart_mem (d : Dir) : (busStart d s).mem = s.mem := rfl
@[simp] theorem busStart_sdb (d : Dir) : (busStart d s).sdb = s.sdb := rfl
@[simp] theorem busStart_live (d : Dir) : (busStart d s).live = s.live := rfl
@[simp] theorem busStart_cfg (d : Dir) : (busStart d s).cfg = s.cfg := rfl
@[simp] theorem busStart_answers (d : Dir) : (busStart d s).answers = s.answers.tail := rfl
@[simp] theorem busStart_trace (d : Dir) : (busStart d s).trace = s.trace ++ [.start (addrByte s d) timeoutTicks (nextAnswer s).ok] := rfl
@[simp] theorem busStart_host (d : Dir) : (busStart d s).host = s.host := rfl
@[simp] theorem busStart_reads (d : Dir) : (busStart d s).reads = s.reads := rfl

@[simp] theorem busSend_seq (b : Byte) : (busSend b s).seq = s.seq.advance (phaseAfter (nextAnswer s).ok) := rfl
@[simp] theorem busSend_result (b : Byte) : (busSend b s).result = s.result := rfl
@[simp] theorem busSend_addr7 (b : Byte) : (busSend b s).addr7 = s.addr7 := rfl
@[simp] theorem busSend_mem (b : Byte) : (busSend b s).mem = s.mem := rfl
@[simp] theorem busSend_sdb (b : Byte) : (busSend b s).sdb = s.sdb := rfl
@[simp] theorem busSend_live (b : Byte) : (busSend b s).live = s.live := rfl
@[simp] theorem busSend_cfg (b : Byte) : (busSend b s).cfg = s.cfg := rfl
@[simp] theorem busSend_answers (b : Byte) : (busSend b s).answers = s.answers.tail := rfl
@[simp] theorem busSend_trace (b : Byte) : (busSend b s).trace = s.trace ++ [.send b (nextAnswer s).ok] := rfl
@[simp] theorem busSend_host (b : Byte) : (busSend b s).host = s.host := rfl
@[simp] theorem busSend_reads (b : Byte) : (busSend b s).reads = s.reads := rfl

@[simp] theorem giveBack_seq (a : HostAddr) (n : Nat) (v : Word) : (giveBack a n v s).seq = s.seq := rfl
@[simp] theorem giveBack_result (a : HostAddr) (n : Nat) (v : Word) : (giveBack a n v s).result = s.result := rfl
@[simp] theorem giveBack_addr7 (a : HostAddr) (n : Nat) (v : Word) : (giveBack a n v s).addr7 = s.addr7 := rfl
@[simp] theorem giveBack_mem (a : HostAddr) (n : Nat) (v : Word) : (giveBack a n v s).mem = s.mem := rfl
@[simp] theorem giveBack_sdb (a : HostAddr) (n : Nat) (v : Word) : (giveBack a n v s).sdb = s.sdb := rfl
@[simp] theorem giveBack_live (a : HostAddr) (n : Nat) (v : Word) : (giveBack a n v s).live = s.live := rfl
@[simp] theorem giveBack_cfg (a : HostAddr) (n : Nat) (v : Word) : (giveBack a n v s).cfg = s.cfg := rfl
@[simp] theorem giveBack_answers (a : HostAddr) (n : Nat) (v : Word) : (giveBack a n v s).answers = s.answers := rfl
@[simp] theorem giveBack_trace (a : HostAddr) (n : Nat) (v : Word) : (giveBack a n v s).trace = s.trace := rfl
@[simp] theorem giveBack_host (a : HostAddr) (n : Nat) (v : Word) : (giveBack a n v s).host = s.host := rfl
@[simp] theorem giveBack_reads (a : HostAddr) (n : Nat) (v : Word) : (giveBack a n v s).reads = s.reads ++ [⟨a, n, v⟩] := rfl

@[simp] theorem withHost_seq (es : List HostEvent) : (s.withHost es).seq = s.seq := rfl
@[simp] theorem withHost_result (es : List HostEvent) : (s.withHost es).result = s.result := rfl
@[simp] theorem withHost_addr7 (es : List HostEvent) : (s.withHost es).addr7 = s.addr7 := rfl
@[simp] theorem withHost_mem (es : List HostEvent) : (s.withHost es).mem = s.mem := rfl
@[simp] theorem withHost_sdb (es : List HostEvent) : (s.withHost es).sdb = s.sdb := rfl
@[simp] theorem withHost_live (es : List HostEvent) : (s.withHost es).live = s.live := rfl
@[simp] theorem withHost_cfg (es : List HostEvent) : (s.withHost es).cfg = s.cfg := rfl
@[simp] theorem withHost_answers (es : List HostEvent) : (s.withHost es).answers = s.answers := rfl
@[simp] theorem withHost_trace (es : List HostEvent) : (s.withHost es).trace = s.trace := rfl
@[simp] theorem withHost_host (es : List HostEvent) : (s.withHost es).host = es := rfl
@[simp] theorem withHost_reads (es : List HostEvent) : (s.withHost es).reads = s.reads := rfl

/-! A read commit, by the status of its `BusRecv`. -/

/-- A `BusRecv` that returns `ok` commits its byte (R142). -/
theorem busRecv_ok {a : Nat} {s : State} (h : (nextAnswer s).ok = true) :
    busRecv a s = { afterCall (.recv (some (nextAnswer s).byte)) .run (takeAnswer s) with
      mem := s.mem.write a (nextAnswer s).byte } := by simp [busRecv, h]

/-- A `BusRecv` that returns `error` commits nothing (R142). -/
theorem busRecv_error {a : Nat} {s : State} (h : (nextAnswer s).ok = false) :
    busRecv a s = afterCall (.recv none) .stopOwed (takeAnswer s) := by simp [busRecv, h]

@[simp] theorem busRecv_result (a : Nat) : (busRecv a s).result = s.result := by unfold busRecv; split <;> rfl
@[simp] theorem busRecv_addr7 (a : Nat) : (busRecv a s).addr7 = s.addr7 := by unfold busRecv; split <;> rfl
@[simp] theorem busRecv_sdb (a : Nat) : (busRecv a s).sdb = s.sdb := by unfold busRecv; split <;> rfl
@[simp] theorem busRecv_live (a : Nat) : (busRecv a s).live = s.live := by unfold busRecv; split <;> rfl
@[simp] theorem busRecv_cfg (a : Nat) : (busRecv a s).cfg = s.cfg := by unfold busRecv; split <;> rfl
@[simp] theorem busRecv_host (a : Nat) : (busRecv a s).host = s.host := by unfold busRecv; split <;> rfl
@[simp] theorem busRecv_reads (a : Nat) : (busRecv a s).reads = s.reads := by unfold busRecv; split <;> rfl
@[simp] theorem busRecv_answers (a : Nat) : (busRecv a s).answers = s.answers.tail := by
  unfold busRecv; split <;> rfl

theorem busRecv_seq (a : Nat) : (busRecv a s).seq = s.seq.advance (phaseAfter (nextAnswer s).ok) := by
  unfold busRecv; split <;> next h => simp [h, phaseAfter]

@[simp] theorem advance_idle (p : Phase) : Seq.idle.advance p = .idle := rfl
@[simp] theorem advance_busy (w : Word) (pos : Nat) (p q : Phase) :
    (Seq.busy w pos q).advance p = .busy w (pos + 1) p := rfl
@[simp] theorem phaseAfter_true : phaseAfter true = .run := rfl
@[simp] theorem phaseAfter_false : phaseAfter false = .stopOwed := rfl

theorem nextAnswer_cons {s : State} {a : BusAnswer} {rest : List BusAnswer} (h : s.answers = a :: rest) :
    nextAnswer s = a := by simp [nextAnswer, h]

end Sys2Proof.Machine
end

