-- ==== Sys2Proof/Laws/Ops.lean ====
section
/-! SUPPORT. What each shared operation can do, said once: addresses, sources, commits, bus calls, and one call of a
procedure. -/

namespace Sys2Proof.Machine

/-! Addresses. -/

theorem shadowAddr_ok {c : Config} {pg : Byte} {off a : Nat} :
    shadowAddr c pg off = .ok a ↔ ∃ p, pageOf c pg = some p ∧ off < p.ext ∧ a = p.base + off := by
  unfold shadowAddr
  cases h : pageOf c pg with
  | none => simp
  | some p => by_cases hlt : off < p.ext <;> simp [hlt, eq_comm]

theorem shadowAddr_of {c : Config} {pg : Byte} {off : Nat} {p : Page} (hp : pageOf c pg = some p) (h : off < p.ext) :
    shadowAddr c pg off = .ok (p.base + off) := shadowAddr_ok.mpr ⟨p, hp, h, rfl⟩

theorem dbufAddr_ok {i a : Nat} : dbufAddr i = .ok a ↔ i < 0xC0 ∧ a = 0x100 + i := by
  unfold dbufAddr
  by_cases h : i < 0xC0 <;> simp [h, eq_comm]

/-- The windows of the pages are places R38 maps to shadow bytes. -/
theorem isShadowAddr_base {p : Page} {off : Nat} (h : off < p.ext) : isShadowAddr (p.base + off) = true := by
  rw [isShadowAddr_iff]
  cases p <;> simp only [Page.ext, Page.base, extOnoff, extPwm, extAbm, extFunc, onoffBase, pwmBase, abmBase, funcBase] at * <;>
    omega

theorem isShadowAddr_of_shadowAddr {c : Config} {pg : Byte} {off a : Nat} (h : shadowAddr c pg off = .ok a) :
    isShadowAddr a = true := by
  obtain ⟨p, -, hlt, rfl⟩ := shadowAddr_ok.mp h
  exact isShadowAddr_base hlt

theorem isDbufAddr_of_dbufAddr {i a : Nat} (h : dbufAddr i = .ok a) : isDbufAddr a = true := by
  obtain ⟨hi, rfl⟩ := dbufAddr_ok.mp h
  rw [isDbufAddr_iff]; omega

theorem not_shadow_of_dbuf {a : Nat} (h : isDbufAddr a = true) : isShadowAddr a = false := by
  rw [isDbufAddr_iff] at h
  rw [← Bool.not_eq_true, isShadowAddr_iff]; omega

/-- Two pages have disjoint windows. -/
theorem base_inj {p q : Page} {m n : Nat} (hm : m < p.ext) (hn : n < q.ext) (h : p.base + m = q.base + n) :
    p = q ∧ m = n := by
  cases p <;> cases q <;>
    simp [Page.ext, Page.base] at * <;> omega

/-! Configurations that keep R10. -/

theorem configOk_iff {c : Config} : configOk c = true ↔
    [c.pOnoff, c.pPwm, c.pAbm, c.pFunc].Nodup ∧ c.regCmd ≠ c.regLock ∧
      [c.fConfig, c.fGcc, c.fSwpu, c.fCspd, c.fReset].Nodup ∧
      (∀ f ∈ [c.fConfig, c.fGcc, c.fSwpu, c.fCspd, c.fReset], f.toNat < 0x12) ∧ c.cfgOsdBit ≤ 7 := by
  simp only [configOk, Bool.and_eq_true, List.all_eq_true, extFunc, and_assoc, decide_eq_true_eq]

/-- The page numbers of such a configuration name their pages. -/
theorem pageOf_number {c : Config} (h : configOk c = true) (p : Page) : pageOf c (p.number c) = some p := by
  have hn := (configOk_iff.mp h).1
  simp only [List.nodup_cons, List.mem_cons, List.not_mem_nil, or_false, not_or] at hn
  obtain ⟨⟨h1, h2, h3⟩, ⟨h4, h5⟩, h6, -⟩ := hn
  cases p <;> simp [pageOf, Page.number, *, Ne.symm h1, Ne.symm h2, Ne.symm h3, Ne.symm h4, Ne.symm h5, Ne.symm h6]

theorem func_lt {c : Config} (h : configOk c = true) :
    c.fConfig.toNat < 0x12 ∧ c.fGcc.toNat < 0x12 ∧ c.fSwpu.toNat < 0x12 ∧ c.fCspd.toNat < 0x12 ∧
      c.fReset.toNat < 0x12 := by
  have := (configOk_iff.mp h).2.2.2.1
  simp only [List.forall_mem_cons] at this
  exact ⟨this.1, this.2.1, this.2.2.1, this.2.2.2.1, this.2.2.2.2.1⟩

/-- A function-page register of such a configuration. -/
theorem shadowAddr_func {c : Config} (h : configOk c = true) {f : Byte} (hf : f.toNat < 0x12) :
    shadowAddr c c.pFunc f.toNat = .ok (0x700 + f.toNat) :=
  shadowAddr_of (pageOf_number h .func) hf

/-! Sources and commits. -/

/-- A source's byte depends on the configuration and the bytes alone. -/
theorem evalSrc_congr {s t : State} (hc : t.cfg = s.cfg) (hm : t.mem = s.mem) (x : Src) :
    evalSrc t x = evalSrc s x := by
  cases x <;> simp [evalSrc, hc, hm]

theorem evalAll_congr {s t : State} (hc : t.cfg = s.cfg) (hm : t.mem = s.mem) (xs : List Src) :
    evalAll t xs = evalAll s xs := by
  induction xs with
  | nil => rfl
  | cons x xs ih => simp [evalAll, ih, evalSrc_congr hc hm]

theorem evalAll_length {s : State} {xs : List Src} {bs : List Byte} (h : evalAll s xs = .ok bs) :
    bs.length = xs.length := by
  induction xs generalizing bs with
  | nil => simp [evalAll] at h; simp [← h]
  | cons x xs ih =>
    simp only [evalAll] at h
    split at h
    · next b bs' h1 h2 => simp only [Except.ok.injEq] at h; subst h; simp [ih h2]
    · simp at h
    · simp at h

/-- What a write commit leaves: it changes the bytes of its offsets only (R141). -/
theorem commitWrite_frame {c : Config} {pg : Byte} {off : Nat} {bs : List Byte} {m m' : Memory}
    (h : commitWrite c pg off bs m = .ok m') {a : Nat}
    (ha : ∀ k, k < bs.length → shadowAddr c pg (off + k) ≠ .ok a) : m'.read a = m.read a := by
  induction bs generalizing off m with
  | nil => simp [commitWrite] at h; simp [h]
  | cons b bs ih =>
    simp only [commitWrite] at h
    split at h
    · next x hx =>
      rw [ih h fun k hk => by simpa [Nat.add_assoc, Nat.add_comm 1 k] using ha (k + 1) (by simpa using hk)]
      refine read_write_ne _ _ fun he => ha 0 (by simp) ?_
      simpa [he] using hx
    · simp at h

/-- What a write commit writes (R141), in the window of its page. -/
theorem commitWrite_ok {c : Config} {pg : Byte} {p : Page} (hp : pageOf c pg = some p) {off : Nat} {bs : List Byte}
    (h : off + bs.length ≤ p.ext) (m : Memory) :
    ∃ m', commitWrite c pg off bs m = .ok m' ∧
      (∀ k, (hk : k < bs.length) → m'.read (p.base + (off + k)) = bs[k]) ∧
      (∀ a, (∀ k, k < bs.length → a ≠ p.base + (off + k)) → m'.read a = m.read a) := by
  induction bs generalizing off m with
  | nil => exact ⟨m, rfl, by simp, by simp⟩
  | cons b bs ih =>
    simp only [List.length_cons] at h
    obtain ⟨m', hm', hw, hf⟩ := ih (off := off + 1) (by omega) (m.write (p.base + off) b)
    refine ⟨m', by simp only [commitWrite, shadowAddr_of hp (show off < p.ext by omega), hm'], ?_, ?_⟩
    · intro k hk
      cases k with
      | zero =>
        rw [hf _ fun k hk => by omega]
        simp
      | succ k =>
        have := hw k (by simpa using hk)
        simpa [Nat.add_assoc, Nat.add_comm 1 k] using this
    · intro a ha
      rw [hf a fun k hk => by
        have := ha (k + 1) (by simpa using hk)
        omega]
      exact read_write_ne _ _ (by simpa using ha 0 (by simp))

theorem commitWrite_one {c : Config} {pg : Byte} {off a : Nat} (h : shadowAddr c pg off = .ok a) (b : Byte) (m : Memory) :
    commitWrite c pg off [b] m = .ok (m.write a b) := by
  simp [commitWrite, h]

/-- A commit keeps the canonical form, and lists no new kind of address. -/
theorem commitWrite_keeps {c : Config} {pg : Byte} {off : Nat} {bs : List Byte} {m m' : Memory}
    (h : commitWrite c pg off bs m = .ok m') (hm : m.wf = true ∧ m.mapped = true) :
    m'.wf = true ∧ m'.mapped = true := by
  induction bs generalizing off m with
  | nil => simp [commitWrite] at h; simpa [← h] using hm
  | cons b bs ih =>
    simp only [commitWrite] at h
    split at h
    · next x hx =>
      exact ih h ⟨wf_write _ _ hm.1, mapped_write _ (by simp [isShadowAddr_of_shadowAddr hx]) hm.2⟩
    · simp at h

/-! One call of a procedure. -/

/-- The bytes that a call may change. -/
def Op.StoresTo (c : Config) (a : Nat) : Op → Prop
  | .start _ .clearShadow => isShadowAddr a = true
  | .start _ .none => False
  | .start _ (.cell _ _) => False
  | .send _ => False
  | .recv pg off => shadowAddr c pg off = .ok a
  | .stop .none => False
  | .stop (.commit pg off data) => ∃ k, k < data.length ∧ shadowAddr c pg (off + k) = .ok a
  | .stop (.toBuf i _ _) => dbufAddr i = .ok a

/-- What the effect of a `BusStop` besides the call can be. -/
theorem applyPost_ok {s t : State} {post : Post} (h : applyPost s post = .ok t) :
    t = { s with mem := t.mem } ∧ (∀ a, ¬ (Op.stop post).StoresTo s.cfg a → t.mem.read a = s.mem.read a) ∧
      (MemoryOk s → MemoryOk t) := by
  cases post with
  | none =>
    obtain rfl : s = t := by simpa [applyPost] using h
    exact ⟨rfl, fun _ _ => rfl, id⟩
  | commit pg off data =>
    simp only [applyPost] at h
    split at h
    · simp at h
    · next bs hbs =>
      split at h
      · simp at h
      · next m hm =>
        obtain rfl : { s with mem := m } = t := by simpa using h
        refine ⟨rfl, fun a ha => commitWrite_frame hm fun k hk he => ha ⟨k, ?_, he⟩, fun hs => commitWrite_keeps hm hs⟩
        rwa [← evalAll_length hbs]
  | toBuf i pg off =>
    simp only [applyPost] at h
    split at h
    · next a d ha hd =>
      obtain rfl : { s with mem := s.mem.write d (s.mem.read a) } = t := by simpa using h
      refine ⟨rfl, fun x hx => read_write_ne _ _ fun he => hx ?_, fun hs => ?_⟩
      · simpa [Op.StoresTo, he] using hd
      · exact ⟨wf_write _ _ hs.1, mapped_write _ (by simp [isDbufAddr_of_dbufAddr hd]) hs.2⟩
    · simp at h
    · simp at h

/-- Everything one call of a procedure can do, if it answers a next state (R22, R67, R113): a cell check fails and ends the
command, or exactly one call joins the trace, `pos` counts it, and only the call's own bytes may change. -/
theorem callStep_next {s t : State} {op : Op} (h : callStep s op = .next t) :
    (∃ d row col, op = .start d (.cell row col) ∧ cellCheck s row col = false ∧ t = complete .addressingError s) ∨
    (∃ e, t.trace = s.trace ++ [e] ∧ t.seq = s.seq.advance (if e.failed then .stopOwed else .run) ∧
      t.result = s.result ∧ KeepsRest s t ∧ (e.failed = true → (nextAnswer s).ok = false ∧ ∀ post, op ≠ .stop post) ∧
      ((nextAnswer s).ok = false → (∀ post, op ≠ .stop post) → e.failed = true) ∧
      (e = .stop ↔ ∃ post, op = .stop post) ∧ (e.isStart = true ↔ ∃ d pre, op = .start d pre) ∧
      (∀ a, ¬ op.StoresTo s.cfg a → t.mem.read a = s.mem.read a) ∧ (MemoryOk s → MemoryOk t)) := by
  have start : ∀ (d : Dir) (u : State), u = s ∨ u = shadowClear s → ∃ e, (busStart d u).trace = s.trace ++ [e] ∧
      (busStart d u).seq = s.seq.advance (if e.failed then .stopOwed else .run) ∧ e.isStart = true ∧
      (e.failed = true ↔ (nextAnswer s).ok = false) := by
    intro d u hu
    have hn : nextAnswer u = nextAnswer s := by rcases hu with rfl | rfl <;> rfl
    have hs : u.seq = s.seq := by rcases hu with rfl | rfl <;> rfl
    have ht : u.trace = s.trace := by rcases hu with rfl | rfl <;> rfl
    refine ⟨.start (addrByte u d) timeoutTicks (nextAnswer s).ok, by simp [hn, ht], ?_, rfl, by simp [BusEvent.failed]⟩
    cases hok : (nextAnswer s).ok <;> simp [hn, hs, hok, BusEvent.failed]
  cases op with
  | start d pre =>
    simp only [callStep, Host.Outcome.next.injEq] at h
    cases pre with
    | none =>
      obtain rfl : busStart d s = t := h
      obtain ⟨e, h1, h2, h3, h4⟩ := start d s (.inl rfl)
      refine .inr ⟨e, h1, h2, rfl, ⟨rfl, rfl, rfl, rfl, rfl, rfl⟩, fun he => ⟨h4.mp he, by simp⟩, fun ho _ => h4.mpr ho, ?_, by simp [h3], fun _ _ => rfl, id⟩
      cases e <;> simp [BusEvent.isStart] at h3 ⊢
    | clearShadow =>
      obtain rfl : busStart d (shadowClear s) = t := h
      obtain ⟨e, h1, h2, h3, h4⟩ := start d (shadowClear s) (.inr rfl)
      refine .inr ⟨e, h1, h2, rfl, ⟨rfl, rfl, rfl, rfl, rfl, rfl⟩, fun he => ⟨h4.mp he, by simp⟩, fun ho _ => h4.mpr ho, ?_, by simp [h3], ?_, ?_⟩
      · cases e <;> simp [BusEvent.isStart] at h3 ⊢
      · intro a ha
        simp [read_clearShadow, show isShadowAddr a = false by simpa [Op.StoresTo] using ha]
      · exact fun hs => ⟨wf_clearShadow hs.1, mapped_clearShadow hs.2⟩
    | cell row col =>
      simp only [startStep] at h
      split at h
      · obtain rfl : busStart d s = t := h
        obtain ⟨e, h1, h2, h3, h4⟩ := start d s (.inl rfl)
        refine .inr ⟨e, h1, h2, rfl, ⟨rfl, rfl, rfl, rfl, rfl, rfl⟩, fun he => ⟨h4.mp he, by simp⟩, fun ho _ => h4.mpr ho, ?_, by simp [h3], fun _ _ => rfl, id⟩
        cases e <;> simp [BusEvent.isStart] at h3 ⊢
      · next hc => exact .inl ⟨d, row, col, rfl, by simpa using hc, h.symm⟩
  | send x =>
    simp only [callStep] at h
    split at h
    · next b hb =>
      obtain rfl : busSend b s = t := by simpa using h
      refine .inr ⟨.send b (nextAnswer s).ok, rfl, ?_, rfl, ⟨rfl, rfl, rfl, rfl, rfl, rfl⟩, by simp [BusEvent.failed],
        by simp [BusEvent.failed], by simp, by simp [BusEvent.isStart], fun _ _ => rfl, id⟩
      cases hok : (nextAnswer s).ok <;> simp [BusEvent.failed, hok]
    · simp at h
  | recv pg off =>
    simp only [callStep] at h
    split at h
    · next a ha =>
      obtain rfl : busRecv a s = t := by simpa using h
      cases hok : (nextAnswer s).ok with
      | true =>
        refine .inr ⟨.recv (some (nextAnswer s).byte), by simp [busRecv_ok hok], by simp [busRecv_ok hok, BusEvent.failed], by simp,
          by simp [KeepsRest], by simp [BusEvent.failed], by simp, by simp, by simp [BusEvent.isStart], ?_, ?_⟩
        · intro x hx
          rw [busRecv_ok hok]
          exact read_write_ne _ _ fun he => hx (by simpa [Op.StoresTo, he] using ha)
        · intro hs
          rw [busRecv_ok hok]
          exact ⟨wf_write _ _ hs.1, mapped_write _ (by simp [isShadowAddr_of_shadowAddr ha]) hs.2⟩
      | false =>
        refine .inr ⟨.recv none, by simp [busRecv_error hok], by simp [busRecv_error hok, BusEvent.failed], by simp,
          by simp [KeepsRest], fun _ => ⟨rfl, by simp⟩, by simp [BusEvent.failed], by simp, by simp [BusEvent.isStart], ?_, ?_⟩
        · intro x _; simp [busRecv_error hok]
        · intro hs; rw [busRecv_error hok]; exact hs
    · simp at h
  | stop post =>
    simp only [callStep] at h
    split at h
    · next u hu =>
      obtain rfl : busStop .run u = t := by simpa using h
      obtain ⟨h1, h2, h3⟩ := applyPost_ok hu
      refine .inr ⟨.stop, by rw [h1]; simp, by rw [h1]; simp [BusEvent.failed], by rw [h1]; simp, ?_, by simp [BusEvent.failed],
        by simp, by simp, by simp [BusEvent.isStart], h2, h3⟩
      rw [h1]; exact ⟨rfl, rfl, rfl, rfl, rfl, rfl⟩
    · simp at h

/-- A call whose shadow and buffer places exist does not fault. -/
def Op.DomainOk (c : Config) : Op → Prop
  | .start _ _ => True
  | .send x => ∀ s : State, s.cfg = c → ∃ b, evalSrc s x = .ok b
  | .recv pg off => ∃ a, shadowAddr c pg off = .ok a
  | .stop post => ∀ s : State, s.cfg = c → ∃ t, applyPost s post = .ok t

theorem callStep_total {s : State} {op : Op} (h : op.DomainOk s.cfg) : ∃ t, callStep s op = .next t := by
  cases op with
  | start d pre => exact ⟨_, rfl⟩
  | send x => obtain ⟨b, hb⟩ := h s rfl; exact ⟨_, by simp only [callStep, hb]; rfl⟩
  | recv pg off => obtain ⟨a, ha⟩ := h; exact ⟨_, by simp only [callStep, ha]; rfl⟩
  | stop post => obtain ⟨t, ht⟩ := h s rfl; exact ⟨_, by simp only [callStep, ht]; rfl⟩

end Sys2Proof.Machine
end

