-- ==== Sys2Proof/Laws/Exec.lean ====
section
/-! SUPPORT. What one step of a command can do, said once, and the shape of every command's procedure: its length, the places it
writes, and that its places exist. -/

namespace Sys2Proof.Machine

/-- Every meaning is one step of the command's procedure. -/
theorem exec_eq (i : Instr) (s : State) : exec i s = runCommand i (fun c => opsOf c i) s := by cases i <;> rfl

theorem runCommand_busy {i : Instr} {ops : Config → List Op} {s : State} {w : Word} {pos : Nat} {ph : Phase}
    (h : s.seq = .busy w pos ph) :
    runCommand i ops s =
      if admits s.cfg i then sequencer (ops s.cfg) s else .next (raiseError .protocolError s) := by
  simp [runCommand, h]

/-- The step of an admitted command while no call has failed. -/
theorem exec_run {i : Instr} {s : State} {w : Word} {pos : Nat} (ha : admits s.cfg i = true)
    (h : s.seq = .busy w pos .run) :
    exec i s = match (opsOf s.cfg i)[pos]? with
      | some op => callStep s op
      | none => .next (complete .ok s) := by
  rw [exec_eq, runCommand_busy h, if_pos ha, sequencer, h]
  all_goals rfl

theorem exec_stopOwed {i : Instr} {s : State} {w : Word} {pos : Nat} (ha : admits s.cfg i = true)
    (h : s.seq = .busy w pos .stopOwed) : exec i s = .next (busStop .raising s) := by
  rw [exec_eq, runCommand_busy h, if_pos ha, sequencer, h]

theorem exec_raising {i : Instr} {s : State} {w : Word} {pos : Nat} (ha : admits s.cfg i = true)
    (h : s.seq = .busy w pos .raising) : exec i s = .next (complete .busError s) := by
  rw [exec_eq, runCommand_busy h, if_pos ha, sequencer, h]
  all_goals rfl

theorem exec_notAdmitted {i : Instr} {s : State} {w : Word} {pos : Nat} {ph : Phase} (ha : admits s.cfg i = false)
    (h : s.seq = .busy w pos ph) : exec i s = .next (complete .protocolError s) := by
  rw [exec_eq, runCommand_busy h, ha]; rfl

theorem exec_idle {i : Instr} {s : State} (h : s.seq = .idle) : exec i s = .refused .noCommand := by
  rw [exec_eq, runCommand, h]

/-- Everything a step of a command can do, if it answers a next state. -/
theorem exec_next {i : Instr} {s t : State} (h : exec i s = .next t) :
    ∃ w pos ph, s.seq = .busy w pos ph ∧
      ((admits s.cfg i = false ∧ t = complete .protocolError s) ∨
       (admits s.cfg i = true ∧ ph = .run ∧ ∃ op, (opsOf s.cfg i)[pos]? = some op ∧ callStep s op = .next t) ∨
       (admits s.cfg i = true ∧ ph = .run ∧ (opsOf s.cfg i)[pos]? = none ∧ t = complete .ok s) ∨
       (admits s.cfg i = true ∧ ph = .stopOwed ∧ t = busStop .raising s) ∨
       (admits s.cfg i = true ∧ ph = .raising ∧ t = complete .busError s)) := by
  cases hseq : s.seq with
  | idle => rw [exec_idle hseq] at h; simp at h
  | busy w pos ph =>
    refine ⟨w, pos, ph, rfl, ?_⟩
    cases ha : admits s.cfg i with
    | false =>
      rw [exec_notAdmitted ha hseq] at h
      exact .inl ⟨rfl, by simpa using h.symm⟩
    | true =>
      cases ph with
      | run =>
        rw [exec_run ha hseq] at h
        cases hop : (opsOf s.cfg i)[pos]? with
        | some op => rw [hop] at h; exact .inr (.inl ⟨rfl, rfl, op, rfl, h⟩)
        | none => rw [hop] at h; exact .inr (.inr (.inl ⟨rfl, rfl, rfl, by simpa using h.symm⟩))
      | stopOwed =>
        rw [exec_stopOwed ha hseq] at h
        exact .inr (.inr (.inr (.inl ⟨rfl, rfl, by simpa using h.symm⟩)))
      | raising =>
        rw [exec_raising ha hseq] at h
        exact .inr (.inr (.inr (.inr ⟨rfl, rfl, by simpa using h.symm⟩)))

/-! Lengths (R126, R169). -/

@[simp] theorem length_directWrite (r v : Byte) : (directWrite r v).length = 4 := rfl
@[simp] theorem length_pageSelect (c : Config) (pg : Byte) : (pageSelect c pg).length = 8 := rfl
@[simp] theorem length_readAt (pg : Byte) (off : Nat) (b : Option Nat) : (readAt pg off b).length = 6 := rfl
@[simp] theorem length_writeOne (c : Config) (pg : Byte) (off : Nat) (v : Src) : (writeOne c pg off v).length = 12 := rfl
@[simp] theorem length_readBurst (c : Config) (pg : Byte) (off n : Nat) (b : Bool) :
    (readBurst c pg off n b).length = 8 + 6 * n := by
  simp [readBurst, List.length_flatMap, Nat.mul_comm]
@[simp] theorem length_writeBurst (c : Config) (pg : Byte) (off : Nat) (d : List Src) :
    (writeBurst c pg off d).length = 11 + d.length := by
  simp [writeBurst]; omega
@[simp] theorem length_withPre (pre : Pre) (ops : List Op) : (withPre pre ops).length = ops.length := by
  unfold withPre; split <;> simp
@[simp] theorem length_lightCell (c : Config) (pg row col : Byte) (b g r : Src) :
    (lightCell c pg row col b g r).length = 36 := by simp [lightCell]
@[simp] theorem length_halfPos (c : Config) (half : Byte) : (halfPos c half).length = 5 := by
  unfold halfPos; split <;> simp

/-- A command's procedure has the call count of R126 and R169. -/
theorem length_opsOf (c : Config) (i : Instr) : (opsOf c i).length = callCount i := by
  cases i with
  | reset =>
    simp only [opsOf, opsReset, List.length_append, length_withPre, length_readBurst, length_writeOne,
      length_writeBurst, List.length_map, Vector.length_toList, List.length_replicate, callCount]
    rfl
  | _ => simp [opsOf, callCount, opsRd1, opsRdb, opsWr1, opsWrb, opsWrd, opsBright, opsSet, opsSetall, opsAbmset,
      opsChktrig, opsCheck, List.length_flatMap]

/-! The calls of a procedure, one property at a time: a property that holds of every call of the pieces holds of the whole. -/

theorem forall_pageSelect {P : Op → Prop} {c : Config} {pg : Byte} (hs : P (.start .write .none))
    (hb : ∀ b, P (.send (.lit b))) (he : P (.stop .none)) : ∀ op ∈ pageSelect c pg, P op := by
  simp [pageSelect, directWrite, hs, hb, he]

theorem forall_writeOne {P : Op → Prop} {c : Config} {pg : Byte} {off : Nat} {v : Src} (hs : P (.start .write .none))
    (hb : ∀ b, P (.send (.lit b))) (he : P (.stop .none)) (hv : P (.send v)) (hc : P (.stop (.commit pg off [v]))) :
    ∀ op ∈ writeOne c pg off v, P op := by
  simp [writeOne, pageSelect, directWrite, hs, hb, he, hv, hc]

theorem forall_writeBurst {P : Op → Prop} {c : Config} {pg : Byte} {off : Nat} {d : List Src}
    (hs : P (.start .write .none)) (hb : ∀ b, P (.send (.lit b))) (he : P (.stop .none)) (hv : ∀ v ∈ d, P (.send v))
    (hc : P (.stop (.commit pg off d))) : ∀ op ∈ writeBurst c pg off d, P op := by
  simp only [writeBurst, List.mem_append, List.mem_map]
  rintro op (((h | h) | ⟨v, hv', rfl⟩) | h)
  · exact forall_pageSelect hs hb he op h
  · rcases (by simpa using h) with rfl | rfl
    · exact hs
    · exact hb _
  · exact hv v hv'
  · obtain rfl : op = _ := by simpa using h
    exact hc

theorem forall_readBurst {P : Op → Prop} {c : Config} {pg : Byte} {off n : Nat} {b : Bool}
    (hs : ∀ d, P (.start d .none)) (hb : ∀ b, P (.send (.lit b))) (he : P (.stop .none))
    (hr : ∀ k, k < n → P (.recv pg (off + k))) (ht : ∀ k, k < n → b = true → P (.stop (.toBuf k pg (off + k)))) :
    ∀ op ∈ readBurst c pg off n b, P op := by
  simp only [readBurst, List.mem_append, List.mem_flatMap, List.mem_range]
  rintro op (h | ⟨k, hk, h⟩)
  · exact forall_pageSelect (hs _) hb he op h
  · cases b with
    | false =>
      rcases (by simpa [readAt] using h) with rfl | rfl | rfl | rfl | rfl | rfl
      · exact hs _
      · exact hb _
      · exact he
      · exact hs _
      · exact hr k hk
      · exact he
    | true =>
      rcases (by simpa [readAt] using h) with rfl | rfl | rfl | rfl | rfl | rfl
      · exact hs _
      · exact hb _
      · exact he
      · exact hs _
      · exact hr k hk
      · exact ht k hk rfl

theorem forall_withPre {P : Op → Prop} {pre : Pre} {ops : List Op} (hs : ∀ d, P (.start d pre)) (h : ∀ op ∈ ops, P op) :
    ∀ op ∈ withPre pre ops, P op := by
  unfold withPre
  split
  · next d q rest =>
    intro op hop
    rcases List.mem_cons.mp hop with rfl | hop
    · exact hs _
    · exact h op (by simp [hop])
  · exact h

theorem forall_lightCell {P : Op → Prop} {c : Config} {pg row col : Byte} {b g r : Src} (hs : ∀ d, P (.start d .none))
    (hp : ∀ d, P (.start d (.cell row col))) (hl : ∀ b, P (.send (.lit b))) (he : P (.stop .none))
    (hv : ∀ v, v = b ∨ v = g ∨ v = r → P (.send v))
    (hc : ∀ k v, k < 3 → (v = b ∨ v = g ∨ v = r) → P (.stop (.commit pg (pwmOffset row.toNat col.toNat k) [v]))) :
    ∀ op ∈ lightCell c pg row col b g r, P op := by
  simp only [lightCell, List.mem_append]
  rintro op ((h | h) | h)
  · exact forall_withPre hp (forall_writeOne (hs _) hl he (hv b (by simp)) (hc 0 b (by omega) (by simp))) op h
  · exact forall_writeOne (hs _) hl he (hv g (by simp)) (hc 1 g (by omega) (by simp)) op h
  · exact forall_writeOne (hs _) hl he (hv r (by simp)) (hc 2 r (by omega) (by simp)) op h

end Sys2Proof.Machine
end

