-- ==== Sys2Proof/Laws/Run.lean ====
section
/-! SUPPORT. Runs of a procedure whose calls all return `ok`, one procedure at a time; a command's run is put together from
them. -/

namespace Sys2Proof.Machine

/-- Making the calls `ops` one after another leads from `s` to `t`, with no failure on the way. -/
def Runs : List Op → State → State → Prop
  | [], s, t => s = t
  | op :: ops, s, u => ∃ t, callStep s op = .next t ∧ t.seq = s.seq.advance .run ∧ Runs ops t u

theorem runs_append {xs ys : List Op} {s t u : State} (h : Runs xs s t) (h' : Runs ys t u) : Runs (xs ++ ys) s u := by
  induction xs generalizing s with
  | nil => obtain rfl : s = t := h; exact h'
  | cons x xs ih =>
    obtain ⟨v, h1, h2, h3⟩ := h
    exact ⟨v, h1, h2, ih h3⟩

theorem callStep_cfg {s t : State} {op : Op} (h : callStep s op = .next t) : t.cfg = s.cfg := by
  rcases callStep_next h with ⟨-, -, -, -, -, rfl⟩ | ⟨e, -, -, -, hk, -⟩
  · rfl
  · exact hk.2.2.2.1

theorem execTimes_succ {i : Instr} {s t : State} (n : Nat) (h : exec i s = .next t) :
    execTimes (n + 1) i s = execTimes n i t := by simp [execTimes, h]

/-- The steps of a command are the calls of its procedure, from any position. -/
theorem execTimes_runs {i : Instr} {pre ops post : List Op} {s t : State} {w : Word} (n : Nat)
    (hops : opsOf s.cfg i = pre ++ ops ++ post) (ha : admits s.cfg i = true)
    (hseq : s.seq = .busy w pre.length .run) (h : Runs ops s t) :
    execTimes (ops.length + n) i s = execTimes n i t ∧ t.seq = .busy w (pre.length + ops.length) .run ∧ t.cfg = s.cfg := by
  induction ops generalizing s pre with
  | nil => obtain rfl : s = t := h; simp [hseq]
  | cons op ops ih =>
    obtain ⟨u, h1, h2, h3⟩ := h
    have hop : (opsOf s.cfg i)[pre.length]? = some op := by simp [hops]
    have hex : exec i s = .next u := by rw [exec_run ha hseq, hop]; exact h1
    have hc := callStep_cfg h1
    rw [hseq, advance_busy] at h2
    obtain ⟨g1, g2, g3⟩ := ih (pre := pre ++ [op]) (s := u) (by simp [hc, hops]) (by rwa [hc]) (by simpa using h2) h3
    refine ⟨?_, ?_, g3.trans hc⟩
    · rw [List.length_cons, show ops.length + 1 + n = (ops.length + n) + 1 by omega, execTimes_succ _ hex, g1]
    · rw [g2]; simp; omega

/-- A command whose calls all go well ends with `OK` in one more step. -/
theorem execTimes_complete {i : Instr} {s t : State} {w : Word} (ha : admits s.cfg i = true)
    (hseq : s.seq = .busy w 0 .run) (h : Runs (opsOf s.cfg i) s t) :
    execTimes (callCount i + 1) i s = .next (complete .ok t) := by
  obtain ⟨h1, h2, h3⟩ := execTimes_runs (pre := []) (post := []) 1 (by simp) ha hseq h
  rw [length_opsOf] at h1 h2
  rw [h1, execTimes, exec_run (by rwa [h3]) h2]
  simp [h3, execTimes, length_opsOf]

/-- The state after some calls of a command: only the position, the trace, the answers left and the bytes differ. -/
def after (s : State) (w : Word) (pos : Nat) (tr : List BusEvent) (rest : List BusAnswer) (m : Memory) : State :=
  { s with seq := .busy w pos .run, trace := s.trace ++ tr, answers := rest, mem := m }

section
variable (s : State) (w : Word) (pos : Nat) (tr : List BusEvent) (rest : List BusAnswer) (m : Memory)
@[simp] theorem after_seq : (after s w pos tr rest m).seq = .busy w pos .run := rfl
@[simp] theorem after_cfg : (after s w pos tr rest m).cfg = s.cfg := rfl
@[simp] theorem after_mem : (after s w pos tr rest m).mem = m := rfl
@[simp] theorem after_answers : (after s w pos tr rest m).answers = rest := rfl
@[simp] theorem after_trace : (after s w pos tr rest m).trace = s.trace ++ tr := rfl
@[simp] theorem after_addr7 : (after s w pos tr rest m).addr7 = s.addr7 := rfl
@[simp] theorem after_addrByte (d : Dir) : addrByte (after s w pos tr rest m) d = addrByte s d := rfl
@[simp] theorem after_after (pos' : Nat) (tr' : List BusEvent) (rest' : List BusAnswer) (m' : Memory) :
    after (after s w pos tr rest m) w pos' tr' rest' m' = after s w pos' (tr ++ tr') rest' m' := by
  simp [after]
theorem selectTrace_after (pg : Byte) : selectTrace (after s w pos tr rest m) pg = selectTrace s pg := rfl
theorem writeTrace_after (off : Nat) (bs : List Byte) : writeTrace (after s w pos tr rest m) off bs = writeTrace s off bs := rfl
theorem readTrace_after (off : Nat) (b : Byte) : readTrace (after s w pos tr rest m) off b = readTrace s off b := rfl
theorem writeOneTrace_after (pg : Byte) (off : Nat) (b : Byte) :
    writeOneTrace (after s w pos tr rest m) pg off b = writeOneTrace s pg off b := rfl
theorem keepsRest_after : KeepsRest s (after s w pos tr rest m) := ⟨rfl, rfl, rfl, rfl, rfl, rfl⟩
end

section
variable {s : State} {w : Word} {pos : Nat} {a : BusAnswer} {as rest : List BusAnswer}

/-- `BusStart` answered `ok`. -/
theorem callStep_start (d : Dir) (hs : s.seq = .busy w pos .run) (ha : s.answers = a :: rest) (hok : a.ok = true) :
    callStep s (.start d .none) = .next (after s w (pos + 1) [.start (addrByte s d) 10 true] rest s.mem) := by
  have := nextAnswer_cons ha
  simp [callStep, startStep, busStart, afterCall, takeAnswer, after, this, hok, hs, ha]

/-- A `BusStart` after a cell check that passes. -/
theorem callStep_start_cell (d : Dir) {row col : Byte} (hc : cellCheck s row col = true) :
    callStep s (.start d (.cell row col)) = callStep s (.start d .none) := by
  simp [callStep, startStep, hc]

/-- The first `BusStart` of `RESET`. -/
theorem callStep_start_clear (d : Dir) :
    callStep s (.start d .clearShadow) = callStep (shadowClear s) (.start d .none) := rfl

/-- `BusSend` answered `ok`. -/
theorem callStep_send {x : Src} {b : Byte} (hs : s.seq = .busy w pos .run) (ha : s.answers = a :: rest) (hok : a.ok = true)
    (hx : evalSrc s x = .ok b) :
    callStep s (.send x) = .next (after s w (pos + 1) [.send b true] rest s.mem) := by
  have := nextAnswer_cons ha
  simp [callStep, hx, busSend, afterCall, takeAnswer, after, this, hok, hs, ha]

/-- `BusRecv` answered `ok`. -/
theorem callStep_recv {pg : Byte} {off x : Nat} (hs : s.seq = .busy w pos .run) (ha : s.answers = a :: rest)
    (hok : a.ok = true) (hx : shadowAddr s.cfg pg off = .ok x) :
    callStep s (.recv pg off) = .next (after s w (pos + 1) [.recv (some a.byte)] rest (s.mem.write x a.byte)) := by
  have := nextAnswer_cons ha
  simp [callStep, hx, busRecv, afterCall, takeAnswer, after, this, hok, hs, ha]

/-- `BusStop` with its effect. -/
theorem callStep_stop {post : Post} {m : Memory} (hs : s.seq = .busy w pos .run)
    (hp : applyPost s post = .ok { s with mem := m }) :
    callStep s (.stop post) = .next (after s w (pos + 1) [.stop] s.answers m) := by
  simp [callStep, hp, busStop, afterCall, after, hs]

theorem runs_cons {op : Op} {ops : List Op} {t u : State} (h : callStep s op = .next t)
    (hseq : t.seq = s.seq.advance .run) (h' : Runs ops t u) : Runs (op :: ops) s u := ⟨t, h, hseq, h'⟩

theorem applyPost_none : applyPost s .none = .ok { s with mem := s.mem } := rfl

/-- `DirectWrite` (R114). -/
theorem runs_directWrite (r v : Byte) (hs : s.seq = .busy w pos .run) (ha : s.answers = as ++ rest)
    (hl : as.length = 3) (hok : ∀ a ∈ as, a.ok = true) :
    Runs (directWrite r v) s (after s w (pos + 4)
      [.start (addrByte s .write) 10 true, .send r true, .send v true, .stop] rest s.mem) := by
  obtain ⟨a1, a2, a3, rfl⟩ := List.length_eq_three.mp hl
  refine runs_cons (callStep_start _ hs ha (hok _ (by simp))) (by simp [hs]) ?_
  refine runs_cons (callStep_send rfl rfl (hok _ (by simp)) rfl) (by simp) ?_
  refine runs_cons (callStep_send rfl rfl (hok _ (by simp)) rfl) (by simp) ?_
  refine runs_cons (callStep_stop rfl applyPost_none) (by simp) ?_
  simp [Runs]

/-- `PageSelect` (R115). -/
theorem runs_pageSelect (pg : Byte) (hs : s.seq = .busy w pos .run) (ha : s.answers = as ++ rest)
    (hl : as.length = 6) (hok : ∀ a ∈ as, a.ok = true) :
    Runs (pageSelect s.cfg pg) s (after s w (pos + 8) (selectTrace s pg) rest s.mem) := by
  have h1 := runs_directWrite (rest := as.drop 3 ++ rest) s.cfg.regLock s.cfg.unlockKey hs
    (as := as.take 3) (by simp [ha, ← List.append_assoc]) (by simp [hl]) (fun a h => hok a (List.mem_of_mem_take h))
  have h2 := runs_directWrite (s := after s w (pos + 4) [.start (addrByte s .write) 10 true, .send s.cfg.regLock true,
      .send s.cfg.unlockKey true, .stop] (as.drop 3 ++ rest) s.mem) (as := as.drop 3) (rest := rest) s.cfg.regCmd pg rfl rfl
    (by simp [hl]) (fun a h => hok a (List.mem_of_mem_drop h))
  have := runs_append h1 h2
  simpa [pageSelect, selectTrace] using this

/-- A source whose byte is the same in every state with these bytes and this configuration. -/
theorem evalSrc_after {x : Src} {tr : List BusEvent} : evalSrc (after s w pos tr rest s.mem) x = evalSrc s x :=
  evalSrc_congr rfl rfl x

theorem applyPost_commit {pg : Byte} {off : Nat} {data : List Src} {bs : List Byte} {m : Memory}
    (hd : evalAll s data = .ok bs) (hm : commitWrite s.cfg pg off bs s.mem = .ok m) :
    applyPost s (.commit pg off data) = .ok { s with mem := m } := by simp [applyPost, hd, hm]

theorem evalAll_one {x : Src} {b : Byte} (h : evalSrc s x = .ok b) : evalAll s [x] = .ok [b] := by
  simp [evalAll, h]

/-- The four calls that end `WriteOne` (R119). -/
theorem runs_writeTail {pg : Byte} {off x : Nat} {v : Src} {b : Byte} (hs : s.seq = .busy w pos .run)
    (ha : s.answers = as ++ rest) (hl : as.length = 3) (hok : ∀ a ∈ as, a.ok = true)
    (hx : shadowAddr s.cfg pg off = .ok x) (hv : evalSrc s v = .ok b) :
    Runs [.start .write .none, .send (.lit (BitVec.ofNat 8 off)), .send v, .stop (.commit pg off [v])] s
      (after s w (pos + 4) (writeTrace s off [b]) rest (s.mem.write x b)) := by
  obtain ⟨a1, a2, a3, rfl⟩ := List.length_eq_three.mp hl
  refine runs_cons (callStep_start _ hs ha (hok _ (by simp))) (by simp [hs]) ?_
  refine runs_cons (callStep_send rfl rfl (hok _ (by simp)) rfl) (by simp) ?_
  refine runs_cons (callStep_send rfl rfl (hok _ (by simp)) ((evalSrc_congr rfl rfl v).trans hv)) (by simp) ?_
  refine runs_cons (callStep_stop rfl
    (applyPost_commit (evalAll_one ((evalSrc_congr rfl rfl v).trans hv)) (commitWrite_one hx b s.mem))) (by simp) ?_
  simp [Runs, writeTrace]

/-- `WriteOne` (R119). -/
theorem runs_writeOne {pg : Byte} {off x : Nat} {v : Src} {b : Byte} (hs : s.seq = .busy w pos .run)
    (ha : s.answers = as ++ rest) (hl : as.length = 9) (hok : ∀ a ∈ as, a.ok = true)
    (hx : shadowAddr s.cfg pg off = .ok x) (hv : evalSrc s v = .ok b) :
    Runs (writeOne s.cfg pg off v) s (after s w (pos + 12) (writeOneTrace s pg off b) rest (s.mem.write x b)) := by
  have h1 := runs_pageSelect (as := as.take 6) (rest := as.drop 6 ++ rest) pg hs (by simp [ha, ← List.append_assoc])
    (by simp [hl]) (fun a h => hok a (List.mem_of_mem_take h))
  have h2 := runs_writeTail (s := after s w (pos + 8) (selectTrace s pg) (as.drop 6 ++ rest) s.mem) (as := as.drop 6)
    (rest := rest) (pg := pg) (off := off) (x := x) (v := v) (b := b) rfl rfl (by simp [hl])
    (fun a h => hok a (List.mem_of_mem_drop h)) hx (evalSrc_after.trans hv)
  have := runs_append h1 h2
  simpa [writeOne, writeOneTrace, writeTrace_after] using this

/-- The bytes after a read pair: the byte received goes to the shadow byte at `x`, and to `DBUF[i]` when `buf = some i`. -/
def readAtMem (m : Memory) (x : Nat) (buf : Option Nat) (b : Byte) : Memory :=
  match buf with
  | some i => (m.write x b).write (0x100 + i) b
  | none => m.write x b

/-- `ReadAt` (R117), with the byte to `DBUF[i]` when `buf = some i` (R118). -/
theorem runs_readAt {pg : Byte} {off x : Nat} {buf : Option Nat} (hs : s.seq = .busy w pos .run)
    (ha : s.answers = as ++ rest) (hl : as.length = 4) (hok : ∀ a ∈ as, a.ok = true)
    (hx : shadowAddr s.cfg pg off = .ok x) (hb : ∀ i, buf = some i → i < 0xC0) :
    Runs (readAt pg off buf) s (after s w (pos + 6) (readTrace s off (answerByte as 3)) rest
      (readAtMem s.mem x buf (answerByte as 3))) := by
  obtain ⟨a1, a2, a3, a4, rfl⟩ : ∃ a1 a2 a3 a4, as = [a1, a2, a3, a4] := by
    match as, hl with
    | [a1, a2, a3, a4], _ => exact ⟨a1, a2, a3, a4, rfl⟩
  refine runs_cons (callStep_start _ hs ha (hok _ (by simp))) (by simp [hs]) ?_
  refine runs_cons (callStep_send rfl rfl (hok _ (by simp)) rfl) (by simp) ?_
  refine runs_cons (callStep_stop rfl applyPost_none) (by simp) ?_
  refine runs_cons (callStep_start _ rfl rfl (hok _ (by simp))) (by simp) ?_
  refine runs_cons (callStep_recv rfl rfl (hok _ (by simp)) hx) (by simp) ?_
  cases buf with
  | none =>
    refine runs_cons (callStep_stop rfl applyPost_none) (by simp) ?_
    simp [Runs, readTrace, answerByte, readAtMem]
  | some i =>
    have hd : dbufAddr i = .ok (0x100 + i) := dbufAddr_ok.mpr ⟨hb i rfl, rfl⟩
    refine runs_cons (callStep_stop (m := (s.mem.write x a4.byte).write (0x100 + i) a4.byte) rfl ?_) (by simp) ?_
    · simp [applyPost, hx, hd]
    · simp [Runs, readTrace, answerByte, readAtMem]

end

end Sys2Proof.Machine
end

