-- ==== Sys2Proof/Laws/Burst.lean ====
section
/-! SUPPORT. Runs of the burst procedures (40_protocol_engine.md R118, R120) and of a cell (42_backlight_sequences.md R161) when
every call returns `ok`. -/

namespace Sys2Proof.Machine

theorem answerByte_drop (as : List BusAnswer) (n k : Nat) : answerByte (as.drop n) k = answerByte as (n + k) := by
  simp [answerByte]

theorem answerByte_take (as : List BusAnswer) {n k : Nat} (h : k < n) : answerByte (as.take n) k = answerByte as k := by
  simp [answerByte, h]

theorem page_base_ge (p : Page) : 0x400 ≤ p.base := by cases p <;> simp [Page.base]

section
variable {s : State} {w : Word} {pos : Nat} {as rest : List BusAnswer}

/-- The bytes of a burst read: each shadow byte, and each `DBUF` byte when the burst fills `DBUF`, is the byte received; every
other byte keeps its value. -/
def BurstRead (p : Page) (off n first : Nat) (toBuf : Bool) (as : List BusAnswer) (m m' : Memory) : Prop :=
  (∀ k, k < n → m'.read (p.base + (off + k)) = answerByte as (first + 4 * k)) ∧
  (toBuf = true → ∀ k, k < n → m'.read (0x100 + k) = answerByte as (first + 4 * k)) ∧
  (∀ a, (∀ k, k < n → a ≠ p.base + (off + k) ∧ (toBuf = true → a ≠ 0x100 + k)) → m'.read a = m.read a)

/-- The read pairs of a burst. -/
theorem runs_readPairs {pg : Byte} {p : Page} {off n : Nat} {toBuf : Bool} (hp : pageOf s.cfg pg = some p)
    (hn : off + n ≤ p.ext) (hs : s.seq = .busy w pos .run) (ha : s.answers = as ++ rest) (hl : as.length = 4 * n)
    (hok : ∀ a ∈ as, a.ok = true) :
    ∃ m, Runs ((List.range n).flatMap fun i => readAt pg (off + i) (if toBuf then some i else none)) s
      (after s w (pos + 6 * n) ((List.range n).flatMap fun k => readTrace s (off + k) (answerByte as (3 + 4 * k))) rest m) ∧
      BurstRead p off n 3 toBuf as s.mem m := by
  induction n generalizing as rest with
  | zero =>
    obtain rfl : as = [] := List.length_eq_zero_iff.mp (by simpa using hl)
    refine ⟨s.mem, ?_, by simp [BurstRead]⟩
    simp only [List.nil_append] at ha
    simp [Runs, after, ← ha, ← hs]
  | succ n ih =>
    have hpx : n < p.ext ∧ n < 0xC0 := by
      have : p.ext ≤ 0xC0 := by cases p <;> simp [Page.ext]
      omega
    obtain ⟨m, h1, h2⟩ := ih (as := as.take (4 * n)) (rest := as.drop (4 * n) ++ rest) (by omega)
      (by simp [ha, ← List.append_assoc]) (by simp; omega) (fun a h => hok a (List.mem_of_mem_take h))
    have hx : shadowAddr s.cfg pg (off + n) = .ok (p.base + (off + n)) := shadowAddr_of hp (by omega)
    have h3 := runs_readAt (s := after s w (pos + 6 * n) ((List.range n).flatMap fun k =>
        readTrace s (off + k) (answerByte (as.take (4 * n)) (3 + 4 * k))) (as.drop (4 * n) ++ rest) m)
      (as := as.drop (4 * n)) (rest := rest) (buf := if toBuf then some n else none) rfl rfl (by simp; omega)
      (fun a h => hok a (List.mem_of_mem_drop h)) hx (by cases toBuf <;> simp; omega)
    have htr : ∀ k ∈ List.range n, readTrace s (off + k) (answerByte (as.take (4 * n)) (3 + 4 * k)) =
        readTrace s (off + k) (answerByte as (3 + 4 * k)) := by
      intro k hk
      rw [answerByte_take _ (by have := List.mem_range.mp hk; omega)]
    have h4 := runs_append h1 h3
    rw [after_after, List.flatMap_congr htr, after_mem] at h4
    have hb := page_base_ge p
    have hlast : answerByte (as.drop (4 * n)) 3 = answerByte as (3 + 4 * n) := by
      rw [answerByte_drop, Nat.add_comm]
    refine ⟨readAtMem m (p.base + (off + n)) (if toBuf then some n else none) (answerByte (as.drop (4 * n)) 3), ?_, ?_⟩
    · rw [List.range_succ, List.flatMap_append, List.flatMap_append]
      simpa [readTrace_after, answerByte_drop, Nat.add_comm 3, Nat.mul_add, Nat.add_assoc] using h4
    · obtain ⟨g1, g2, g3⟩ := h2
      refine ⟨fun k hk => ?_, fun ht k hk => ?_, fun a ha' => ?_⟩
      · have hne : p.base + (off + k) ≠ 0x100 + n := by omega
        rcases Nat.lt_succ_iff_lt_or_eq.mp hk with hk | rfl
        · have hne' : p.base + (off + k) ≠ p.base + (off + n) := by omega
          have := g1 k hk
          rw [answerByte_take _ (by omega)] at this
          cases toBuf <;> simp [readAtMem, read_write, hne, this] <;> omega
        · cases toBuf <;> simp [readAtMem, read_write, hne, hlast]
      · subst ht
        have hne : 0x100 + k ≠ p.base + (off + n) := by omega
        rcases Nat.lt_succ_iff_lt_or_eq.mp hk with hk | rfl
        · have := g2 rfl k hk
          rw [answerByte_take _ (by omega)] at this
          have hne' : 0x100 + k ≠ 0x100 + n := by omega
          simp only [if_true, readAtMem]
          rw [read_write_ne _ _ hne', read_write_ne _ _ hne, this]
        · simp [readAtMem, hlast]
      · obtain ⟨e1, e2⟩ := ha' n (by omega)
        have hm := g3 a fun k hk => ha' k (by omega)
        cases toBuf with
        | false => simpa [readAtMem, read_write, e1] using hm
        | true =>
          simp only [if_true, readAtMem]
          rw [read_write_ne _ _ (e2 rfl), read_write_ne _ _ e1, hm]

/-- `ReadBurst` (R118). -/
theorem runs_readBurst {pg : Byte} {p : Page} {off n : Nat} {toBuf : Bool} (hp : pageOf s.cfg pg = some p)
    (hn : off + n ≤ p.ext) (hs : s.seq = .busy w pos .run) (ha : s.answers = as ++ rest) (hl : as.length = 6 + 4 * n)
    (hok : ∀ a ∈ as, a.ok = true) :
    ∃ m, Runs (readBurst s.cfg pg off n toBuf) s
      (after s w (pos + (8 + 6 * n)) (selectTrace s pg ++
        (List.range n).flatMap fun k => readTrace s (off + k) (answerByte as (9 + 4 * k))) rest m) ∧
      BurstRead p off n 9 toBuf as s.mem m := by
  have h1 := runs_pageSelect (as := as.take 6) (rest := as.drop 6 ++ rest) pg hs (by simp [ha, ← List.append_assoc])
    (by simp [hl]) (fun a h => hok a (List.mem_of_mem_take h))
  obtain ⟨m, h2, g1, g2, g3⟩ := runs_readPairs (s := after s w (pos + 8) (selectTrace s pg) (as.drop 6 ++ rest) s.mem)
    (as := as.drop 6) (rest := rest) (off := off) (n := n) (toBuf := toBuf) hp hn rfl rfl (by simp [hl])
    (fun a h => hok a (List.mem_of_mem_drop h))
  have e : ∀ k, answerByte (as.drop 6) (3 + 4 * k) = answerByte as (9 + 4 * k) := fun k => by
    rw [answerByte_drop, ← Nat.add_assoc]
  simp only [e, readTrace_after] at h2 g1 g2
  exact ⟨m, by simpa [readBurst, Nat.add_assoc] using runs_append h1 h2, g1, g2, g3⟩

theorem evalAll_after {d : List Src} {tr : List BusEvent} : evalAll (after s w pos tr rest s.mem) d = evalAll s d :=
  evalAll_congr (s := s) (t := after s w pos tr rest s.mem) rfl rfl d

/-- The data calls of `WriteBurst` (R120). -/
theorem runs_sends {d : List Src} {bs : List Byte} (hd : evalAll s d = .ok bs) (hs : s.seq = .busy w pos .run)
    (ha : s.answers = as ++ rest) (hl : as.length = d.length) (hok : ∀ a ∈ as, a.ok = true) :
    Runs (d.map .send) s (after s w (pos + d.length) (bs.map fun b => .send b true) rest s.mem) := by
  induction d generalizing s pos as bs with
  | nil =>
    obtain rfl : bs = [] := by simpa [evalAll] using hd.symm
    obtain rfl : as = [] := List.length_eq_zero_iff.mp (by simpa using hl)
    simp only [List.nil_append] at ha
    simp [Runs, after, ← ha, ← hs]
  | cons x d ih =>
    obtain ⟨a, as, rfl⟩ : ∃ a as', as = a :: as' := List.exists_cons_of_length_eq_add_one hl
    simp only [evalAll] at hd
    split at hd
    · next b bs' hb hbs =>
      obtain rfl : b :: bs' = bs := by simpa using hd
      refine runs_cons (callStep_send hs ha (hok _ (by simp)) hb) (by simp [hs]) ?_
      have := ih (s := after s w (pos + 1) [.send b true] (as ++ rest) s.mem) (pos := pos + 1) (as := as) (bs := bs')
        (evalAll_after.trans hbs) rfl rfl (by simpa using hl) (fun a h => hok a (by simp [h]))
      simpa [Nat.add_assoc, Nat.add_comm 1] using this
    · simp at hd
    · simp at hd

/-- `WriteBurst` (R120): all bytes are committed with the last `BusStop` (R141). -/
theorem runs_writeBurst {pg : Byte} {p : Page} {off : Nat} {d : List Src} {bs : List Byte} (hp : pageOf s.cfg pg = some p)
    (hn : off + d.length ≤ p.ext) (hd : evalAll s d = .ok bs) (hs : s.seq = .busy w pos .run)
    (ha : s.answers = as ++ rest) (hl : as.length = 8 + d.length) (hok : ∀ a ∈ as, a.ok = true) :
    ∃ m, Runs (writeBurst s.cfg pg off d) s
      (after s w (pos + (11 + d.length)) (selectTrace s pg ++ writeTrace s off bs) rest m) ∧
      (∀ k, (hk : k < bs.length) → m.read (p.base + (off + k)) = bs[k]) ∧
      (∀ a, (∀ k, k < bs.length → a ≠ p.base + (off + k)) → m.read a = s.mem.read a) := by
  have hbl := evalAll_length hd
  obtain ⟨m, hm, hw, hf⟩ := commitWrite_ok (c := s.cfg) hp (off := off) (bs := bs) (by omega) s.mem
  refine ⟨m, ?_, hw, hf⟩
  have h1 := runs_pageSelect (as := as.take 6) (rest := as.drop 6 ++ rest) pg hs (by simp [ha, ← List.append_assoc])
    (by simp [hl]; omega) (fun a h => hok a (List.mem_of_mem_take h))
  obtain ⟨a1, a2, as', has⟩ : ∃ a1 a2 as', as.drop 6 = a1 :: a2 :: as' := by
    have : (as.drop 6).length = d.length + 2 := by simp [hl]; omega
    match hd' : as.drop 6, this with
    | a1 :: a2 :: as', _ => exact ⟨a1, a2, as', rfl⟩
  have hmem : ∀ a ∈ a1 :: a2 :: as', a.ok = true := fun a h => hok a (List.mem_of_mem_drop (has ▸ h))
  have hl' : as'.length = d.length := by
    have := congrArg List.length has
    simp only [List.length_drop, List.length_cons, hl] at this
    omega
  have h2 : Runs [.start .write .none, .send (.lit (BitVec.ofNat 8 off))]
      (after s w (pos + 8) (selectTrace s pg) (as.drop 6 ++ rest) s.mem)
      (after s w (pos + 10) (selectTrace s pg ++ [.start (addrByte s .write) 10 true, .send (BitVec.ofNat 8 off) true])
        (as' ++ rest) s.mem) := by
    refine runs_cons (callStep_start _ rfl (by rw [after_answers, has]; rfl) (hmem _ (by simp))) (by simp) ?_
    refine runs_cons (callStep_send rfl rfl (hmem _ (by simp)) rfl) (by simp) ?_
    simp [Runs]
  have h3 := runs_sends (s := after s w (pos + 10) (selectTrace s pg ++ [.start (addrByte s .write) 10 true,
    .send (BitVec.ofNat 8 off) true]) (as' ++ rest) s.mem) (d := d) (bs := bs) (as := as') (rest := rest)
    (evalAll_after.trans hd) rfl rfl hl' (fun a h => hmem a (by simp [h]))
  have h4 : Runs [.stop (.commit pg off d)] (after s w (pos + 10 + d.length) (selectTrace s pg ++
      ([.start (addrByte s .write) 10 true, .send (BitVec.ofNat 8 off) true] ++ bs.map fun b => .send b true)) rest s.mem)
      (after s w (pos + (11 + d.length)) (selectTrace s pg ++ writeTrace s off bs) rest m) := by
    refine runs_cons (callStep_stop rfl (applyPost_commit (evalAll_after.trans hd) hm)) (by simp) ?_
    simp [Runs, writeTrace, show pos + 10 + d.length + 1 = pos + (11 + d.length) by omega]
  rw [after_after] at h3
  have := runs_append (runs_append (runs_append h1 h2) (by simpa using h3)) (by simpa using h4)
  simpa [writeBurst] using this

/-- Something done in the step of the first `BusStart`, when it makes that step the plain call. -/
theorem runs_withPre_cell {row col pg : Byte} {off : Nat} {v : Src} {t : State} (hc : cellCheck s row col = true)
    (h : Runs (writeOne s.cfg pg off v) s t) : Runs (withPre (.cell row col) (writeOne s.cfg pg off v)) s t := by
  obtain ⟨u, h1, h2, h3⟩ := h
  exact ⟨u, (callStep_start_cell .write hc).trans h1, h2, h3⟩

theorem runs_withPre_clear {pg : Byte} {off n : Nat} {toBuf : Bool} {t : State}
    (h : Runs (readBurst s.cfg pg off n toBuf) (shadowClear s) t) :
    Runs (withPre .clearShadow (readBurst s.cfg pg off n toBuf)) s t := by
  obtain ⟨u, h1, h2, h3⟩ := h
  exact ⟨u, h1, h2, h3⟩

/-- Two procedures one after the other. -/
theorem runs_seq {xs ys : List Op} {p1 p2 : Nat} {tr1 tr2 : List BusEvent} {r1 r2 : List BusAnswer} {m1 m2 : Memory}
    (h : Runs xs s (after s w p1 tr1 r1 m1))
    (h' : Runs ys (after s w p1 tr1 r1 m1) (after (after s w p1 tr1 r1 m1) w p2 tr2 r2 m2)) :
    Runs (xs ++ ys) s (after s w p2 (tr1 ++ tr2) r2 m2) := by
  have := runs_append h h'
  rwa [after_after] at this

/-- A source whose byte is `b` wherever `DBUF` is as in `s`: a literal, or a byte of `DBUF`. -/
def Steady (s : State) (x : Src) (b : Byte) : Prop :=
  ∀ m : Memory, (∀ a, isDbufAddr a = true → m.read a = s.mem.read a) → evalSrc { s with mem := m } x = .ok b

theorem steady_lit (s : State) (b : Byte) : Steady s (.lit b) b := fun _ _ => rfl

theorem steady_dbuf (s : State) {i : Nat} (h : i < 0xC0) : Steady s (.dbuf i) (s.dbuf i) := by
  intro m hm
  simp [evalSrc, dbufAddr_ok.mpr ⟨h, rfl⟩, Except.map, State.dbuf, hm (0x100 + i) (isDbufAddr_iff.mpr ⟨by omega, by omega⟩)]

/-- The bytes after a cell's three writes. -/
def cellMem (m : Memory) (p : Page) (row col : Byte) (b g r : Byte) : Memory :=
  ((m.write (p.base + pwmOffset row.toNat col.toNat 0) b).write (p.base + pwmOffset row.toNat col.toNat 1) g).write
    (p.base + pwmOffset row.toNat col.toNat 2) r

/-- A cell's three writes change no byte of `DBUF`. -/
theorem cellMem_dbuf (m : Memory) (p : Page) (row col b g r : Byte) {a : Nat} (h : isDbufAddr a = true) :
    (cellMem m p row col b g r).read a = m.read a := by
  have := page_base_ge p
  rw [isDbufAddr_iff] at h
  unfold cellMem
  rw [read_write_ne _ _ (by omega), read_write_ne _ _ (by omega), read_write_ne _ _ (by omega)]

/-- `LightCell` (R161) on an enabled cell, with sources that the writes do not change. -/
theorem runs_lightCell {pg row col : Byte} {p : Page} {vB vG vR : Src} {b g r : Byte} (hp : pageOf s.cfg pg = some p)
    (he : p.ext = 0xC0) (hc : cellCheck s row col = true) (hr : row.toNat < 4) (hcl : col.toNat < 16)
    (hb : Steady s vB b) (hg : Steady s vG g) (hrr : Steady s vR r) (hs : s.seq = .busy w pos .run)
    (ha : s.answers = as ++ rest) (hl : as.length = 27) (hok : ∀ a ∈ as, a.ok = true) :
    Runs (lightCell s.cfg pg row col vB vG vR) s (after s w (pos + 36)
      (writeOneTrace s pg (pwmOffset row.toNat col.toNat 0) b ++ writeOneTrace s pg (pwmOffset row.toNat col.toNat 1) g ++
        writeOneTrace s pg (pwmOffset row.toNat col.toNat 2) r) rest (cellMem s.mem p row col b g r)) := by
  have sa : ∀ k, k < 3 →
      shadowAddr s.cfg pg (pwmOffset row.toNat col.toNat k) = .ok (p.base + pwmOffset row.toNat col.toNat k) := fun k hk =>
    shadowAddr_of hp (by
      have : pwmOffset row.toNat col.toNat k < 0xC0 := by simp only [pwmOffset, subRow, subrows, cols]; omega
      omega)
  have nd : ∀ (m : Memory) k v a, isDbufAddr a = true →
      (m.write (p.base + pwmOffset row.toNat col.toNat k) v).read a = m.read a := by
    intro m k v a h
    refine read_write_ne _ _ fun he => ?_
    have := page_base_ge p
    rw [isDbufAddr_iff] at h; omega
  have h1 := runs_withPre_cell hc (runs_writeOne (as := as.take 9) (rest := as.drop 9 ++ rest) hs
    (by simp [ha, ← List.append_assoc]) (by simp [hl]) (fun a h => hok a (List.mem_of_mem_take h)) (sa 0 (by omega))
    (hb s.mem fun _ _ => rfl))
  have h2 := runs_seq h1 (runs_writeOne (as := (as.drop 9).take 9) (rest := as.drop 18 ++ rest) rfl
    (by rw [after_answers, ← List.append_assoc, ← List.drop_drop (i := 9) (j := 9), List.take_append_drop])
    (by simp [hl]) (fun a h => hok a (List.mem_of_mem_drop (List.mem_of_mem_take h))) (sa 1 (by omega))
    ((evalSrc_congr rfl rfl vG).trans (hg _ fun a ha => nd s.mem 0 b a ha)))
  have h3 := runs_seq h2 (runs_writeOne (as := as.drop 18) (rest := rest) rfl rfl (by simp [hl])
    (fun a h => hok a (List.mem_of_mem_drop h)) (sa 2 (by omega))
    ((evalSrc_congr rfl rfl vR).trans (hrr _ fun a ha => (nd (s.mem.write _ b) 1 g a ha).trans (nd s.mem 0 b a ha))))
  simpa [lightCell, writeOneTrace_after, cellMem] using h3

end

end Sys2Proof.Machine
end

