-- ==== Sys2Proof/Laws/Commands.lean ====
section
/-! SUPPORT. The calls of every command: where they may write (the `StoresTo` of the command), and that their places exist when the
command is admitted. -/

namespace Sys2Proof.Machine

/-- A call of a command writes only where the command may write. -/
theorem storesTo_of_op {c : Config} {i : Instr} {op : Op} (h : op ∈ opsOf c i) {a : Nat} (ha : op.StoresTo c a) :
    StoresTo c a i := by
  revert op a
  suffices hs : ∀ op ∈ opsOf c i, ∀ a, op.StoresTo c a → StoresTo c a i from fun {op} h {a} ha => hs op h a ha
  have F : ∀ {p : Prop}, False → p := fun h => h.elim
  cases i with
  | rd1 page offset =>
    simp only [opsOf, opsRd1, List.mem_append]
    rintro op (h | h)
    · exact forall_pageSelect (P := fun op => ∀ a, op.StoresTo c a → StoresTo c a (.rd1 page offset)) (fun _ => F)
        (fun _ _ => F) (fun _ => F) op h
    · rcases (by simpa [readAt] using h) with rfl | rfl | rfl | rfl | rfl | rfl <;> intro a ha
      · exact F ha
      · exact F ha
      · exact F ha
      · exact F ha
      · exact .inl ha
      · exact .inr ha
  | rdb page offset size =>
    exact forall_readBurst (fun _ _ => F) (fun _ _ => F) (fun _ => F)
      (fun k hk a ha => ⟨k, hk, .inl ha⟩) (fun k hk _ a ha => ⟨k, hk, .inr ha⟩)
  | wr1 page offset data =>
    refine forall_writeOne (fun _ => F) (fun _ _ => F) (fun _ => F) (fun _ => F) ?_
    rintro a ⟨k, hk, ha⟩
    obtain rfl : k = 0 := by simpa using hk
    exact ha
  | wrb page offset size =>
    refine forall_writeBurst (fun _ => F) (fun _ _ => F) (fun _ => F) (fun _ _ _ => F) ?_
    rintro a ⟨k, hk, ha⟩
    exact ⟨k, by simpa using hk, ha⟩
  | wrd reg value =>
    simp [opsOf, opsWrd, directWrite, Op.StoresTo]
  | reset =>
    have one : ∀ {f : Byte} {v : Src}, ∀ op ∈ writeOne c c.pFunc f.toNat v, ∀ a, op.StoresTo c a → StoresTo c a .reset := by
      intro f v
      refine forall_writeOne (fun _ => F) (fun _ _ => F) (fun _ => F) (fun _ => F) ?_
      rintro a ⟨k, -, ha⟩
      exact isShadowAddr_of_shadowAddr ha
    have burst : ∀ {pg : Byte} {off : Nat} {d : List Src},
        ∀ op ∈ writeBurst c pg off d, ∀ a, op.StoresTo c a → StoresTo c a .reset := by
      intro pg off d
      refine forall_writeBurst (fun _ => F) (fun _ _ => F) (fun _ => F) (fun _ _ _ => F) ?_
      rintro a ⟨k, -, ha⟩
      exact isShadowAddr_of_shadowAddr ha
    simp only [opsOf, opsReset, List.mem_append]
    rintro op ((((((h | h) | h) | h) | h) | h) | h)
    · refine forall_withPre (P := fun op => ∀ a, op.StoresTo c a → StoresTo c a .reset) (pre := .clearShadow)
        (fun _ a ha => ha)
        (forall_readBurst (fun _ _ => F) (fun _ _ => F) (fun _ => F)
        (fun k hk a ha => isShadowAddr_of_shadowAddr ha) (fun _ _ hb => by simp at hb)) op h
    · exact one op h
    · exact one op h
    · exact one op h
    · exact one op h
    · exact burst op h
    · exact burst op h
  | bright data =>
    refine forall_writeOne (fun _ => F) (fun _ _ => F) (fun _ => F) (fun _ => F) ?_
    rintro a ⟨k, hk, ha⟩
    obtain rfl : k = 0 := by simpa using hk
    exact ha
  | set row col =>
    refine forall_lightCell (fun _ _ => F) (fun _ _ => F) (fun _ _ => F) (fun _ => F) (fun _ _ _ => F) ?_
    rintro k v hk - a ⟨j, hj, ha⟩
    obtain rfl : j = 0 := by simpa using hj
    exact ⟨k, hk, ha⟩
  | setall half =>
    simp only [opsOf, opsSetall, List.mem_flatMap]
    rintro op ⟨p, hp, h⟩
    refine forall_lightCell (P := fun op => ∀ a, op.StoresTo c a → StoresTo c a (.setall half)) (fun _ _ => F) (fun _ _ => F)
      (fun _ _ => F) (fun _ => F) (fun _ _ _ => F) ?_ op h
    rintro k v hk - a ⟨j, hj, ha⟩
    obtain rfl : j = 0 := by simpa using hj
    exact ⟨p, hp, k, hk, ha⟩
  | abmset row col chan =>
    refine forall_lightCell (fun _ _ => F) (fun _ _ => F) (fun _ _ => F) (fun _ => F) (fun _ _ _ => F) ?_
    rintro k v hk - a ⟨j, hj, ha⟩
    obtain rfl : j = 0 := by simpa using hj
    exact ⟨k, hk, ha⟩
  | chktrig =>
    have one : ∀ {f : Byte} {v : Src}, f = c.fGcc ∨ f = c.fConfig →
        ∀ op ∈ writeOne c c.pFunc f.toNat v, ∀ a, op.StoresTo c a → StoresTo c a .chktrig := by
      intro f v hf
      refine forall_writeOne (fun _ => F) (fun _ _ => F) (fun _ => F) (fun _ => F) ?_
      rintro a ⟨k, hk, ha⟩
      obtain rfl : k = 0 := by simpa using hk
      rcases hf with rfl | rfl
      · exact .inl ha
      · exact .inr ha
    simp only [opsOf, opsChktrig, List.mem_append]
    rintro op ((h | h) | h)
    · exact one (.inl rfl) op h
    · exact one (.inr rfl) op h
    · exact one (.inr rfl) op h
  | check =>
    simp only [opsOf, opsCheck, List.mem_append]
    rintro op (h | h)
    · exact forall_readBurst (P := fun op => ∀ a, op.StoresTo c a → StoresTo c a .check) (fun _ _ => F) (fun _ _ => F)
        (fun _ => F) (fun k hk a ha => ⟨k, Nat.lt_of_lt_of_le hk (by decide), ha⟩) (fun _ _ hb => by simp at hb) op h
    · refine forall_readBurst (P := fun op => ∀ a, op.StoresTo c a → StoresTo c a .check) (fun _ _ => F) (fun _ _ => F)
        (fun _ => F) (fun k hk a ha => ⟨0x18 + k, ?_, ?_⟩) (fun _ _ hb => by simp at hb) op h
      · have : k < 24 := hk
        omega
      · rw [← Nat.add_assoc]; exact ha

/-! The places of an admitted command exist (R97, R140). -/

theorem inExtent_iff {c : Config} {pg : Byte} {off size : Nat} :
    inExtent c pg off size = true ↔ ∃ p, pageOf c pg = some p ∧ off < p.ext ∧ off + size ≤ p.ext := by
  unfold inExtent
  cases pageOf c pg <;> simp

theorem domainOk_lit {c : Config} (b : Byte) : (Op.send (.lit b)).DomainOk c := fun _ _ => ⟨b, rfl⟩

theorem domainOk_dbuf {c : Config} {i : Nat} (h : i < 0xC0) : (Op.send (.dbuf i)).DomainOk c :=
  fun s _ => ⟨s.mem.read (0x100 + i), by simp [evalSrc, dbufAddr_ok.mpr ⟨h, rfl⟩, Except.map]⟩

theorem domainOk_osd {c : Config} (h : configOk c = true) :
    (Op.send .osdOff).DomainOk c ∧ (Op.send .osdOn).DomainOk c := by
  have ha := shadowAddr_func h (func_lt h).1
  constructor <;> rintro s rfl
  · exact ⟨_, by simp only [evalSrc, ha, Except.map]; rfl⟩
  · exact ⟨_, by simp only [evalSrc, ha, Except.map]; rfl⟩

theorem evalAll_total {s : State} {xs : List Src} (h : ∀ x ∈ xs, (Op.send x).DomainOk s.cfg) :
    ∃ bs, evalAll s xs = .ok bs := by
  induction xs with
  | nil => exact ⟨[], rfl⟩
  | cons x xs ih =>
    obtain ⟨b, hb⟩ := h x (by simp) s rfl
    obtain ⟨bs, hbs⟩ := ih fun y hy => h y (by simp [hy])
    exact ⟨b :: bs, by simp [evalAll, hb, hbs]⟩

theorem domainOk_commit {c : Config} {pg : Byte} {p : Page} {off : Nat} {d : List Src} (hp : pageOf c pg = some p)
    (h : off + d.length ≤ p.ext) (hd : ∀ x ∈ d, (Op.send x).DomainOk c) : (Op.stop (.commit pg off d)).DomainOk c := by
  rintro s rfl
  obtain ⟨bs, hbs⟩ := evalAll_total hd
  obtain ⟨m, hm, -⟩ := commitWrite_ok hp (off := off) (bs := bs) (by rwa [evalAll_length hbs]) s.mem
  exact ⟨_, by simp only [applyPost, hbs, hm]; rfl⟩

theorem domainOk_writeOne {c : Config} {pg : Byte} {p : Page} {off : Nat} {v : Src} (hp : pageOf c pg = some p)
    (h : off < p.ext) (hv : (Op.send v).DomainOk c) : ∀ op ∈ writeOne c pg off v, op.DomainOk c :=
  forall_writeOne trivial domainOk_lit (fun s _ => ⟨s, rfl⟩) hv (domainOk_commit hp (by simpa using h) (by simpa using hv))

theorem domainOk_writeBurst {c : Config} {pg : Byte} {p : Page} {off : Nat} {d : List Src} (hp : pageOf c pg = some p)
    (h : off + d.length ≤ p.ext) (hd : ∀ x ∈ d, (Op.send x).DomainOk c) :
    ∀ op ∈ writeBurst c pg off d, op.DomainOk c :=
  forall_writeBurst trivial domainOk_lit (fun s _ => ⟨s, rfl⟩) hd (domainOk_commit hp h hd)

theorem domainOk_readBurst {c : Config} {pg : Byte} {p : Page} {off n : Nat} {b : Bool} (hp : pageOf c pg = some p)
    (h : off + n ≤ p.ext) : ∀ op ∈ readBurst c pg off n b, op.DomainOk c := by
  have hx : p.ext ≤ 0xC0 := by cases p <;> simp [Page.ext]
  refine forall_readBurst (fun _ => trivial) domainOk_lit (fun s _ => ⟨s, rfl⟩)
    (fun k hk => ⟨_, shadowAddr_of hp (by omega)⟩) ?_
  rintro k hk - s rfl
  exact ⟨_, by
    simp only [applyPost, shadowAddr_of hp (show off + k < p.ext by omega),
      dbufAddr_ok.mpr ⟨show k < 0xC0 by omega, rfl⟩]
    rfl⟩

/-- The offsets of a cell in range lie inside the PWM and auto-breath extents (R145). -/
theorem pwmOffset_lt {row col k : Nat} (hr : row < 4) (hc : col < 16) (hk : k < 3) : pwmOffset row col k < 0xC0 := by
  simp only [pwmOffset, subRow, subrows, cols]; omega

theorem domainOk_lightCell {c : Config} {pg row col : Byte} {p : Page} {b g r : Src} (hp : pageOf c pg = some p)
    (he : p.ext = 0xC0) (hv : ∀ v, v = b ∨ v = g ∨ v = r → (Op.send v).DomainOk c) :
    ∀ op ∈ lightCell c pg row col b g r,
      ((∃ post, op = .stop post) → row.toNat < 4 ∧ col.toNat < 16) → op.DomainOk c := by
  refine forall_lightCell (fun _ _ => trivial) (fun _ _ => trivial) (fun b _ => domainOk_lit b) (fun _ s _ => ⟨s, rfl⟩)
    (fun v h _ => hv v h) ?_
  intro k v hk hkv hr
  obtain ⟨hr, hc⟩ := hr ⟨_, rfl⟩
  refine domainOk_commit hp ?_ (by simpa using hv v hkv)
  have := pwmOffset_lt hr hc hk
  simp only [List.length_singleton]; omega

/-- A call of a procedure put together from pieces stands in one piece, at a position of that piece. -/
theorem getElem?_flatMap {α : Type} {f : α → List Op} {xs : List α} {pos : Nat} {op : Op}
    (h : (xs.flatMap f)[pos]? = some op) :
    ∃ pre x post q, xs = pre ++ x :: post ∧ pos = (pre.flatMap f).length + q ∧ (f x)[q]? = some op := by
  induction xs generalizing pos with
  | nil => simp at h
  | cons x xs ih =>
    rw [List.flatMap_cons, List.getElem?_append] at h
    split at h
    · exact ⟨[], x, xs, pos, rfl, by simp, h⟩
    · next hlt =>
      obtain ⟨pre, y, post, q, rfl, hq, hop⟩ := ih h
      exact ⟨x :: pre, y, post, q, rfl, by rw [List.flatMap_cons, List.length_append]; omega, hop⟩

/-- The first call of a cell's writes is its check. -/
theorem lightCell_head (c : Config) (pg row col : Byte) (b g r : Src) :
    (lightCell c pg row col b g r)[0]? = some (.start .write (.cell row col)) := rfl

/-- A call of a cell's writes after a check that found the cell in range. -/
theorem domainOk_lightCell_at {c : Config} {pg row col : Byte} {p : Page} {b g r : Src} (hp : pageOf c pg = some p)
    (he : p.ext = 0xC0) (hv : ∀ v, v = b ∨ v = g ∨ v = r → (Op.send v).DomainOk c) {q : Nat} {op : Op}
    (h : (lightCell c pg row col b g r)[q]? = some op)
    (hq : (∃ post, op = .stop post) → 0 < q → row.toNat < 4 ∧ col.toNat < 16) : op.DomainOk c := by
  rcases Nat.eq_zero_or_pos q with rfl | hlt
  · rw [lightCell_head] at h
    obtain rfl : Op.start .write (.cell row col) = op := by simpa using h
    trivial
  · exact domainOk_lightCell hp he hv op (List.mem_of_getElem? h) fun hs => hq hs hlt

/-- The places of every call of an admitted command exist; of a `BusStop`, at a position whose cells have passed their checks. -/
theorem domainOk_of_op {c : Config} {i : Instr} {pos : Nat} {op : Op} (hc : configOk c = true) (ha : admits c i = true)
    (hp : (∃ post, op = .stop post) → PassedCellsInRange c i pos) (h : (opsOf c i)[pos]? = some op) :
    op.DomainOk c := by
  have hmem := List.mem_of_getElem? h
  obtain ⟨f1, f2, f3, f4, f5⟩ := func_lt hc
  have pO := pageOf_number hc .onoff
  have pP := pageOf_number hc .pwm
  have pA := pageOf_number hc .abm
  have pF := pageOf_number hc .func
  have colour : ∀ v : Src, v = .dbuf 2 ∨ v = .dbuf 1 ∨ v = .dbuf 0 → (Op.send v).DomainOk c := by
    rintro v (rfl | rfl | rfl) <;> exact domainOk_dbuf (by omega)
  cases i with
  | rd1 page offset =>
    obtain ⟨p, hpg, hlt, -⟩ := inExtent_iff.mp ha
    simp only [opsOf, opsRd1, List.mem_append] at hmem
    rcases hmem with hmem | hmem
    · exact forall_pageSelect (P := fun op => op.DomainOk c) trivial domainOk_lit (fun s _ => ⟨s, rfl⟩) op hmem
    · rcases (by simpa [readAt] using hmem) with rfl | rfl | rfl | rfl | rfl | rfl
      · trivial
      · exact domainOk_lit _
      · exact fun s _ => ⟨s, rfl⟩
      · trivial
      · exact ⟨_, shadowAddr_of hpg hlt⟩
      · rintro s rfl
        exact ⟨_, by simp only [applyPost, shadowAddr_of hpg hlt, dbufAddr_ok.mpr ⟨show 0 < 0xC0 by omega, rfl⟩]; rfl⟩
  | rdb page offset size =>
    obtain ⟨p, hp, -, hle⟩ := inExtent_iff.mp ha
    exact domainOk_readBurst hp hle op hmem
  | wr1 page offset data =>
    obtain ⟨p, hp, hlt, -⟩ := inExtent_iff.mp (Bool.and_eq_true _ _ ▸ ha : _ ∧ _).1
    exact domainOk_writeOne hp hlt (domainOk_lit _) op hmem
  | wrb page offset size =>
    simp only [admits, Bool.and_eq_true] at ha
    obtain ⟨p, hp, -, hle⟩ := inExtent_iff.mp ha.1.1
    have hx : p.ext ≤ 0xC0 := by cases p <;> simp [Page.ext]
    refine domainOk_writeBurst hp (by simpa using hle) ?_ op hmem
    simp only [List.mem_map, List.mem_range]
    rintro _ ⟨k, hk, rfl⟩
    exact domainOk_dbuf (by omega)
  | wrd reg value =>
    rcases (by simpa [opsOf, opsWrd, directWrite] using hmem) with rfl | rfl | rfl | rfl
    · trivial
    · exact domainOk_lit _
    · exact domainOk_lit _
    · exact fun s _ => ⟨s, rfl⟩
  | reset =>
    simp only [opsOf, opsReset, List.mem_append] at hmem
    rcases hmem with (((((h | h) | h) | h) | h) | h) | h
    · exact forall_withPre (fun _ => trivial) (domainOk_readBurst pF f5) op h
    · exact domainOk_writeOne pF f1 (domainOk_lit _) op h
    · exact domainOk_writeOne pF f2 (domainOk_lit _) op h
    · exact domainOk_writeOne pF f3 (domainOk_lit _) op h
    · exact domainOk_writeOne pF f4 (domainOk_lit _) op h
    · refine domainOk_writeBurst pO (by simp [Page.ext]) ?_ op h
      simp only [List.mem_map]
      rintro _ ⟨b, -, rfl⟩
      exact domainOk_lit _
    · refine domainOk_writeBurst pP (by rw [List.length_replicate]; exact Nat.le_refl _) ?_ op h
      intro x hx
      obtain rfl := (List.mem_replicate.mp hx).2
      exact domainOk_lit _
  | bright data => exact domainOk_writeOne pF f2 (domainOk_lit _) op hmem
  | set row col =>
    exact domainOk_lightCell_at pP rfl colour h fun hs hq => hp hs 0 hq _ _ _ (lightCell_head ..)
  | setall half =>
    obtain ⟨pre, x, post, q, hx, rfl, hop⟩ := getElem?_flatMap h
    refine domainOk_lightCell_at pP rfl colour hop fun hs hq =>
      hp hs (pre.flatMap fun p => lightCell c c.pPwm p.1 p.2 (.dbuf 2) (.dbuf 1) (.dbuf 0)).length (by omega) .write _ _ ?_
    simp only [opsOf, opsSetall, hx, List.flatMap_append, List.flatMap_cons]
    rw [List.getElem?_append_right (Nat.le_refl _), Nat.sub_self,
      List.getElem?_append_left (by rw [length_lightCell]; omega)]
    exact lightCell_head ..
  | abmset row col chan =>
    refine domainOk_lightCell_at pA rfl ?_ h fun hs hq => hp hs 0 hq _ _ _ (lightCell_head ..)
    rintro v (rfl | rfl | rfl) <;> exact domainOk_lit _
  | chktrig =>
    simp only [opsOf, opsChktrig, List.mem_append] at hmem
    rcases hmem with (h | h) | h
    · exact domainOk_writeOne pF f2 (domainOk_lit _) op h
    · exact domainOk_writeOne pF f1 (domainOk_osd hc).1 op h
    · exact domainOk_writeOne pF f1 (domainOk_osd hc).2 op h
  | check =>
    simp only [opsOf, opsCheck, List.mem_append] at hmem
    rcases hmem with h | h
    · exact domainOk_readBurst pO (by simp [Page.ext]) op h
    · exact domainOk_readBurst pO (by simp [Page.ext]) op h

/-! Transactions (R196): a procedure is a row of transactions, each closed. -/

/-- The calls go on from inside or outside a transaction, begin one only outside, and end outside. -/
def Bracketed : Bool → List Op → Prop
  | inside, [] => inside = false
  | inside, .start _ _ :: ops => inside = false ∧ Bracketed true ops
  | inside, .send _ :: ops => inside = true ∧ Bracketed true ops
  | inside, .recv _ _ :: ops => inside = true ∧ Bracketed true ops
  | inside, .stop _ :: ops => inside = true ∧ Bracketed false ops

theorem bracketed_append {b : Bool} {xs ys : List Op} (h : Bracketed b xs) (h' : Bracketed false ys) :
    Bracketed b (xs ++ ys) := by
  induction xs generalizing b with
  | nil => obtain rfl : b = false := h; exact h'
  | cons x xs ih => cases x <;> exact ⟨h.1, ih h.2⟩

theorem bracketed_flatMap {α : Type} {f : α → List Op} {xs : List α} (h : ∀ x ∈ xs, Bracketed false (f x)) :
    Bracketed false (xs.flatMap f) := by
  induction xs with
  | nil => rfl
  | cons x xs ih => exact bracketed_append (h x (by simp)) (ih fun y hy => h y (by simp [hy]))

theorem bracketed_withPre {pre : Pre} {ops : List Op} (h : Bracketed false ops) : Bracketed false (withPre pre ops) := by
  unfold withPre
  split
  · exact h
  · exact h

theorem bracketed_pageSelect (c : Config) (pg : Byte) : Bracketed false (pageSelect c pg) := by
  simp [pageSelect, directWrite, Bracketed]

theorem bracketed_readAt (pg : Byte) (off : Nat) (b : Option Nat) : Bracketed false (readAt pg off b) := by
  simp [readAt, Bracketed]

theorem bracketed_readBurst (c : Config) (pg : Byte) (off n : Nat) (b : Bool) : Bracketed false (readBurst c pg off n b) :=
  bracketed_append (bracketed_pageSelect c pg) (bracketed_flatMap fun _ _ => bracketed_readAt ..)

theorem bracketed_writeOne (c : Config) (pg : Byte) (off : Nat) (v : Src) : Bracketed false (writeOne c pg off v) :=
  bracketed_append (bracketed_pageSelect c pg) (by simp [Bracketed])

theorem bracketed_sends {d : List Src} {ops : List Op} (h : Bracketed true ops) : Bracketed true (d.map Op.send ++ ops) := by
  induction d with
  | nil => exact h
  | cons x d ih => exact ⟨rfl, ih⟩

theorem bracketed_writeBurst (c : Config) (pg : Byte) (off : Nat) (d : List Src) :
    Bracketed false (writeBurst c pg off d) := by
  have h : Bracketed true (d.map Op.send ++ [.stop (.commit pg off d)]) := bracketed_sends (by simp [Bracketed])
  simpa [writeBurst] using bracketed_append (bracketed_pageSelect c pg)
    (show Bracketed false (.start .write .none :: .send (.lit (BitVec.ofNat 8 off)) :: (d.map Op.send ++ [.stop (.commit pg off d)]))
      from ⟨rfl, rfl, h⟩)

theorem bracketed_lightCell (c : Config) (pg row col : Byte) (b g r : Src) :
    Bracketed false (lightCell c pg row col b g r) :=
  bracketed_append (bracketed_append (bracketed_withPre (bracketed_writeOne ..)) (bracketed_writeOne ..))
    (bracketed_writeOne ..)

/-- Every command's calls are bracketed. -/
theorem bracketed_opsOf (c : Config) (i : Instr) : Bracketed false (opsOf c i) := by
  cases i with
  | rd1 page offset => exact bracketed_append (bracketed_pageSelect ..) (bracketed_readAt ..)
  | rdb page offset size => exact bracketed_readBurst ..
  | wr1 page offset data => exact bracketed_writeOne ..
  | wrb page offset size => exact bracketed_writeBurst ..
  | wrd reg value => simp [opsOf, opsWrd, directWrite, Bracketed]
  | reset =>
    exact bracketed_append (bracketed_append (bracketed_append (bracketed_append (bracketed_append (bracketed_append
      (bracketed_withPre (bracketed_readBurst ..)) (bracketed_writeOne ..)) (bracketed_writeOne ..)) (bracketed_writeOne ..))
      (bracketed_writeOne ..)) (bracketed_writeBurst ..)) (bracketed_writeBurst ..)
  | bright data => exact bracketed_writeOne ..
  | set row col => exact bracketed_lightCell ..
  | setall half => exact bracketed_flatMap fun _ _ => bracketed_lightCell ..
  | abmset row col chan => exact bracketed_lightCell ..
  | chktrig =>
    exact bracketed_append (bracketed_append (bracketed_writeOne ..) (bracketed_writeOne ..)) (bracketed_writeOne ..)
  | check => exact bracketed_append (bracketed_readBurst ..) (bracketed_readBurst ..)

theorem goesOn_zero {b : Bool} {ops : List Op} (h : Bracketed b ops) : goesOn ops 0 = b := by
  cases ops with
  | nil => obtain rfl : b = false := h; rfl
  | cons x xs => cases x <;> simp [goesOn, h.1]

/-- After a `BusStop` a transaction begins or the command is done; after any other call the transaction goes on. -/
theorem goesOn_succ {b : Bool} {ops : List Op} (h : Bracketed b ops) {k : Nat} {op : Op} (hop : ops[k]? = some op) :
    goesOn ops (k + 1) = true ↔ ∀ post, op ≠ .stop post := by
  induction ops generalizing b k with
  | nil => simp at hop
  | cons x xs ih =>
    cases k with
    | zero =>
      obtain rfl : x = op := by simpa using hop
      have e : goesOn (x :: xs) (0 + 1) = goesOn xs 0 := rfl
      cases x <;> rw [e, goesOn_zero h.2] <;> simp
    | succ k =>
      have e : goesOn (x :: xs) (k + 1 + 1) = goesOn xs (k + 1) := rfl
      rw [e]
      cases x <;> exact ih h.2 (by simpa using hop)

end Sys2Proof.Machine
end

