-- ==== Sys2Proof/Laws/Encoding.lean ====
section
/-! SUPPORT. The fields of an assembled word (30_encoding.md R90, R99), and a word as its fields. -/

namespace Sys2Proof

variable (op : BitVec 4) (a b c : Byte)

theorem fieldOp_commandWord : fieldOp (commandWord op a b c) = op := by
  unfold fieldOp commandWord
  rw [BitVec.extractLsb'_append_eq_of_le (by omega), BitVec.extractLsb'_append_eq_of_le (by omega),
    BitVec.extractLsb'_append_eq_of_le (by omega)]
  exact BitVec.extractLsb'_append_eq_left

theorem fieldRsv_commandWord : fieldRsv (commandWord op a b c) = 0 := by
  unfold fieldRsv commandWord
  rw [BitVec.extractLsb'_append_eq_of_le (by omega), BitVec.extractLsb'_append_eq_of_le (by omega),
    BitVec.extractLsb'_append_eq_of_le (by omega), BitVec.extractLsb'_append_eq_of_add_le (by omega)]
  rfl

theorem fieldA_commandWord : fieldA (commandWord op a b c) = a := by
  unfold fieldA commandWord
  rw [BitVec.extractLsb'_append_eq_of_le (by omega), BitVec.extractLsb'_append_eq_of_le (by omega),
    BitVec.extractLsb'_append_eq_of_add_le (by omega)]
  simp

theorem fieldB_commandWord : fieldB (commandWord op a b c) = b := by
  unfold fieldB commandWord
  rw [BitVec.extractLsb'_append_eq_of_le (by omega), BitVec.extractLsb'_append_eq_of_add_le (by omega)]
  simp

theorem fieldC_commandWord : fieldC (commandWord op a b c) = c := by
  unfold fieldC commandWord
  rw [BitVec.extractLsb'_append_eq_of_add_le (by omega)]
  simp

/-- Two words with the same fields are the same word: no bit lies outside the fields of R90. -/
theorem word_ext {v w : Word} (ho : fieldOp v = fieldOp w) (hr : fieldRsv v = fieldRsv w)
    (ha : fieldA v = fieldA w) (hb : fieldB v = fieldB w) (hc : fieldC v = fieldC w) : v = w := by
  have key : ∀ k n : Nat, v.extractLsb' k n = w.extractLsb' k n →
      ∀ i, k ≤ i → i < k + n → v.getLsbD i = w.getLsbD i := by
    intro k n h i hk hi
    have := congrArg (fun x => x.getLsbD (i - k)) h
    simpa [BitVec.getLsbD_extractLsb', show i - k < n by omega, show k + (i - k) = i by omega] using this
  refine BitVec.eq_of_getLsbD_eq fun i hi => ?_
  by_cases h8 : i < 8
  · exact key 0 8 hc i (by omega) (by omega)
  by_cases h16 : i < 16
  · exact key 8 8 hb i (by omega) (by omega)
  by_cases h24 : i < 24
  · exact key 16 8 ha i (by omega) (by omega)
  by_cases h28 : i < 28
  · exact key 24 4 hr i (by omega) (by omega)
  · exact key 28 4 ho i (by omega) (by omega)

/-- A word whose `RSV` is 0 is assembled from its other fields. -/
theorem commandWord_fields {w : Word} (h : fieldRsv w = 0) :
    commandWord (fieldOp w) (fieldA w) (fieldB w) (fieldC w) = w :=
  word_ext (fieldOp_commandWord ..) ((fieldRsv_commandWord ..).trans h.symm) (fieldA_commandWord ..)
    (fieldB_commandWord ..) (fieldC_commandWord ..)

theorem fieldOp_and (v w : Word) : fieldOp (v &&& w) = fieldOp v &&& fieldOp w := by
  simp [fieldOp, BitVec.extractLsb'_and]
theorem fieldRsv_and (v w : Word) : fieldRsv (v &&& w) = fieldRsv v &&& fieldRsv w := by
  simp [fieldRsv, BitVec.extractLsb'_and]
theorem fieldA_and (v w : Word) : fieldA (v &&& w) = fieldA v &&& fieldA w := by
  simp [fieldA, BitVec.extractLsb'_and]
theorem fieldB_and (v w : Word) : fieldB (v &&& w) = fieldB v &&& fieldB w := by
  simp [fieldB, BitVec.extractLsb'_and]
theorem fieldC_and (v w : Word) : fieldC (v &&& w) = fieldC v &&& fieldC w := by
  simp [fieldC, BitVec.extractLsb'_and]

/-- Equality of words, field by field. -/
theorem word_eq_iff (v w : Word) : v = w ↔
    fieldOp v = fieldOp w ∧ fieldRsv v = fieldRsv w ∧ fieldA v = fieldA w ∧ fieldB v = fieldB w ∧ fieldC v = fieldC w :=
  ⟨fun h => by simp [h], fun ⟨ho, hr, ha, hb, hc⟩ => word_ext ho hr ha hb hc⟩

end Sys2Proof
end

