-- ==== Sys2Proof/Laws/PerInstr.lean ====
section
/-! SUPPORT. The family `EncodeFields`: the fields of every command's word are those of 30_encoding.md R92. -/

namespace Sys2Proof.Laws.EncodeFields

/-- `OP` and the operand fields that R92 gives a command: `(OP, A, B, C)`. -/
def fields : Instr → BitVec 4 × Byte × Byte × Byte
  | .rd1 page offset => (0x1, page, offset, 0)
  | .rdb page offset size => (0x2, page, offset, size)
  | .wr1 page offset data => (0x3, page, offset, data)
  | .wrb page offset size => (0x4, page, offset, size)
  | .wrd reg value => (0x5, reg, value, 0)
  | .reset => (0x8, 0, 0, 0)
  | .bright data => (0x9, 0, 0, data)
  | .set row col => (0xA, row, col, 0)
  | .setall half => (0xB, half, 0, 0)
  | .abmset row col chan => (0xC, row, col, chan)
  | .chktrig => (0xD, 0, 0, 0)
  | .check => (0xE, 0, 0, 0)

/-- The word of a command holds its fields, and `RSV` is 0. -/
def Statement (i : Instr) : Prop :=
  (fieldOp (encode i), fieldA (encode i), fieldB (encode i), fieldC (encode i)) = fields i ∧ fieldRsv (encode i) = 0

theorem ofWord (op : BitVec 4) (a b c : Byte) :
    (fieldOp (commandWord op a b c), fieldA (commandWord op a b c), fieldB (commandWord op a b c),
      fieldC (commandWord op a b c)) = (op, a, b, c) ∧ fieldRsv (commandWord op a b c) = 0 :=
  ⟨by rw [fieldOp_commandWord, fieldA_commandWord, fieldB_commandWord, fieldC_commandWord], fieldRsv_commandWord ..⟩

theorem rd1 (page offset : Byte) : Statement (.rd1 page offset) := ofWord _ _ _ _
theorem rdb (page offset size : Byte) : Statement (.rdb page offset size) := ofWord _ _ _ _
theorem wr1 (page offset data : Byte) : Statement (.wr1 page offset data) := ofWord _ _ _ _
theorem wrb (page offset size : Byte) : Statement (.wrb page offset size) := ofWord _ _ _ _
theorem wrd (reg value : Byte) : Statement (.wrd reg value) := ofWord _ _ _ _
theorem reset : Statement .reset := ofWord _ _ _ _
theorem bright (data : Byte) : Statement (.bright data) := ofWord _ _ _ _
theorem set (row col : Byte) : Statement (.set row col) := ofWord _ _ _ _
theorem setall (half : Byte) : Statement (.setall half) := ofWord _ _ _ _
theorem abmset (row col chan : Byte) : Statement (.abmset row col chan) := ofWord _ _ _ _
theorem chktrig : Statement .chktrig := ofWord _ _ _ _
theorem check : Statement .check := ofWord _ _ _ _

end Sys2Proof.Laws.EncodeFields
end

