-- ==== Sys2Proof/Laws/Step.lean ====
section
/-! SUPPORT. Everything one step of the machine can do, said once. -/

namespace Sys2Proof.Machine

theorem state_host_self (s : State) : { s with host := s.host } = s := rfl

theorem target_buffer {a : HostAddr} {n : Nat} (h : target a n = .buffer) : isDbufAddr a.toNat = true := by
  unfold target at h
  split at h; · simp at h
  split at h; · simp at h
  split at h; · simp at h
  split at h
  · next h' => exact h'.2
  split at h; · simp at h
  split at h <;> simp at h

/-- An access that is refused while `BUSY = 1` and goes through: `Idle`, and the access itself. -/
theorem whileIdle_next {s t : State} {o : Host.Outcome State Fault Refusal} (h : whileIdle s o = .next t) :
    s.busy = false ∧ o = .next t := by
  unfold whileIdle at h
  split at h
  · simp at h
  · next hb => exact ⟨by simpa using hb, h⟩

theorem whileIdle_idle {s : State} (h : s.seq = .idle) (o : Host.Outcome State Fault Refusal) : whileIdle s o = o := by
  simp [whileIdle, State.busy, h]

theorem whileIdle_busy {s : State} {w : Word} {pos : Nat} {ph : Phase} (h : s.seq = .busy w pos ph)
    (o : Host.Outcome State Fault Refusal) : whileIdle s o = .refused .hostDuty := by
  simp [whileIdle, State.busy, h]

/-- What a host read does, if it is not refused: it gives a value back and changes nothing else. -/
theorem memRead_next {a : HostAddr} {n : Nat} {s t : State} (h : memRead a n s = .next t) :
    ∃ v, t = giveBack a n v s := by
  unfold memRead at h
  split at h
  · exact ⟨_, by simpa using (whileIdle_next h).2.symm⟩
  · exact ⟨_, by simpa using h.symm⟩
  · exact ⟨_, by simpa using h.symm⟩
  · exact ⟨_, by simpa using (whileIdle_next h).2.symm⟩
  · exact ⟨_, by simpa using (whileIdle_next h).2.symm⟩
  · exact ⟨_, by simpa using h.symm⟩
  · simp at h

/-- What a host write does, if it is not refused: nothing, or while `Idle` the issue of a command or a byte of `DBUF`. -/
theorem memWrite_next {a : HostAddr} {n : Nat} {v : Word} {s t : State} (h : memWrite a n v s = .next t) :
    t = s ∨ (s.busy = false ∧ t = issue v s) ∨
      (s.busy = false ∧ isDbufAddr a.toNat = true ∧ t = { s with mem := s.mem.write a.toNat (v.extractLsb' 0 8) }) := by
  unfold memWrite at h
  split at h
  · obtain ⟨hb, h⟩ := whileIdle_next h
    exact .inr (.inl ⟨hb, by simpa using h.symm⟩)
  · exact .inl (by simpa using h.symm)
  · exact .inl (by simpa using h.symm)
  · next ht =>
    obtain ⟨hb, h⟩ := whileIdle_next h
    exact .inr (.inr ⟨hb, target_buffer ht, by simpa using h.symm⟩)
  · exact .inl (by simpa using (whileIdle_next h).2.symm)
  · exact .inl (by simpa using h.symm)
  · simp at h

theorem busy_false {s : State} : s.busy = false ↔ s.seq = .idle := by
  unfold State.busy; split <;> simp_all

theorem busy_true {s : State} : s.busy = true ↔ ∃ w pos ph, s.seq = .busy w pos ph := by
  unfold State.busy; split <;> simp_all

/-- What the block's turn does, if it answers a next state. -/
theorem blockTurn_next {meaning : Instr → State → Host.Outcome State Fault Refusal} {s t : State}
    (h : blockTurn meaning s = .next t) :
    s.live = true ∧ ((s.seq = .idle ∧ t = s) ∨
      ∃ w pos ph, s.seq = .busy w pos ph ∧
        ((∃ i, decode w = .ok i ∧ meaning i s = .next t) ∨
         (∃ e, decode w = .error e ∧ t = complete .protocolError s))) := by
  unfold blockTurn at h
  split at h
  · next hl =>
    refine ⟨hl, ?_⟩
    split at h
    · next hs => exact .inl ⟨hs, by simpa using h.symm⟩
    · next w pos ph hs =>
      refine .inr ⟨w, pos, ph, hs, ?_⟩
      split at h
      · next i hd => exact .inl ⟨i, hd, h⟩
      · next e hd => exact .inr ⟨e, hd, by simpa [raiseError] using h.symm⟩
  · simp at h

/-- What the host does in its turn besides a block reset: the pending accesses and the data given back may change, and while `Idle` a
command may be issued or a byte of `DBUF` written. -/
def HostStep (s t : State) : Prop :=
  (∃ es rs, t = { s with host := es, reads := rs }) ∨
  (s.seq = .idle ∧ ∃ es w, t = { s with host := es, seq := .busy w 0 .run }) ∨
  (s.seq = .idle ∧ ∃ es a b, isDbufAddr a = true ∧ t = { s with host := es, mem := s.mem.write a b })

/-- What the block does in its turn, with the host's accesses at `es`. -/
def BlockStep (s t : State) : Prop :=
  ∃ es, s.live = true ∧ ((s.seq = .idle ∧ t = { s with host := es }) ∨
    ∃ w pos ph, s.seq = .busy w pos ph ∧
      ((∃ i, decode w = .ok i ∧ exec i { s with host := es } = .next t) ∨
       (∃ e, decode w = .error e ∧ t = complete .protocolError { s with host := es })))

theorem blockStep_of {s t : State} {es : List HostEvent} (h : blockTurn exec { s with host := es } = .next t) :
    BlockStep s t := by
  obtain ⟨hl, h⟩ := blockTurn_next h
  exact ⟨es, hl, h⟩

/-- Everything one step can do, if it answers a next state: a block reset, another access of the host, or a turn of the block. -/
theorem step_next {s t : State} (h : step s = .next t) :
    configOk s.cfg = true ∧
      ((∃ rest, s.host = ⟨0, .blockReset⟩ :: rest ∧ t = { blockReset s with host := rest }) ∨
       (blockResetDue s = false ∧ (HostStep s t ∨ BlockStep s t))) := by
  unfold step turn at h
  split at h
  · next hc =>
    refine ⟨hc, ?_⟩
    split at h
    · next he =>
      exact .inr ⟨by simp [blockResetDue, he], .inr (blockStep_of (es := s.host) (by simpa using h))⟩
    · next x rest he =>
      unfold hostTurn at h
      split at h
      · exact .inl ⟨rest, he, by simpa using h.symm⟩
      · exact .inr ⟨by simp [blockResetDue, he], .inl (.inl ⟨rest, s.reads, by simpa using h.symm⟩)⟩
      · refine .inr ⟨by simp [blockResetDue, he], .inl (.inl ?_)⟩
        split at h
        · obtain ⟨v, rfl⟩ := memRead_next h
          exact ⟨rest, _, rfl⟩
        · simp at h
      · refine .inr ⟨by simp [blockResetDue, he], .inl ?_⟩
        split at h
        · rcases memWrite_next h with rfl | ⟨hb, rfl⟩ | ⟨hb, ha, rfl⟩
          · exact .inl ⟨rest, s.reads, rfl⟩
          · exact .inr (.inl ⟨busy_false.mp hb, rest, _, rfl⟩)
          · exact .inr (.inr ⟨busy_false.mp hb, rest, _, _, ha, rfl⟩)
        · simp at h
      · refine .inr ⟨by simp [blockResetDue, he], ?_⟩
        split at h
        · split at h
          · exact .inr (blockStep_of (es := s.host) (by simpa using h))
          · obtain ⟨v, rfl⟩ := memRead_next h
            exact .inl (.inl ⟨rest, _, rfl⟩)
        · simp at h
    · next g x rest he =>
      exact .inr ⟨by simp [blockResetDue, he], .inr (blockStep_of h)⟩
  · simp at h

/-- The step of a machine whose host is silent. -/
theorem step_block {s : State} (hc : configOk s.cfg = true) (hh : s.host = []) : step s = blockTurn exec s := by
  simp [step, turn, hc, hh]

/-- One more step of a run. -/
theorem core_run_succ {n : Nat} {s t : State} (h : step s = .next t) : core.run (n + 1) s = core.run n t := by
  simp [Host.Core.run, core, h]

end Sys2Proof.Machine
end

