-- ==== Sys2Proof/Tests/Slice0.lean ====
section
/-! SUPPORT. The model's own tests: words written out from 30_encoding.md R92, ill-formed commands and configurations, one step
of each command with the values of 95_test_vectors.md, and a state that meets the hypotheses of each statement for the provers. -/

namespace Sys2Proof.Tests

open Sys2Proof Sys2Proof.Machine

/-! The test-only parameters of 95_test_vectors.md. -/

def cfg0 : Config := { Config.platform with
  initAddr7 := 0x50, onoffMask := Vector.replicate 0x18 0xFF, swpuValue := 0x03, cspdValue := 0x03, diagGcc := 0xFF,
  halfLeft := #v[(0, 0), (0, 1), (1, 0), (2, 0), (3, 0)], halfRight := #v[(0, 15), (1, 15), (2, 15), (3, 15), (3, 14)],
  osdSettle := 0, hostBase := 0 }

/-- Block reset just done. -/
def idle0 : State where
  seq := .idle
  result := .ok
  addr7 := 0x50
  mem := []
  sdb := true
  live := true
  cfg := cfg0
  answers := []
  trace := []
  host := []
  reads := []

/-- A command in flight at a position, with the bytes and the next answers given. -/
def busyAt (w : Word) (pos : Nat) (mem : Memory) (answers : List BusAnswer) : State :=
  { idle0 with seq := .busy w pos .run, mem := mem, answers := answers }

/-- Every on/off control bit is 1, as after `RESET`. -/
def lit : Memory := (List.range 0x18).map fun k => (0x400 + k, 0xFF)

def oks (n : Nat) : List BusAnswer := List.replicate n ⟨true, 0x00⟩

/-- What a field of the next state is, if there is a next state. -/
def nextOf {α : Type} (o : Host.Outcome State Fault Refusal) (f : State → α) : Option α :=
  match o with
  | .next t => some (f t)
  | .fault _ => none
  | .refused _ => none

/-- The refusal a step answers, if it is refused. -/
def refusalOf (o : Host.Outcome State Fault Refusal) : Option Refusal :=
  match o with
  | .next _ => none
  | .fault _ => none
  | .refused r => some r

/-! Decoding: a word of each command, `OP RSV A B C` written out from R92. -/

theorem test_decode_rd1 : decode 0b0001_0000_00000001_00010000_00000000#32 = .ok (.rd1 0x01 0x10) := by rfl
theorem test_decode_rdb : decode 0b0010_0000_00000001_10111101_00000011#32 = .ok (.rdb 0x01 0xBD 0x03) := by rfl
theorem test_decode_wr1 : decode 0b0011_0000_00000011_00000001_10000000#32 = .ok (.wr1 0x03 0x01 0x80) := by rfl
theorem test_decode_wrb : decode 0b0100_0000_00000001_00100000_00000100#32 = .ok (.wrb 0x01 0x20 0x04) := by rfl
theorem test_decode_wrd : decode 0b0101_0000_11111110_11000101_00000000#32 = .ok (.wrd 0xFE 0xC5) := by rfl
theorem test_decode_reset : decode 0b1000_0000_00000000_00000000_00000000#32 = .ok .reset := by rfl
theorem test_decode_bright : decode 0b1001_0000_00000000_00000000_10000000#32 = .ok (.bright 0x80) := by rfl
theorem test_decode_set : decode 0b1010_0000_00000011_00001111_00000000#32 = .ok (.set 0x03 0x0F) := by rfl
theorem test_decode_setall : decode 0b1011_0000_00000001_00000000_00000000#32 = .ok (.setall 0x01) := by rfl
theorem test_decode_abmset : decode 0b1100_0000_00000010_00000101_00000011#32 = .ok (.abmset 0x02 0x05 0x03) := by rfl
theorem test_decode_chktrig : decode 0b1101_0000_00000000_00000000_00000000#32 = .ok .chktrig := by rfl
theorem test_decode_check : decode 0b1110_0000_00000000_00000000_00000000#32 = .ok .check := by rfl

/-- The words of V26 that match no row. -/
theorem test_decode_refuses :
    decode 0x00000000 = .error .reservedOp ∧ decode 0x60000000 = .error .reservedOp ∧
    decode 0x70000000 = .error .reservedOp ∧ decode 0xF0000000 = .error .reservedOp ∧
    decode 0x31030180 = .error .reservedBits ∧ decode 0x10011001 = .error .mustBeZero ∧
    decode 0x80010000 = .error .mustBeZero ∧ decode 0x90010080 = .error .mustBeZero ∧
    decode 0xA0000001 = .error .mustBeZero ∧ decode 0xB0000100 = .error .mustBeZero ∧
    decode 0xD0000100 = .error .mustBeZero ∧ decode 0xE0000001 = .error .mustBeZero := by
  refine ⟨?_, ?_, ?_, ?_, ?_, ?_, ?_, ?_, ?_, ?_, ?_, ?_⟩ <;> rfl

/-- `WR1 P_FUNC, F_GCC, 0x80` assembles to the word of R99. -/
theorem test_encode_wr1 : encode (.wr1 0x03 0x01 0x80) = 0x30030180 := by decide

/-! Well-formed commands (R97): V5, V9, V16, V21, V25, V26, V44. -/

theorem test_wellFormed_refuses_page : Instr.wellFormed cfg0 (.rd1 0x04 0x10) = false := by decide
theorem test_wellFormed_refuses_offset : Instr.wellFormed cfg0 (.rd1 0x03 0x12) = false := by decide
theorem test_wellFormed_refuses_overrun : Instr.wellFormed cfg0 (.rdb 0x01 0xBE 0x03) = false := by decide
theorem test_wellFormed_refuses_readOnly : Instr.wellFormed cfg0 (.wr1 0x00 0x18 0x01) = false := by decide
theorem test_wellFormed_refuses_readOnlyTarget : Instr.wellFormed cfg0 (.wrb 0x00 0x10 0x10) = false := by decide
theorem test_wellFormed_refuses_readOnlyStart : Instr.wellFormed cfg0 (.wrb 0x00 0x18 0x00) = false := by decide
theorem test_wellFormed_refuses_register : Instr.wellFormed cfg0 (.wrd 0xF0 0x00) = false := by decide
theorem test_wellFormed_refuses_half : Instr.wellFormed cfg0 (.setall 0x02) = false := by decide
theorem test_wellFormed_admits :
    Instr.wellFormed cfg0 (.rdb 0x01 0xBD 0x03) = true ∧ Instr.wellFormed cfg0 (.wr1 0x00 0x17 0x01) = true ∧
    Instr.wellFormed cfg0 (.wrb 0x00 0x10 0x08) = true := by decide

/-! Configurations that break R10. -/

theorem test_configOk : configOk cfg0 = true := by decide
theorem test_configOk_refuses_pages : configOk { cfg0 with pAbm := 0x01 } = false := by decide
theorem test_configOk_refuses_registers : configOk { cfg0 with regCmd := 0xFE } = false := by decide
theorem test_configOk_refuses_sharedOffset : configOk { cfg0 with fSwpu := 0x01 } = false := by decide
theorem test_configOk_refuses_offset : configOk { cfg0 with fReset := 0x12 } = false := by decide
theorem test_configOk_refuses_bit : configOk { cfg0 with cfgOsdBit := 8 } = false := by decide

/-! One step of each command. -/

/-- V1, the `BusRecv`: the byte goes to the shadow and not yet to `DBUF`. -/
theorem test_rd1_receives : nextOf (step (busyAt 0x10011000 12 [] [⟨true, 0x7F⟩])) (fun t => (t.mem, t.trace))
    = some ([(0x510, 0x7F)], [.recv (some 0x7F)]) := by decide
/-- V1, the last `BusStop`. -/
theorem test_rd1_fills_buffer : nextOf (step (busyAt 0x10011000 13 [(0x510, 0x7F)] [])) State.mem
    = some [(0x100, 0x7F), (0x510, 0x7F)] := by decide
/-- V8, the `BusRecv` of byte 2. -/
theorem test_rdb_receives : nextOf (step (busyAt 0x2001BD03 24 [] [⟨true, 0x03⟩])) State.mem
    = some [(0x5BF, 0x03)] := by decide
/-- V10, the failing `BusRecv` of byte 1. -/
theorem test_rdb_fails : nextOf (step (busyAt 0x20001803 18 [(0x101, 0xEE)] [⟨false, 0x11⟩])) (fun t => (t.mem, t.seq))
    = some ([(0x101, 0xEE)], .busy 0x20001803 19 .stopOwed) := by decide
/-- V13, the last `BusStop`. -/
theorem test_wr1_commits : nextOf (step (busyAt 0x30030180 11 [] [])) State.mem = some [(0x701, 0x80)] := by decide
/-- V15: the unlock key is refused. -/
theorem test_wr1_fails : nextOf (step (busyAt 0x30030180 2 [(0x701, 0x40)] [⟨false, 0⟩])) (fun t => (t.mem, t.trace))
    = some ([(0x701, 0x40)], [.send 0xC5 false]) := by decide
/-- V17, the last `BusStop`. -/
theorem test_wrb_commits : nextOf (step (busyAt 0x40012004 14 [(0x100, 0x11), (0x101, 0x22), (0x102, 0x33), (0x103, 0x44)] []))
    (fun t => (t.pwm 0x20, t.pwm 0x21, t.pwm 0x22, t.pwm 0x23)) = some (0x11, 0x22, 0x33, 0x44) := by decide
/-- V17, the second data byte. -/
theorem test_wrb_sends : nextOf (step (busyAt 0x40012004 11 [(0x100, 0x11), (0x101, 0x22)] [⟨true, 0⟩])) State.trace
    = some [.send 0x22 true] := by decide
/-- V24, the value. -/
theorem test_wrd_sends : nextOf (step (busyAt 0x50FD0200 2 [] [⟨true, 0⟩])) State.trace = some [.send 0x02 true] := by decide
/-- V25: no call, `RESULT` 3. -/
theorem test_wrd_refused : step (busyAt 0x50F00000 0 [] []) = .next { idle0 with result := .protocolError } := by rfl
/-- V28: the shadow is cleared although the first `BusStart` fails. -/
theorem test_reset_clears : nextOf (step (busyAt 0x80000000 0 [(0x100, 0x07), (0x505, 0x09)] [⟨false, 0⟩])) (fun t => (t.mem, t.trace))
    = some ([(0x100, 0x07)], [.start 0xA0 10 false]) := by decide
/-- V27, the last `BusStop` of step 3. -/
theorem test_reset_configures : nextOf (step (busyAt 0x80000000 25 [] [])) State.mem = some [(0x700, 0x01)] := by decide
/-- V33: current 0. -/
theorem test_bright_commits : nextOf (step (busyAt 0x90000000 11 [(0x701, 0x22)] [])) State.mem = some [] := by decide
/-- V35: blue at 0x9F. -/
theorem test_set_commits : nextOf (step (busyAt 0xA0030F00 11 [(0x100, 0xAA), (0x101, 0xBB), (0x102, 0xCC)] []))
    (fun t => t.pwm 0x9F) = some 0xCC := by decide
/-- V40: bit 7 of `onoff[0x15]` is clear. -/
theorem test_set_disabled : nextOf (step (busyAt 0xA0030F00 0 (Memory.write lit 0x415 0x7F) [])) (fun t => (t.seq, t.result, t.trace))
    = some (.idle, .addressingError, []) := by decide
/-- V42: blue of (0, 1). -/
theorem test_setall_commits : nextOf (step (busyAt 0xB0000000 47 [(0x100, 0x01), (0x101, 0x02), (0x102, 0x03)] []))
    (fun t => t.pwm 0x01) = some 0x03 := by decide
/-- V43: the cell check of position 3 fails at call 108. -/
theorem test_setall_disabled : nextOf (step (busyAt 0xB0000000 108 (Memory.write lit 0x40E 0xFE) [])) (fun t => (t.seq, t.result))
    = some (.idle, .addressingError) := by decide
/-- V46: red of (2, 5). -/
theorem test_abmset_commits : nextOf (step (busyAt 0xC00205FF 35 [] [])) State.mem = some [(0x685, 0x01)] := by decide
/-- V47: straight after block reset. -/
theorem test_abmset_disabled : nextOf (step (busyAt 0xC0020503 0 [] [])) (fun t => (t.seq, t.result, t.trace))
    = some (.idle, .addressingError, []) := by decide
/-- V48, the first configuration write. -/
theorem test_chktrig_clears : nextOf (step (busyAt 0xD0000000 23 [(0x700, 0xFF)] [])) State.mem = some [(0x700, 0xFB)] := by decide
/-- V48, the second configuration write. -/
theorem test_chktrig_sets : nextOf (step (busyAt 0xD0000000 35 [(0x700, 0x01)] [])) State.mem = some [(0x700, 0x05)] := by decide
/-- V50, the last `BusRecv`. -/
theorem test_check_receives : nextOf (step (busyAt 0xE0000000 302 [] [⟨true, 0x2F⟩])) State.mem = some [(0x447, 0x2F)] := by decide
/-- V50, the step after the last call. -/
theorem test_check_completes : nextOf (step (busyAt 0xE0000000 304 [] [])) (fun t => (t.seq, t.result)) = some (.idle, .ok) := by
  decide
/-- After a failed call, the owed `BusStop` and then `BUS_ERROR` (R113). -/
theorem test_failed_call : nextOf (step { busyAt 0x10011000 1 [] [] with seq := .busy 0x10011000 1 .stopOwed })
      (fun t => (t.seq, t.trace)) = some (.busy 0x10011000 2 .raising, [.stop]) ∧
    nextOf (step { busyAt 0x10011000 2 [] [] with seq := .busy 0x10011000 2 .raising }) (fun t => (t.seq, t.result))
      = some (.idle, .busError) := by decide

/-! The host port: V52, V54, V55. -/

def hostDoes (x : HostAccess) (s : State) : State := { s with host := [⟨0, x⟩] }

theorem test_host_reads_registers :
    nextOf (step (hostDoes (.memRead 0x004 4) idle0)) State.reads = some [⟨0x004, 4, 0x00000000⟩] ∧
    nextOf (step (hostDoes (.memRead 0x008 4) idle0)) State.reads = some [⟨0x008, 4, 0x000000A0⟩] ∧
    nextOf (step (hostDoes (.memRead 0x00C 4) idle0)) State.reads = some [⟨0x00C, 4, 0⟩] ∧
    nextOf (step (hostDoes (.memRead 0x510 1) { idle0 with mem := [(0x510, 0x7F)] })) State.reads = some [⟨0x510, 1, 0x7F⟩] := by
  decide
theorem test_host_writes_window : nextOf (step (hostDoes (.memWrite 0x510 1 0x33) idle0)) State.mem = some [] := by decide
theorem test_host_writes_while_busy :
    refusalOf (step (hostDoes (.memWrite 0x000 4 0) (busyAt 0x80000000 5 [] []))) = some .hostDuty ∧
    refusalOf (step (hostDoes (.memWrite 0x510 1 0) (busyAt 0x80000000 5 [] []))) = some .hostDuty := by decide
/-- 93 U15 (`CMD`), and D13 (`DEVADDR`). -/
theorem test_host_reads_while_busy :
    refusalOf (step (hostDoes (.memRead 0x000 4) (busyAt 0x80000000 5 [] []))) = some .hostDuty ∧
    nextOf (step (hostDoes (.memRead 0x008 4) (busyAt 0x80000000 5 [] []))) State.reads = some [⟨0x008, 4, 0xA0⟩] := by decide

/-- R24: a host write of `CMD` that is due issues the command. -/
theorem test_host_issues : nextOf (step (hostDoes (.memWrite 0x000 4 0x10011000) idle0)) (fun t => (t.seq, t.host))
    = some (.busy 0x10011000 0 .run, []) := by decide

/-! The assembler. -/

/-- The source's wait of 1,000,000 ns (00_scope.md) is a `DELAY` that assembles (log 13). -/
theorem test_delay_long : assembleLine cfg0 (.delay 1000000) = some [⟨0, .delay 1000000⟩] := by rfl

set_option maxRecDepth 4000 in
/-- R97, R101: a `WRBUF` past the end of `DBUF` still assembles, and its `WRB` is not admitted. -/
theorem test_wrbuf_long : (assembleLine cfg0 (.wrbuf (.num 0x01) (.num 0x00) (List.replicate 0xC1 (.num 0x07)))).map List.length
      = some (0xC1 + 2) ∧ Instr.wellFormed cfg0 (.wrb 0x01 0x00 0xC1) = false := by
  refine ⟨by rfl, by decide⟩

/-! For each statement with hypotheses, a state and operands that meet them all; for a statement of several clauses, one for
each clause. -/

/-- `StepRunsDecodedInstruction`, `EncodeInvertsDecode`: a word in flight that decodes, with the host silent and with an access
pending. -/
theorem test_witness_decoded :
    configOk idle0.cfg = true ∧ (busyAt 0x10011000 3 [] []).live = true ∧ decode 0x10011000 = .ok (.rd1 0x01 0x10) ∧
    (busyAt 0x10011000 3 [] []).host = [] ∧
    ({ busyAt 0x10011000 3 [] [] with host := [⟨0 + 1, .wait⟩] }).host = [⟨0 + 1, .wait⟩] := by
  refine ⟨by decide, rfl, rfl, rfl, rfl⟩

/-- `ReservedOpCompletesWithProtocolError`: each reserved `OP`. -/
theorem test_witness_reservedOp :
    configOk (busyAt 0x00000000 0 [] []).cfg = true ∧ (busyAt 0x00000000 0 [] []).host = [] ∧ fieldOp 0x00000000 = 0x0 ∧
    fieldOp 0x60000000 = 0x6 ∧ fieldOp 0x70000000 = 0x7 ∧ fieldOp 0xF0000000 = 0xF := by decide

/-- `NonzeroFixedFieldCompletesWithProtocolError`: a word of V26 for each clause. -/
theorem test_witness_fixedField :
    BreaksFixedField 0x31030180 ∧ BreaksFixedField 0x10011001 ∧ BreaksFixedField 0x50FEC501 ∧ BreaksFixedField 0xA0000001 ∧
    BreaksFixedField 0x80010000 ∧ BreaksFixedField 0xD0000100 ∧ BreaksFixedField 0xE0000001 ∧ BreaksFixedField 0x90010080 ∧
    BreaksFixedField 0xB0000100 := by
  refine ⟨?_, ?_, ?_, ?_, ?_, ?_, ?_, ?_, ?_⟩ <;> unfold BreaksFixedField <;> decide

/-- `AdmissionFollowsRule`: commands that fail the rule, at the extent and at the read-only boundary. -/
theorem test_witness_admission :
    configOk (busyAt 0xB0020000 0 [] []).cfg = true ∧ ¬ AdmitRule cfg0 (.setall 0x02) ∧ ¬ AdmitRule cfg0 (.wrd 0xF0 0x00) ∧
    ¬ AdmitRule cfg0 (.rd1 0x03 0x12) := by
  refine ⟨by decide, by unfold AdmitRule; decide, by unfold AdmitRule; decide, ?_⟩
  rintro ⟨e, h | h | h | h, hlt⟩
  · exact absurd h.1 (by decide)
  · exact absurd h.1 (by decide)
  · exact absurd h.1 (by decide)
  · rw [h.2] at hlt; exact absurd hlt (by decide)

/-- `FetchedWordRuns`. -/
theorem test_witness_fetched : configOk idle0.cfg = true ∧
    decodeTableWord 32 (encode (.rdb 0x01 0xBD 0x03)).toNat = some (.rdb 0x01 0xBD 0x03) := ⟨by decide, by rfl⟩

/-- `WaitPollsStatusUntilIdle`: while a command runs, with an illegal word in flight, in `Idle`, and with an illegal word and a later
access. -/
theorem test_witness_wait :
    (hostDoes .wait (busyAt 0xD0000000 0 [] [])).host = [⟨0, .wait⟩] ∧ decode 0xD0000000 = .ok .chktrig ∧
    (hostDoes .wait (busyAt 0xF0000000 0 [] [])).host = [⟨0, .wait⟩] ∧ decode 0xF0000000 = .error .reservedOp ∧
    (hostDoes .wait idle0).seq = .idle ∧ (hostDoes .wait idle0).live = true ∧
    ({ busyAt 0xF0000000 0 [] [] with host := [⟨0 + 1, .wait⟩] }).host = [⟨0 + 1, .wait⟩] := ⟨rfl, rfl, rfl, rfl, rfl, rfl, rfl⟩

/-- The only cell checks of `SET 3, 15` are of (3, 15), so a position after them is one a run reaches. -/
theorem test_set_passed (pos : Nat) : PassedCellsInRange cfg0 (.set 0x03 0x0F) pos := by
  intro k _ d row col h
  have := List.mem_of_getElem? h
  simp only [opsOf, opsSet, lightCell, withPre, writeOne, pageSelect, directWrite, List.cons_append, List.nil_append,
    List.mem_cons, List.not_mem_nil, or_false, reduceCtorEq, Op.start.injEq, Pre.cell.injEq, and_false] at this
  obtain ⟨-, rfl, rfl⟩ := this
  decide

/-- `NextStepIndependentOfOracle`, `StepNeverFaults`, `StepKeepsPositionBounded`: the last position of a command, an owed
`BusStop`, and `Idle`. -/
theorem test_witness_position :
    PositionOk (busyAt 0xA0030F00 36 [] []) ∧ PositionOk { idle0 with seq := .busy 0xA0030F00 35 .stopOwed } ∧
    PositionOk idle0 ∧ (∃ t, step (busyAt 0xA0030F00 36 [] []) = .next t) := by
  refine ⟨⟨by decide, by decide, test_set_passed 36⟩, ⟨by decide, by decide⟩, trivial, _, rfl⟩

/-- `NextStepIndependentOfOracle`: an access that is not due yet, while a command runs and in `Idle`. -/
theorem test_witness_pending :
    ({ busyAt 0xA0030F00 36 [] [] with host := [⟨0 + 1, .blockReset⟩] }).host = [⟨0 + 1, .blockReset⟩] ∧
    PositionOk { busyAt 0xA0030F00 36 [] [] with host := [⟨0 + 1, .blockReset⟩] } ∧
    PositionOk { idle0 with host := [⟨0 + 1, .blockReset⟩] } := ⟨rfl, ⟨by decide, by decide, test_set_passed 36⟩, trivial⟩

/-- `StepKeepsMemoryCanonical`: a step that writes the last byte of the shadow's `pwm`. -/
theorem test_witness_memory : MemoryOk (busyAt 0x2001BD03 24 [(0x100, 0x01), (0x800, 0x01)] [⟨true, 0x03⟩]) ∧
    ∃ t, step (busyAt 0x2001BD03 24 [(0x100, 0x01), (0x800, 0x01)] [⟨true, 0x03⟩]) = .next t := ⟨by decide, _, rfl⟩

/-- `StepKeepsTransactionsClosed`: inside a transaction, and at the last position. -/
theorem test_witness_transaction :
    TransactionOk { busyAt 0xA0030F00 1 [] [⟨true, 0⟩] with trace := [.start 0xA0 10 true] } ∧
    TransactionOk { busyAt 0xA0030F00 36 [] [] with trace := [.stop] } ∧
    blockResetDue (busyAt 0xA0030F00 36 [] []) = false ∧
    ∃ t, step { busyAt 0xA0030F00 1 [] [⟨true, 0⟩] with trace := [.start 0xA0 10 true] } = .next t :=
  ⟨⟨⟨by decide, by decide, test_set_passed 1⟩, by rfl⟩, ⟨⟨by decide, by decide, test_set_passed 36⟩, by rfl⟩, rfl, _, rfl⟩

/-- `EveryCommandCompletes`: a command, and an illegal word. -/
theorem test_witness_completes : configOk (busyAt 0xE0000000 0 [] []).cfg = true ∧ (busyAt 0xE0000000 0 [] []).live = true ∧
    (busyAt 0xE0000000 0 [] []).host = [] ∧ decode 0xE0000000 = .ok .check ∧ decode 0xE0000001 = .error .mustBeZero :=
  ⟨by decide, rfl, rfl, rfl, rfl⟩

/-- `BlockResetSetsEveryElement`, `ResetMeetsInvariants`: while a command runs, with the transaction it abandons open and with none. -/
theorem test_witness_blockReset : configOk (hostDoes .blockReset (busyAt 0x80000000 7 lit [])).cfg = true ∧
    (hostDoes .blockReset (busyAt 0x80000000 7 lit [])).host = [⟨0, .blockReset⟩] ∧
    traceOpen ({ busyAt 0x80000000 7 lit [] with trace := [.start 0xA0 10 true] }).trace = true ∧
    traceOpen (hostDoes .blockReset (busyAt 0x80000000 7 lit [])).trace = false := ⟨by decide, rfl, rfl, rfl⟩

/-- `RefusedBeforeFirstBlockReset`: the host silent, an access that is not due, and each access that is. -/
theorem test_witness_notLive :
    configOk ({ idle0 with live := false }).cfg = true ∧ ({ idle0 with live := false }).host = [] ∧
    ({ idle0 with live := false, host := [⟨0 + 1, .blockReset⟩] }).host = [⟨0 + 1, .blockReset⟩] ∧
    (hostDoes (.delay 5) { idle0 with live := false }).host = [⟨0, .delay 5⟩] ∧
    (hostDoes (.memRead 0x000 4) { idle0 with live := false }).host = [⟨0, .memRead 0x000 4⟩] ∧
    (hostDoes (.memWrite 0x000 4 0) { idle0 with live := false }).host = [⟨0, .memWrite 0x000 4 0⟩] ∧
    (hostDoes .wait { idle0 with live := false }).host = [⟨0, .wait⟩] ∧
    (hostDoes .blockReset { idle0 with live := false }).live = false := ⟨by decide, rfl, rfl, rfl, rfl, rfl, rfl, rfl⟩

/-- `BadConfigurationRefused`: each clause. -/
theorem test_witness_badConfig :
    ¬ [(0x00 : Byte), 0x01, 0x01, 0x03].Nodup ∧ ({ cfg0 with regCmd := 0xFE } : Config).regCmd = cfg0.regLock ∧
    ¬ [(0x00 : Byte), 0x01, 0x0F, 0x10, 0x00].Nodup ∧ (∃ f ∈ [(0x00 : Byte), 0x01, 0x0F, 0x10, 0x12], 0x12 ≤ f.toNat) ∧
    7 < ({ cfg0 with cfgOsdBit := 8 } : Config).cfgOsdBit := by decide

/-- `CommandWriteIssues`, `BufferReadAfterWrite`, `ShadowWindowReadOnly`: in `Idle`, at the last byte of `DBUF` and of each shadow
window; `CommandWriteIssues` also while a command runs, and with each access due. -/
theorem test_witness_port : configOk idle0.cfg = true ∧ (hostDoes (.memRead 0x800 1) idle0).live = true ∧
    (hostDoes (.memRead 0x800 1) idle0).host = [⟨0, .memRead 0x800 1⟩] ∧
    (hostDoes (.memWrite 0x000 4 0) idle0).host = [⟨0, .memWrite 0x000 4 0⟩] ∧ (hostDoes (.delay 5) idle0).host = [⟨0, .delay 5⟩] ∧ idle0.seq = .idle ∧ 0xBF < 0xC0 ∧ (0x47 < 0x48 ∧ 0x11 < 0x12) ∧
    isShadowAddr (0x447 : HostAddr).toNat = true ∧ isShadowAddr (0x5BF : HostAddr).toNat = true ∧
    isShadowAddr (0x6BF : HostAddr).toNat = true ∧ isShadowAddr (0x711 : HostAddr).toNat = true ∧
    isShadowAddr (0x800 : HostAddr).toNat = true ∧
    (busyAt 0x80000000 299 [] []).seq = .busy 0x80000000 299 .run := 
  ⟨by decide, rfl, rfl, rfl, rfl, rfl, by decide, by decide, rfl, rfl, rfl, rfl, rfl, rfl⟩

/-- `UnmappedAccessHasNoEffect`: a byte after each window, and a word between the registers and `DBUF`. -/
theorem test_witness_unmapped : ∀ p ∈ [((0x0FC : HostAddr), 4), (0x1C0, 1), (0x448, 1), (0x5C0, 1), (0x6C0, 1), (0x712, 1), (0x801, 1),
    (0x00C, 4), (0xFFF, 1)], ∀ k, k < max p.2 1 →
      0x00C ≤ p.1.toNat + k ∧ isDbufAddr (p.1.toNat + k) = false ∧ isShadowAddr (p.1.toNat + k) = false := by decide

/-- `WrongWidthRefused`, `BusyAccessRefused`: inside a register, and the first and last byte of `DBUF` and of the shadow. -/
theorem test_witness_width : (0x00B : HostAddr).toNat < 0x00C ∧ ¬ ((1 : Nat) = 4 ∧ (0x00B : HostAddr) = 0x008) ∧ isDbufAddr (0x100 : HostAddr).toNat = true ∧ isDbufAddr (0x1BF : HostAddr).toNat = true ∧
    isShadowAddr (0x400 : HostAddr).toNat = true ∧ isShadowAddr (0x800 : HostAddr).toNat = true ∧ (1 : Nat) ≠ 4 := by decide

/-- `CommandsKeepDeviceAddressAndOutput`, `IntmaskClearedOnlyByReset`: the clearing step of `RESET`. -/
theorem test_witness_frame_reset : ∃ t, exec .reset (busyAt 0x80000000 0 [(0x1BF, 0x01), (0x800, 0x01)] [⟨true, 0⟩]) = .next t ∧
    t.intmask = 0 ∧ t.dbuf 0xBF = 0x01 := ⟨_, rfl, by decide, by decide⟩

/-- No shadow byte stands below the on/off window. -/
theorem test_shadow_above_buffer (pg : Byte) (off : Nat) {a : Nat} (ha : a < 0x400) : shadowAddr cfg0 pg off ≠ .ok a := by
  intro h
  unfold shadowAddr at h
  split at h
  · simp at h
  · next p _ =>
    split at h
    · cases p <;> simp [Page.base] at h <;> omega
    · simp at h

/-- `ReadCommandsFrame`: `RD1`, `RDB` and `CHECK` receiving, with a byte of `DBUF` that none of them may change. -/
theorem test_witness_frame_read :
    (∃ t, exec (.rd1 0x01 0x10) (busyAt 0x10011000 12 [(0x101, 0x55)] [⟨true, 0x7F⟩]) = .next t) ∧
    (∃ t, exec (.rdb 0x01 0xBD 0x03) (busyAt 0x2001BD03 24 [] [⟨true, 0x03⟩]) = .next t) ∧
    (∃ t, exec .check (busyAt 0xE0000000 302 [] [⟨true, 0x2F⟩]) = .next t) ∧
    ¬ StoresTo cfg0 0x101 (.rd1 0x01 0x10) ∧ ¬ StoresTo cfg0 0x103 (.rdb 0x01 0xBD 0x03) ∧ ¬ StoresTo cfg0 0x100 .check := by
  refine ⟨⟨_, rfl⟩, ⟨_, rfl⟩, ⟨_, rfl⟩, ?_, ?_, ?_⟩
  · rintro (h | h)
    · exact test_shadow_above_buffer _ _ (by decide) h
    · exact absurd h (by simp [dbufAddr])
  · rintro ⟨k, hk, h | h⟩
    · exact test_shadow_above_buffer _ _ (by decide) h
    · have hk' : k < 3 := hk
      rw [dbufAddr, if_pos (show k < 0xC0 by omega)] at h
      simp at h
      omega
  · exact fun ⟨k, _, h⟩ => test_shadow_above_buffer _ _ (by decide) h

/-- `WriteCommandsFrame`: the commits, with a byte that none of them may change. -/
theorem test_witness_frame_write :
    (∃ t, exec (.wr1 0x03 0x01 0x80) (busyAt 0x30030180 11 [] []) = .next t) ∧
    (∃ t, exec (.wrb 0x01 0x20 0x04) (busyAt 0x40012004 14 [] []) = .next t) ∧
    (∃ t, exec (.wrd 0xFE 0xC5) (busyAt 0x50FEC500 3 [] []) = .next t) ∧
    (∃ t, exec (.bright 0x80) (busyAt 0x90000080 11 [] []) = .next t) ∧
    (∃ t, exec .chktrig (busyAt 0xD0000000 23 [] []) = .next t) ∧
    ¬ StoresTo cfg0 0x702 (.wr1 0x03 0x01 0x80) ∧ ¬ StoresTo cfg0 0x700 (.wrd 0xFE 0xC5) ∧
    ¬ StoresTo cfg0 0x702 (.bright 0x80) ∧ ¬ StoresTo cfg0 0x702 .chktrig ∧ ¬ StoresTo cfg0 0x100 (.wrb 0x01 0x20 0x04) := by
  refine ⟨⟨_, rfl⟩, ⟨_, rfl⟩, ⟨_, rfl⟩, ⟨_, rfl⟩, ⟨_, rfl⟩, ?_, ?_, ?_, ?_, ?_⟩
  · simp [StoresTo, shadowAddr, pageOf, cfg0, Config.platform, Page.ext, Page.base]
  · simp [StoresTo]
  · simp [StoresTo, shadowAddr, pageOf, cfg0, Config.platform, Page.ext, Page.base]
  · simp [StoresTo, shadowAddr, pageOf, cfg0, Config.platform, Page.ext, Page.base]
  · exact fun ⟨k, _, h⟩ => test_shadow_above_buffer _ _ (by decide) h

/-- `CellCommandsFrame`. -/
theorem test_witness_frame_cell :
    (∃ t, exec (.set 0x03 0x0F) (busyAt 0xA0030F00 35 lit []) = .next t) ∧
    (∃ t, exec (.setall 0x00) (busyAt 0xB0000000 179 lit []) = .next t) ∧
    (∃ t, exec (.abmset 0x02 0x05 0x03) (busyAt 0xC0020503 35 lit []) = .next t) ∧
    ¬ StoresTo cfg0 0x100 (.set 0x03 0x0F) ∧ ¬ StoresTo cfg0 0x100 (.setall 0x00) ∧
    ¬ StoresTo cfg0 0x100 (.abmset 0x02 0x05 0x03) := by
  have ne : ∀ pg off, shadowAddr cfg0 pg off ≠ .ok 0x100 := fun pg off => test_shadow_above_buffer pg off (by decide)
  exact ⟨⟨_, rfl⟩, ⟨_, rfl⟩, ⟨_, rfl⟩, fun ⟨_, _, h⟩ => ne _ _ h, fun ⟨_, _, _, _, h⟩ => ne _ _ h, fun ⟨_, _, h⟩ => ne _ _ h⟩

/-- `ResultChangesOnlyAtCompletion`: a step that goes on, and one that ends the command. -/
theorem test_witness_result :
    (∃ t, exec .check (busyAt 0xE0000000 303 [] []) = .next t ∧ t.seq ≠ .idle) ∧
    (∃ t, exec .check (busyAt 0xE0000000 304 [] []) = .next t ∧ t.seq = .idle) := ⟨⟨_, rfl, by decide⟩, _, rfl, rfl⟩

/-- `EveryPositionAnswersNext`: the first, the last and the completing position. -/
theorem test_witness_everyPosition :
    configOk cfg0 = true ∧ Instr.wellFormed cfg0 (.set 0x03 0x0F) = true ∧ PassedCellsInRange cfg0 (.set 0x03 0x0F) 35 ∧
    PassedCellsInRange cfg0 (.set 0x03 0x0F) 36 ∧ 0 < callCount (.set 0x03 0x0F) ∧ 35 < callCount (.set 0x03 0x0F) ∧
    36 = callCount (.set 0x03 0x0F) :=
  ⟨by decide, by decide, test_set_passed 35, test_set_passed 36, by decide, by decide, by decide⟩

/-- `SuccessfulCommandCounts`: `SET` on a cell that is enabled. -/
theorem test_witness_counts : configOk cfg0 = true ∧ CellsEnabled (busyAt 0xA0030F00 0 lit (oks 36)) (.set 0x03 0x0F) ∧
    (∀ a ∈ (busyAt 0xA0030F00 0 lit (oks 36)).answers, a.ok = true) ∧
    callCount (.set 0x03 0x0F) ≤ (busyAt 0xA0030F00 0 lit (oks 36)).answers.length := by
  unfold CellsEnabled CellEnabled; decide

/-- `FailedCallEndsInOneStop`: V28, the first call of `RESET`, and V3, the `BusRecv` of `RD1`. -/
theorem test_witness_failedCall :
    (nextAnswer (busyAt 0x80000000 0 lit [⟨false, 0⟩])).ok = false ∧
    (opsOf cfg0 .reset)[0]? = some (.start .write .clearShadow) ∧
    (opsOf cfg0 (.rd1 0x01 0x10))[12]? = some (.recv 0x01 0x10) ∧ Instr.wellFormed cfg0 (.rd1 0x01 0x10) = true :=
  ⟨rfl, rfl, rfl, by decide⟩

/-- `FailedWriteCommitsNothing`, first clause: `WR1`, `WRB` and `BRIGHT` whose first call fails. -/
theorem test_witness_failedWrite :
    (∃ t, execTimes 3 (.wr1 0x03 0x01 0x80) (busyAt 0x30030180 0 [] [⟨false, 0⟩]) = .next t ∧ t.seq = .idle ∧ t.result ≠ .ok) ∧
    (∃ t, execTimes 3 (.wrb 0x01 0x20 0x04) (busyAt 0x40012004 0 [] [⟨false, 0⟩]) = .next t ∧ t.seq = .idle ∧ t.result ≠ .ok) ∧
    (∃ t, execTimes 3 (.bright 0x80) (busyAt 0x90000080 0 [] [⟨false, 0⟩]) = .next t ∧ t.seq = .idle ∧ t.result ≠ .ok) :=
  ⟨⟨_, rfl, rfl, by decide⟩, ⟨_, rfl, rfl, by decide⟩, _, rfl, rfl, by decide⟩

/-- `FailedWriteCommitsNothing`, second clause: the last call of the last write of `SETALL` and of `CHKTRIG`. -/
theorem test_witness_failedSingles :
    14 < (singleWrites (busyAt 0xB0000000 0 lit []) (.setall 0x00)).length ∧ 8 < 9 ∧
    Instr.wellFormed cfg0 (.setall 0x00) = true ∧ (cellsOf cfg0 (.setall 0x00)).take (14 / 3 + 1) = halfPos cfg0 0x00 ∧
    (∀ p ∈ halfPos cfg0 0x00, CellEnabled (busyAt 0xB0000000 0 lit []) p.1.toNat p.2.toNat) ∧
    (oks 134).length = 9 * 14 + 8 ∧ 2 < (singleWrites (busyAt 0xD0000000 0 [] []) .chktrig).length ∧
    cellsOf cfg0 .chktrig = [] ∧ (oks 26).length = 9 * 2 + 8 ∧ (⟨false, 0⟩ : BusAnswer).ok = false := by
  refine ⟨by decide, by decide, by decide, by rfl, ?_, List.length_replicate, by decide, rfl, List.length_replicate, rfl⟩
  rw [show halfPos cfg0 0x00 = [(0, 0), (0, 1), (1, 0), (2, 0), (3, 0)] by rfl]
  simp only [List.forall_mem_cons]
  refine ⟨?_, ?_, ?_, ?_, ?_, by simp⟩ <;> unfold CellEnabled <;> decide

/-- `FailedWriteCommitsNothing`, third clause: V43, position 3 of `SETALL`. -/
theorem test_witness_failedSetall :
    (halfPos cfg0 0x00)[3]? = some (0x02, 0x00) ∧ ¬ CellEnabled (busyAt 0xB0000000 0 (Memory.write lit 0x40E 0xFE) []) 2 0 ∧
    (∀ p ∈ (halfPos cfg0 0x00).take 3,
      CellEnabled (busyAt 0xB0000000 0 (Memory.write lit 0x40E 0xFE) []) p.1.toNat p.2.toNat) ∧ (oks 81).length = 27 * 3 := by
  refine ⟨by rfl, by unfold CellEnabled; decide, ?_, List.length_replicate⟩
  rw [show (halfPos cfg0 0x00).take 3 = [(0, 0), (0, 1), (1, 0)] by rfl]
  simp only [List.forall_mem_cons]
  refine ⟨?_, ?_, ?_, by simp⟩ <;> unfold CellEnabled <;> decide

/-- `FailedBurstReadKeepsEarlierBytes`: the last call of the last byte of `CHECK`, the last call of its second page select, and the last
call of `RD1` and of the page select of an empty `RDB`. -/
theorem test_witness_failedReads : configOk cfg0 = true ∧ (1 < 2 ∧ 0x17 < 0x18 ∧ 3 < 4 ∧ 5 < 6) ∧
    (oks 203).length = 102 * 1 + 6 + 4 * 0x17 + 3 ∧ (oks 107).length = 102 * 1 + 5 ∧
    Instr.wellFormed cfg0 (.rd1 0x01 0xBF) = true ∧ 9 < 10 ∧ Instr.wellFormed cfg0 (.rdb 0x01 0xBF 0x00) = true ∧
    (busyAt 0xE0000000 0 [] (oks 203 ++ ⟨false, 0⟩ :: [])).answers = oks 203 ++ ⟨false, 0⟩ :: [] :=
  ⟨by decide, by decide, List.length_replicate, List.length_replicate, by decide, by decide, by decide, rfl⟩

/-- `FailedBurstReadKeepsEarlierBytes`: V10, byte 1 of 3. -/
theorem test_witness_failedBurst : pageOf cfg0 0x00 = some .onoff ∧ (0x18 : Byte).toNat + (0x03 : Byte).toNat ≤ Page.ext .onoff ∧
    1 < (0x03 : Byte).toNat ∧ (busyAt 0x20001803 0 [] (oks 13 ++ ⟨false, 0⟩ :: [])).answers = oks 13 ++ ⟨false, 0⟩ :: [] ∧
    3 < 4 ∧ (oks 13).length = 6 + 4 * 1 + 3 ∧ ∀ a ∈ oks 13, a.ok = true := by decide

/-- `Rd1ReadsOneByte`, `Wr1WritesOneByte`: the last `pwm` byte. -/
theorem test_witness_rd1_wr1 : pageOf cfg0 0x01 = some .pwm ∧ (0xBF : Byte).toNat < Page.ext .pwm ∧
    WritableAt cfg0 0x01 (0xBF : Byte).toNat ∧ (busyAt 0x1001BF00 0 [] (oks 10 ++ [])).answers = oks 10 ++ [] ∧
    (oks 10).length = 10 ∧ (∀ a ∈ oks 10, a.ok = true) ∧ (oks 9).length = 9 ∧ ∀ a ∈ oks 9, a.ok = true := by
  unfold WritableAt; decide

/-- `RdbReadsBurst`, `WrbWritesBurst`: bursts of 0 and of 3 bytes that end at the extent. -/
theorem test_witness_bursts : (0xBD : Byte).toNat < Page.ext .pwm ∧ (0xBD : Byte).toNat + (0x03 : Byte).toNat ≤ Page.ext .pwm ∧
    (0xBF : Byte).toNat + (0x00 : Byte).toNat ≤ Page.ext .pwm ∧ (oks 18).length = 6 + 4 * (0x03 : Byte).toNat ∧
    (oks 6).length = 6 + 4 * (0x00 : Byte).toNat ∧ (oks 11).length = 8 + (0x03 : Byte).toNat ∧
    AdmitRule cfg0 (.wrb 0x01 0xBD 0x03) ∧ ∀ a ∈ oks 18, a.ok = true := by
  refine ⟨by decide, by decide, by decide, by decide, by decide, by decide, ⟨0xC0, ?_, by decide, by decide, ?_, ?_⟩, by decide⟩
  · unfold ExtIs; decide
  · unfold WritableAt; decide
  · unfold WritableAt; decide

/-- `WrdWritesDirectRegister`, `WrdMakesItsFourCalls`: both direct registers. -/
theorem test_witness_wrd : (0xFE : Byte) = cfg0.regLock ∧ (0xFD : Byte) = cfg0.regCmd ∧ (oks 3).length = 3 ∧
    (∀ a ∈ oks 3, a.ok = true) ∧ (nextAnswer (busyAt 0x50FEC500 0 [] (oks 3))).ok = true := by decide

/-- `BrightSetsGlobalCurrent`, `ChktrigTogglesDetection`, `ResetReinitialises`, `CheckReadsZones`: enough `ok` answers. -/
theorem test_witness_runs : configOk cfg0 = true ∧ (oks 9).length = 9 ∧ (oks 27).length = 27 ∧ (oks 278).length = 278 ∧
    (oks 204).length = 204 ∧ (∀ a ∈ oks 27, a.ok = true) ∧ (busyAt 0xD0000000 0 [(0x700, 0x01)] (oks 27)).func cfg0.fConfig.toNat = 0x01 := by
  refine ⟨by decide, by decide, by decide, List.length_replicate, List.length_replicate, by decide, by decide⟩
theorem test_witness_oks (n : Nat) : ∀ a ∈ oks n, a.ok = true := by
  intro a h
  rw [(List.mem_replicate.mp h).2]

/-- `ResetClearsShadowFirst`: the first step, and a `RESET` whose first or last call fails. -/
theorem test_witness_resetFirst : (busyAt 0x80000000 0 lit []).seq = .busy 0x80000000 0 .run ∧
    (busyAt 0x80000000 0 lit (oks 0 ++ ⟨false, 0⟩ :: [])).answers = oks 0 ++ ⟨false, 0⟩ :: [] ∧
    (busyAt 0x80000000 0 lit (oks 277 ++ ⟨false, 0⟩ :: [])).answers = oks 277 ++ ⟨false, 0⟩ :: [] ∧
    (oks 0).length = 0 ∧ (oks 277).length = 277 ∧ 277 < 278 := ⟨rfl, rfl, rfl, rfl, List.length_replicate, by decide⟩

/-- `SetWritesCellColour`, `AbmsetAssignsCell`: the last cell; `SetallWritesHalf`: both halves. -/
theorem test_witness_cells : CellEnabled (busyAt 0xA0030F00 0 lit []) 3 15 ∧
    (∀ p ∈ halfPos cfg0 0x00, CellEnabled (busyAt 0xB0000000 0 lit []) p.1.toNat p.2.toNat) ∧
    (∀ p ∈ halfPos cfg0 0x01, CellEnabled (busyAt 0xB0010000 0 lit []) p.1.toNat p.2.toNat) ∧ (oks 135).length = 135 := by
  refine ⟨by unfold CellEnabled; decide, ?_, ?_, List.length_replicate⟩
  · rw [show halfPos cfg0 0x00 = [(0, 0), (0, 1), (1, 0), (2, 0), (3, 0)] by rfl]
    simp only [List.forall_mem_cons]
    refine ⟨?_, ?_, ?_, ?_, ?_, by simp⟩ <;> unfold CellEnabled <;> decide
  · rw [show halfPos cfg0 0x01 = [(0, 15), (1, 15), (2, 15), (3, 15), (3, 14)] by rfl]
    simp only [List.forall_mem_cons]
    refine ⟨?_, ?_, ?_, ?_, ?_, by simp⟩ <;> unfold CellEnabled <;> decide

/-- `DisabledCellEndsWithAddressingError`: rows and columns past the matrix (V38), a clear bit (V40), and position 3 of `SETALL`
(V43). -/
theorem test_witness_disabled :
    ¬ CellEnabled (busyAt 0xA0040000 0 lit []) 4 0 ∧ ¬ CellEnabled (busyAt 0xA0001000 0 lit []) 0 16 ∧
    ¬ CellEnabled (busyAt 0xA0030F00 0 (Memory.write lit 0x415 0x7F) []) 3 15 ∧
    (halfPos cfg0 0x00)[3]? = some (0x02, 0x00) ∧ ¬ CellEnabled (busyAt 0xB0000000 (36 * 3) (Memory.write lit 0x40E 0xFE) []) 2 0 := by
  unfold CellEnabled; decide

/-- `ReadCommitsWithItsReceive`: the last byte of each clause, with an `ok` and with an `error` answer. -/
theorem test_witness_readCommits :
    Instr.wellFormed cfg0 (.rd1 0x01 0xBF) = true ∧ 0x5BF = Page.base .pwm + (0xBF : Byte).toNat ∧
    Instr.wellFormed cfg0 (.rdb 0x01 0xBD 0x03) = true ∧ 2 < (0x03 : Byte).toNat ∧
    0x5BF = Page.base .pwm + ((0xBD : Byte).toNat + 2) ∧ 24 = 8 + 6 * 2 + 4 ∧
    Instr.wellFormed cfg0 .reset = true ∧ 0x711 = 0x700 + cfg0.fReset.toNat ∧ Instr.wellFormed cfg0 .check = true ∧ 0x17 < 0x18 ∧ 0x42F = 0x418 + 0x17 ∧ 0x447 = 0x430 + 0x17 ∧ 302 = 160 + 6 * 0x17 + 4 ∧
    (nextAnswer (busyAt 0x1001BF00 12 [] [⟨true, 0x7F⟩])).ok = true ∧ (nextAnswer (busyAt 0x1001BF00 12 [] [⟨false, 0⟩])).ok = false := by
  decide

/-- `WriteCommitsWithItsStop`: the last byte of each clause. -/
theorem test_witness_writeCommits :
    Instr.wellFormed cfg0 (.wr1 0x03 0x11 0x80) = true ∧ pageOf cfg0 0x03 = some .func ∧ 0x711 = Page.base .func + (0x11 : Byte).toNat ∧
    (3 < 4 ∧ 15 < 16 ∧ 2 < 3) ∧ 0x5BF = 0x500 + ((3 * 3 + 2) * 16 + 15) ∧ 0x6BF = 0x600 + ((3 * 3 + 2) * 16 + 15) ∧
    35 = 12 * 2 + 11 ∧ (halfPos cfg0 0x01)[4]? = some (0x03, 0x0E) ∧ 179 = 36 * 4 + 12 * 2 + 11 ∧
    Instr.wellFormed cfg0 (.setall 0x01) = true ∧
    colourByte (busyAt 0xA0030F00 35 [(0x100, 0xAA)] []) 2 = 0xAA ∧ configOk cfg0 = true ∧
    Instr.wellFormed cfg0 .reset = true ∧ Instr.wellFormed cfg0 .chktrig = true ∧
    (busyAt 0x80000000 61 [] []).seq = .busy 0x80000000 61 .run ∧ (busyAt 0x80000000 96 [] []).seq = .busy 0x80000000 96 .run ∧
    (busyAt 0x80000000 299 [] []).seq = .busy 0x80000000 299 .run ∧
    (busyAt 0xD0000000 35 [] []).seq = .busy 0xD0000000 35 .run := by decide

/-- `WrbCommitsWithItsStop`: a burst that ends at the extent. -/
theorem test_witness_wrbCommits : pageOf cfg0 0x01 = some .pwm ∧ (busyAt 0x4001BD03 13 [] []).seq
    = .busy 0x4001BD03 (10 + (0x03 : Byte).toNat) .run := ⟨by decide, rfl⟩

/-- `PseudoInstructionsExpand`: `BUF` at the last index of an operand, `PEEK` of the last `pwm` byte. -/
theorem test_witness_pseudo : (Operand.num 0xFF).value cfg0 = some 0xFF ∧ (Operand.param .pPwm).value cfg0 = some 0x01 ∧
    (Operand.num 0xBF).value cfg0 = some 0xBF ∧ shadowAddr cfg0 0x01 (0xBF : Byte).toNat = .ok 0x5BF := by
  refine ⟨by decide, by decide, by decide, by rfl⟩

/-- `OnOffBitOfPwmOffset`: the last channel (M1). -/
theorem test_witness_channel : (3 < 4 ∧ 15 < 16 ∧ 2 < 3) ∧ onOffByte 3 15 2 = 0x17 ∧ onOffBit 15 = 7 ∧ pwmOffset 3 15 2 = 0xBF := by
  decide

end Sys2Proof.Tests
end

section
/-! Configurations that break a constraint of 00_scope.md R10. -/

namespace Sys2Proof.Machine

/-- A configuration the model does not accept is refused whatever the host has pending and whatever the block is doing (R201). -/
theorem step_badConfig {s : State} (hc : ¬ configOk s.cfg = true) : step s = .refused .badConfig := by
  simp [step, turn, hc]

/-- Settles O20: each alternative contradicts one of the constraints that `configOk_iff` lists. -/
theorem badConfigurationRefused : Obligations.BadConfigurationRefused := by
  intro s hbad
  refine step_badConfig fun hc => ?_
  obtain ⟨hpages, hregs, hoffsets, hextent, hbit⟩ := configOk_iff.mp hc
  rcases hbad with hdup | heq | hdup | ⟨f, hf, hout⟩ | hbig
  · exact hdup hpages
  · exact hregs heq
  · exact hdup hoffsets
  · exact hout.not_gt (hextent f hf)
  · exact hbig.not_ge hbit

end Sys2Proof.Machine
end

section
/-! What a step of a command leaves behind: it ends the command and changes nothing else, or it makes one bus call. -/

namespace Sys2Proof.Machine

/-- The step of a command that makes a bus call: what it keeps, and where it may write (R22, R67). -/
structure CallsNext (i : Instr) (s t : State) : Prop where
  busy : t.seq ≠ .idle
  result : t.result = s.result
  rest : KeepsRest s t
  frame : ∀ a, ¬ StoresTo s.cfg a i → t.mem.read a = s.mem.read a
  memoryOk : MemoryOk s → MemoryOk t

theorem exec_completes_or_calls {i : Instr} {s t : State} (h : exec i s = .next t) :
    (∃ r, t = complete r s) ∨ CallsNext i s t := by
  obtain ⟨w, pos, ph, hs, hcase⟩ := exec_next h
  rcases hcase with ⟨-, rfl⟩ | ⟨-, -, op, hop, hcall⟩ | ⟨-, -, -, rfl⟩ | ⟨-, -, rfl⟩ | ⟨-, -, rfl⟩
  · exact .inl ⟨_, rfl⟩
  · rcases callStep_next hcall with
      ⟨-, -, -, -, -, rfl⟩ | ⟨e, -, hseq, hresult, hrest, -, -, -, -, hframe, hmem⟩
    · exact .inl ⟨_, rfl⟩
    · refine .inr ⟨by simp [hseq, hs], hresult, hrest, fun a ha => hframe a fun hop' => ha ?_, hmem⟩
      exact storesTo_of_op (List.mem_of_getElem? hop) hop'
  · exact .inl ⟨_, rfl⟩
  · exact .inr ⟨by simp [hs], rfl, ⟨rfl, rfl, rfl, rfl, rfl, rfl⟩, fun _ _ => rfl, id⟩
  · exact .inl ⟨_, rfl⟩

/-- A step of a command keeps the bytes in canonical form. -/
theorem exec_memoryOk {i : Instr} {s t : State} (h : exec i s = .next t) (hs : MemoryOk s) : MemoryOk t := by
  rcases exec_completes_or_calls h with ⟨r, rfl⟩ | hcall
  · exact hs
  · exact hcall.memoryOk hs

/-- Settles O13: every write of a step is to a byte that R38 maps, and every memory operation keeps the canonical form. -/
theorem stepKeepsMemoryCanonical : Obligations.StepKeepsMemoryCanonical := by
  intro s t hs h
  obtain ⟨-, ⟨rest, -, rfl⟩ | ⟨-, hhost | hblock⟩⟩ := step_next h
  · exact ⟨wf_nil, mapped_nil⟩
  · rcases hhost with ⟨es, rs, rfl⟩ | ⟨-, es, w, rfl⟩ | ⟨-, es, a, b, ha, rfl⟩
    · exact hs
    · exact hs
    · exact ⟨wf_write a b hs.1, mapped_write b (by simp [ha]) hs.2⟩
  · obtain ⟨es, -, ⟨-, rfl⟩ | ⟨w, pos, ph, -, ⟨i, -, hexec⟩ | ⟨e, -, rfl⟩⟩⟩ := hblock
    · exact hs
    · exact exec_memoryOk hexec hs
    · exact hs

/-! The invariant on the position, phase by phase. -/

theorem positionOk_idle {s : State} (hs : s.seq = .idle) : PositionOk s := by simp [PositionOk, hs]

/-- A word just issued is at position 0. -/
theorem positionOk_issued {s : State} {w : Word} (hs : s.seq = .busy w 0 .run) : PositionOk s := by
  cases hd : decode w <;> simp [PositionOk, hs, hd, PassedCellsInRange]

/-- The invariant speaks of `seq` and the configuration alone. -/
theorem positionOk_congr {s t : State} (hseq : t.seq = s.seq) (hcfg : t.cfg = s.cfg) :
    PositionOk t ↔ PositionOk s := by simp [PositionOk, hseq, hcfg]

section
variable {s : State} {w : Word} {pos : Nat} {i : Instr}

theorem positionOk_run (hs : s.seq = .busy w pos .run) (hd : decode w = .ok i) :
    PositionOk s ↔
      (admits s.cfg i = false → pos = 0) ∧ pos ≤ callCount i ∧ PassedCellsInRange s.cfg i pos := by
  simp [PositionOk, hs, hd]

theorem positionOk_stopOwed (hs : s.seq = .busy w pos .stopOwed) (hd : decode w = .ok i) :
    PositionOk s ↔ admits s.cfg i = true ∧ pos < callCount i := by
  simp [PositionOk, hs, hd]

theorem positionOk_raising (hs : s.seq = .busy w pos .raising) (hd : decode w = .ok i) :
    PositionOk s ↔ admits s.cfg i = true ∧ pos ≤ callCount i := by
  simp [PositionOk, hs, hd]

end

theorem passedCellsInRange_succ {c : Config} {i : Instr} {pos : Nat} (h : PassedCellsInRange c i pos)
    (hpos : ∀ d row col, (opsOf c i)[pos]? = some (.start d (.cell row col)) → row.toNat < 4 ∧ col.toNat < 16) :
    PassedCellsInRange c i (pos + 1) := by
  intro k hk d row col hop
  rcases Nat.lt_succ_iff_lt_or_eq.mp hk with hk | rfl
  · exact h k hk d row col hop
  · exact hpos d row col hop

/-- A cell whose check passes is in range (R149). -/
theorem inRange_of_cellCheck {s : State} {row col : Byte} (h : cellCheck s row col = true) :
    row.toNat < 4 ∧ col.toNat < 16 := by
  simp only [cellCheck, Bool.and_eq_true, decide_eq_true_eq] at h
  exact h.1

/-- A call that makes a `BusStart` after a cell check made it with the cell in range. -/
theorem inRange_of_callStep {s t : State} {d : Dir} {row col : Byte} (hs : t.seq ≠ .idle)
    (h : callStep s (.start d (.cell row col)) = .next t) : row.toNat < 4 ∧ col.toNat < 16 := by
  cases hc : cellCheck s row col with
  | true => exact inRange_of_cellCheck hc
  | false =>
    obtain rfl : raiseError .addressingError s = t := by simpa [callStep, startStep, hc] using h
    exact absurd rfl hs

/-- A procedure ends with a `BusStop`, so a call that is none is not the last one. -/
theorem succ_lt_callCount {c : Config} {i : Instr} {pos : Nat} {op : Op} (hop : (opsOf c i)[pos]? = some op)
    (hne : ∀ post, op ≠ .stop post) : pos + 1 < callCount i := by
  by_contra hge
  have hend : (opsOf c i)[pos + 1]? = none := by
    rw [List.getElem?_eq_none_iff, length_opsOf]
    omega
  have hgoes := (goesOn_succ (bracketed_opsOf c i) hop).mpr hne
  simp [goesOn, hend] at hgoes

theorem lt_callCount {c : Config} {i : Instr} {pos : Nat} {op : Op} (hop : (opsOf c i)[pos]? = some op) :
    pos < callCount i := by
  rw [← length_opsOf c i]
  exact (List.getElem?_eq_some_iff.mp hop).1

/-- A call of a procedure keeps the position within the procedure, whatever its status. -/
theorem callStep_positionOk {s t : State} {w : Word} {pos : Nat} {i : Instr} {op : Op}
    (hs : s.seq = .busy w pos .run) (hd : decode w = .ok i) (ha : admits s.cfg i = true)
    (hcells : PassedCellsInRange s.cfg i pos) (hop : (opsOf s.cfg i)[pos]? = some op)
    (h : callStep s op = .next t) : PositionOk t := by
  have hcfg := callStep_cfg h
  rcases callStep_next h with ⟨-, -, -, -, -, rfl⟩ | ⟨e, -, hseq, -, -, hfailed, -⟩
  · exact positionOk_idle rfl
  · rw [hs, advance_busy] at hseq
    cases he : e.failed with
    | true =>
      rw [he, if_pos rfl] at hseq
      rw [positionOk_stopOwed hseq hd, hcfg]
      exact ⟨ha, succ_lt_callCount hop (hfailed he).2⟩
    | false =>
      rw [he, if_neg Bool.false_ne_true] at hseq
      rw [positionOk_run hseq hd, hcfg]
      refine ⟨by simp [ha], lt_callCount hop, passedCellsInRange_succ hcells fun d row col hcell => ?_⟩
      obtain rfl : op = .start d (.cell row col) := by simpa [hop] using hcell
      exact inRange_of_callStep (by simp [hseq]) h

/-- A step of the command in flight keeps the position within its call count. -/
theorem exec_positionOk {s t : State} {w : Word} {pos : Nat} {ph : Phase} {i : Instr}
    (hs : s.seq = .busy w pos ph) (hd : decode w = .ok i) (hok : PositionOk s) (h : exec i s = .next t) :
    PositionOk t := by
  obtain ⟨w', pos', ph', hs', hcase⟩ := exec_next h
  obtain ⟨rfl, rfl, rfl⟩ : w = w' ∧ pos = pos' ∧ ph = ph' := by simpa [hs] using hs'
  rcases hcase with ⟨-, rfl⟩ | ⟨ha, rfl, op, hop, hcall⟩ | ⟨-, -, -, rfl⟩ | ⟨ha, rfl, rfl⟩ | ⟨-, -, rfl⟩
  · exact positionOk_idle rfl
  · obtain ⟨-, -, hcells⟩ := (positionOk_run hs hd).mp hok
    exact callStep_positionOk hs hd ha hcells hop hcall
  · exact positionOk_idle rfl
  · obtain ⟨-, hlt⟩ := (positionOk_stopOwed hs hd).mp hok
    exact (positionOk_raising (by simp [hs]) hd).mpr ⟨ha, hlt⟩
  · exact positionOk_idle rfl

/-- Settles O14: a call moves the position by one inside its procedure, the call that fails is never the last one, and every other
step leaves the position, issues a word at 0 or goes to `Idle`. -/
theorem stepKeepsPositionBounded : Obligations.StepKeepsPositionBounded := by
  intro s t hs h
  obtain ⟨-, ⟨rest, -, rfl⟩ | ⟨-, hhost | hblock⟩⟩ := step_next h
  · exact positionOk_idle rfl
  · rcases hhost with ⟨es, rs, rfl⟩ | ⟨-, es, w, rfl⟩ | ⟨hidle, es, a, b, -, rfl⟩
    · exact (positionOk_congr rfl rfl).mpr hs
    · exact positionOk_issued rfl
    · exact positionOk_idle hidle
  · obtain ⟨es, -, ⟨hidle, rfl⟩ | ⟨w, pos, ph, hseq, ⟨i, hd, hexec⟩ | ⟨e, -, rfl⟩⟩⟩ := hblock
    · exact positionOk_idle hidle
    · exact exec_positionOk (s := { s with host := es }) hseq hd ((positionOk_congr rfl rfl).mpr hs) hexec
    · exact positionOk_idle rfl

end Sys2Proof.Machine
end

section
/-! What the steps of a command keep (10_state.md R23, R33; 70_reset_and_hazards.md R223). -/

namespace Sys2Proof.Machine

/-- `RESET` may write shadow bytes only, so it keeps `DBUF` (R144). -/
theorem not_storesTo_reset_dbuf {c : Config} {k : Nat} (hk : k < 0xC0) : ¬ StoresTo c (0x100 + k) .reset := by
  have hdbuf : isDbufAddr (0x100 + k) = true := isDbufAddr_iff.mpr ⟨by omega, by omega⟩
  simp [StoresTo, not_shadow_of_dbuf hdbuf]

/-- Settles O29: a step that ends the command changes `seq` and `RESULT`, any other makes one call. -/
theorem commandsKeepDeviceAddressAndOutput : Obligations.CommandsKeepDeviceAddressAndOutput := by
  intro i s t h
  rcases exec_completes_or_calls h with ⟨r, rfl⟩ | hcall
  · exact ⟨⟨rfl, rfl, rfl, rfl, rfl, rfl⟩, fun _ _ _ => rfl⟩
  · refine ⟨hcall.rest, ?_⟩
    rintro rfl k hk
    exact hcall.frame _ (not_storesTo_reset_dbuf hk)

/-- Settles O34: `RESULT` is written by `complete` alone, which leaves `Busy` and makes no call. -/
theorem resultChangesOnlyAtCompletion : Obligations.ResultChangesOnlyAtCompletion := by
  intro i s t h
  rcases exec_completes_or_calls h with ⟨r, rfl⟩ | hcall
  · exact ⟨fun hbusy => absurd rfl hbusy, fun _ => ⟨rfl, rfl, rfl⟩⟩
  · exact ⟨fun _ => hcall.result, fun hidle => absurd hidle hcall.busy⟩

/-! What a command does in the step of a `BusStart`, beside the call (log 5). -/

/-- What stands before the call; only a `BusStart` has something. -/
def Op.pre : Op → Pre
  | .start _ pre => pre
  | .send _ => .none
  | .recv _ _ => .none
  | .stop _ => .none

theorem pre_writeOne {c : Config} {pg : Byte} {off : Nat} {v : Src} : ∀ op ∈ writeOne c pg off v, op.pre = .none :=
  forall_writeOne rfl (fun _ => rfl) rfl rfl rfl

theorem pre_writeBurst {c : Config} {pg : Byte} {off : Nat} {d : List Src} :
    ∀ op ∈ writeBurst c pg off d, op.pre = .none :=
  forall_writeBurst rfl (fun _ => rfl) rfl (fun _ _ => rfl) rfl

theorem pre_readBurst {c : Config} {pg : Byte} {off n : Nat} {b : Bool} :
    ∀ op ∈ readBurst c pg off n b, op.pre = .none :=
  forall_readBurst (fun _ => rfl) (fun _ => rfl) rfl (fun _ _ => rfl) (fun _ _ _ => rfl)

theorem pre_lightCell {c : Config} {pg row col : Byte} {b g r : Src} :
    ∀ op ∈ lightCell c pg row col b g r, op.pre = .none ∨ op.pre = .cell row col :=
  forall_lightCell (fun _ => .inl rfl) (fun _ => .inr rfl) (fun _ => .inl rfl) (.inl rfl) (fun _ _ => .inl rfl)
    (fun _ _ _ _ => .inl rfl)

theorem getElem?_withPre_succ (pre : Pre) (ops : List Op) (k : Nat) : (withPre pre ops)[k + 1]? = ops[k + 1]? := by
  unfold withPre
  split <;> rfl

/-- The clear of `RESET` stands before its first call and nowhere else (R162). -/
theorem pre_opsReset {c : Config} {pos : Nat} {op : Op} (h : (opsReset c)[pos]? = some op) :
    op.pre = .none ∨ (op.pre = .clearShadow ∧ pos = 0) := by
  cases pos with
  | zero =>
    obtain rfl : Op.start .write .clearShadow = op := Option.some.inj h
    exact .inr ⟨rfl, rfl⟩
  | succ k =>
    refine .inl ?_
    simp only [opsReset, List.append_assoc] at h
    rw [List.getElem?_append] at h
    split at h
    · rw [getElem?_withPre_succ] at h
      exact pre_readBurst op (List.mem_of_getElem? h)
    · have hmem := List.mem_of_getElem? h
      simp only [List.mem_append] at hmem
      rcases hmem with h | h | h | h | h | h
      · exact pre_writeOne op h
      · exact pre_writeOne op h
      · exact pre_writeOne op h
      · exact pre_writeOne op h
      · exact pre_writeBurst op h
      · exact pre_writeBurst op h

/-- The commands that check cells (R164 to R166). -/
def ChecksCells (i : Instr) : Prop := i.mnemonic = .set ∨ i.mnemonic = .setall ∨ i.mnemonic = .abmset

/-- Where a command clears the shadow and where it checks a cell (R149, R162, R164 to R166). -/
theorem pre_opsOf {c : Config} {i : Instr} {pos : Nat} {op : Op} (h : (opsOf c i)[pos]? = some op) :
    op.pre = .none ∨ (op.pre = .clearShadow ∧ i = .reset ∧ pos = 0) ∨
      (ChecksCells i ∧ ∃ row col, op.pre = .cell row col) := by
  have hmem := List.mem_of_getElem? h
  cases i with
  | rd1 page offset =>
    refine .inl ?_
    rcases List.mem_append.mp hmem with h | h
    · exact forall_pageSelect (P := fun op => op.pre = .none) rfl (fun _ => rfl) rfl op h
    · rcases (by simpa [readAt] using h) with rfl | rfl | rfl | rfl | rfl | rfl <;> rfl
  | rdb page offset size => exact .inl (pre_readBurst op hmem)
  | wr1 page offset data => exact .inl (pre_writeOne op hmem)
  | wrb page offset size => exact .inl (pre_writeBurst op hmem)
  | wrd reg value =>
    rcases (by simpa [opsOf, opsWrd, directWrite] using hmem) with rfl | rfl | rfl | rfl <;> exact .inl rfl
  | reset =>
    rcases pre_opsReset h with h | ⟨h, hpos⟩
    · exact .inl h
    · exact .inr (.inl ⟨h, rfl, hpos⟩)
  | bright data => exact .inl (pre_writeOne op hmem)
  | set row col =>
    rcases pre_lightCell op hmem with h | h
    · exact .inl h
    · exact .inr (.inr ⟨.inl rfl, _, _, h⟩)
  | setall half =>
    obtain ⟨p, -, hop⟩ := List.mem_flatMap.mp hmem
    rcases pre_lightCell op hop with h | h
    · exact .inl h
    · exact .inr (.inr ⟨.inr (.inl rfl), _, _, h⟩)
  | abmset row col chan =>
    rcases pre_lightCell op hmem with h | h
    · exact .inl h
    · exact .inr (.inr ⟨.inr (.inr rfl), _, _, h⟩)
  | chktrig =>
    simp only [opsOf, opsChktrig, List.mem_append] at hmem
    rcases hmem with (h | h) | h <;> exact .inl (pre_writeOne op h)
  | check =>
    rcases List.mem_append.mp hmem with h | h <;> exact .inl (pre_readBurst op h)

/-! `Shadow.intmask` (10_state.md R33). -/

/-- No page's window holds `intmask` (R38). -/
theorem shadowAddr_ne_intmask (c : Config) (pg : Byte) (off : Nat) : shadowAddr c pg off ≠ .ok intmaskAddr := by
  intro h
  obtain ⟨p, -, hlt, heq⟩ := shadowAddr_ok.mp h
  cases p <;> simp [Page.ext, Page.base] at hlt heq <;> omega

/-- Only `ShadowClear` reaches `intmask`. -/
theorem pre_of_storesTo_intmask {c : Config} {op : Op} (h : op.StoresTo c intmaskAddr) : op.pre = .clearShadow := by
  cases op with
  | start d pre =>
    cases pre with
    | none => exact h.elim
    | clearShadow => rfl
    | cell row col => exact h.elim
  | send x => exact h.elim
  | recv pg off => exact absurd h (shadowAddr_ne_intmask c pg off)
  | stop post =>
    cases post with
    | none => exact h.elim
    | commit pg off data =>
      obtain ⟨k, -, hk⟩ := h
      exact absurd hk (shadowAddr_ne_intmask c pg (off + k))
    | toBuf i pg off =>
      obtain ⟨hi, heq⟩ := dbufAddr_ok.mp h
      simp only [intmaskAddr] at heq
      omega

/-- The call after `ShadowClear` leaves `intmask` 0 (R144). -/
theorem callStep_clear_intmask {s t : State} {op : Op} (hpre : op.pre = .clearShadow) (h : callStep s op = .next t) :
    t.intmask = 0 := by
  cases op with
  | start d pre =>
    obtain rfl : pre = .clearShadow := hpre
    obtain rfl : busStart d (shadowClear s) = t := by simpa [callStep, startStep] using h
    simp [State.intmask, read_clearShadow, isShadowAddr]
  | send x => simp [Op.pre] at hpre
  | recv pg off => simp [Op.pre] at hpre
  | stop post => simp [Op.pre] at hpre

/-- Settles O33: every commit goes to a page or to `DBUF`, so only the clear before the first call of `RESET` reaches `intmask`. -/
theorem intmaskClearedOnlyByReset : Obligations.IntmaskClearedOnlyByReset := by
  intro i s t h
  obtain ⟨w, pos, ph, hs, hcase⟩ := exec_next h
  rcases hcase with ⟨-, rfl⟩ | ⟨-, rfl, op, hop, hcall⟩ | ⟨-, -, -, rfl⟩ | ⟨-, -, rfl⟩ | ⟨-, -, rfl⟩
  · exact .inl rfl
  · by_cases hpre : op.pre = .clearShadow
    · obtain ⟨rfl, rfl⟩ : i = .reset ∧ pos = 0 := by simpa [hpre] using pre_opsOf hop
      exact .inr ⟨rfl, ⟨w, hs⟩, callStep_clear_intmask hpre hcall⟩
    · refine .inl ?_
      rcases callStep_next hcall with ⟨-, -, -, -, -, rfl⟩ | ⟨e, -, -, -, -, -, -, -, -, hframe, -⟩
      · rfl
      · exact hframe _ fun hst => hpre (pre_of_storesTo_intmask hst)
  · exact .inl rfl
  · exact .inl rfl
  · exact .inl rfl

/-! Every position of an admitted command (10_state.md R22, 20_memory.md R67). -/

/-- Settles O35: the places of an admitted command's calls exist, so each position makes its call or fails its cell check; past the
last call the command completes. -/
theorem everyPositionAnswersNext : Obligations.EveryPositionAnswersNext := by
  intro i s w pos hc ha hs hcells
  refine ⟨fun hlt => ?_, ?_⟩
  · obtain ⟨op, hop⟩ : ∃ op, (opsOf s.cfg i)[pos]? = some op :=
      ⟨_, List.getElem?_eq_getElem (by rwa [length_opsOf])⟩
    obtain ⟨t, hcall⟩ := callStep_total (domainOk_of_op hc ha (fun _ => hcells) hop)
    have hexec : exec i s = .next t := by rw [exec_run ha hs, hop]; exact hcall
    rcases callStep_next hcall with ⟨d, row, col, rfl, -, rfl⟩ | ⟨e, htrace, hseq, hresult, hrest, -⟩
    · have hchecks : ChecksCells i := by simpa [Op.pre] using pre_opsOf hop
      exact .inr ⟨hexec, hchecks⟩
    · exact .inl ⟨t, e, hexec, htrace, hresult, hrest, by rw [hseq, hs, advance_busy]⟩
  · rintro rfl
    have hend : (opsOf s.cfg i)[callCount i]? = none := by simp [length_opsOf]
    rw [exec_run ha hs, hend]
    rfl

end Sys2Proof.Machine
end

section
/-! The host port (10_state.md R23 to R26, R38, R39; 20_memory.md R65): where an access goes, and what a read or write of each place
answers. -/

namespace Sys2Proof.Machine

/-! The target of an access. -/

theorem target_cmd : target 0x000 4 = .cmd := rfl
theorem target_status : target 0x004 4 = .status := rfl
theorem target_devaddr : target 0x008 4 = .devaddr := rfl

theorem target_of_dbuf {a : HostAddr} (h : isDbufAddr a.toNat = true) : target a 1 = .buffer := by
  simp [target, h]

theorem target_of_shadow {a : HostAddr} (h : isShadowAddr a.toNat = true) : target a 1 = .window := by
  have hdbuf : isDbufAddr a.toNat = false := by
    rw [← Bool.not_eq_true]
    exact fun hd => by simp [not_shadow_of_dbuf hd] at h
  simp [target, h, hdbuf]

/-- The bytes that an access covers: `n` of them, or the one addressed when `n` is 0. -/
theorem touches_iff {a n lo hi : Nat} (h : lo < hi) :
    touches a n lo hi = true ↔ ∃ k, k < max n 1 ∧ lo ≤ a + k ∧ a + k < hi := by
  simp only [touches, Bool.and_eq_true, decide_eq_true_eq]
  constructor
  · rintro ⟨h1, h2⟩
    exact ⟨lo - a, by omega, by omega, by omega⟩
  · rintro ⟨k, hk, hlo, hhi⟩
    omega

/-- An access is at a mapped place exactly when a byte it covers is one of a register, of `DBUF` or of the shadow (R38). -/
theorem touchesMapped_iff {a n : Nat} : touchesMapped a n = true ↔
    ∃ k, k < max n 1 ∧ (a + k < 0x00C ∨ isDbufAddr (a + k) = true ∨ isShadowAddr (a + k) = true) := by
  simp only [touchesMapped, Bool.or_eq_true, isDbufAddr_iff, isShadowAddr_iff]
  rw [touches_iff (by decide), touches_iff (by decide), touches_iff (by decide), touches_iff (by decide),
    touches_iff (by decide), touches_iff (by decide), touches_iff (by decide)]
  simp only [← exists_or, ← and_or_left, or_assoc]
  refine exists_congr fun k => and_congr_right fun _ => ?_
  simp only [dbufBase, dbufLen, onoffBase, extOnoff, pwmBase, extPwm, abmBase, extAbm, funcBase, extFunc, intmaskAddr]
  omega

/-- An access that covers no mapped byte is at an unmapped place, whatever its width (R39; log 6). -/
theorem target_of_unmapped {a : HostAddr} {n : Nat} (h : touchesMapped a.toNat n = false) : target a n = .unmapped := by
  have hout : ∀ k, k < max n 1 →
      ¬ (a.toNat + k < 0x00C ∨ isDbufAddr (a.toNat + k) = true ∨ isShadowAddr (a.toNat + k) = true) :=
    fun k hk hin => by simp [touchesMapped_iff.mpr ⟨k, hk, hin⟩] at h
  have hfirst := hout 0 (by omega)
  simp only [Nat.add_zero, not_or, Bool.not_eq_true] at hfirst
  obtain ⟨hreg, hdbuf, hshadow⟩ := hfirst
  simp [target, h, hdbuf, hshadow, show a.toNat ≠ 0 by omega, show a.toNat ≠ 4 by omega, show a.toNat ≠ 8 by omega]

/-! What a read or a write answers, by its target. -/

section
variable {s : State} {a : HostAddr} {n : Nat}

theorem memRead_status (ht : target a n = .status) : memRead a n s = .next (giveBack a n (statusWord s) s) := by
  simp [memRead, ht]

theorem memRead_devaddr (ht : target a n = .devaddr) : memRead a n s = .next (giveBack a n (devaddrWord s) s) := by
  simp [memRead, ht]

theorem memRead_unmapped (ht : target a n = .unmapped) : memRead a n s = .next (giveBack a n 0 s) := by
  simp [memRead, ht]

theorem memRead_cmd (ht : target a n = .cmd) (hs : s.seq = .idle) : memRead a n s = .next (giveBack a n 0 s) := by
  simp [memRead, ht, whileIdle_idle hs]

theorem memRead_buffer (ht : target a n = .buffer) (hs : s.seq = .idle) :
    memRead a n s = .next (giveBack a n ((s.mem.read a.toNat).zeroExtend 32) s) := by
  simp [memRead, ht, whileIdle_idle hs]

theorem memRead_window (ht : target a n = .window) (hs : s.seq = .idle) :
    memRead a n s = .next (giveBack a n ((s.mem.read a.toNat).zeroExtend 32) s) := by
  simp [memRead, ht, whileIdle_idle hs]

variable {v : Word}

/-- The read-only registers and the unmapped places ignore a write at any time (R23, R25, R39; log 7). -/
theorem memWrite_ignored (ht : target a n = .status ∨ target a n = .devaddr ∨ target a n = .unmapped) :
    memWrite a n v s = .next s := by
  rcases ht with ht | ht | ht <;> simp [memWrite, ht]

theorem memWrite_cmd (ht : target a n = .cmd) (hs : s.seq = .idle) : memWrite a n v s = .next (issue v s) := by
  simp [memWrite, ht, whileIdle_idle hs]

theorem memWrite_cmd_busy {w : Word} {pos : Nat} {ph : Phase} (ht : target a n = .cmd) (hs : s.seq = .busy w pos ph) :
    memWrite a n v s = .refused .hostDuty := by
  simp [memWrite, ht, whileIdle_busy hs]

theorem memWrite_buffer (ht : target a n = .buffer) (hs : s.seq = .idle) :
    memWrite a n v s = .next { s with mem := s.mem.write a.toNat (v.extractLsb' 0 8) } := by
  simp [memWrite, ht, whileIdle_idle hs]

theorem memWrite_window (ht : target a n = .window) (hs : s.seq = .idle) : memWrite a n v s = .next s := by
  simp [memWrite, ht, whileIdle_idle hs]

end

/-! `DBUF` and the shadow window. -/

/-- An address below 0x1000 is itself on the 12-bit port (R60). -/
theorem toNat_hostAddr {x : Nat} (h : x < 0x1000) : (BitVec.ofNat 12 x : HostAddr).toNat = x := by
  simpa using Nat.mod_eq_of_lt h

/-- Settles O24: a byte of `DBUF` is one cell of the memory, so reading after writing is reading that cell. -/
theorem bufferReadAfterWrite : Obligations.BufferReadAfterWrite := by
  intro s i v hi hs
  have haddr : (BitVec.ofNat 12 (0x100 + i) : HostAddr).toNat = 0x100 + i := toNat_hostAddr (by omega)
  have ht : target (BitVec.ofNat 12 (0x100 + i)) 1 = .buffer :=
    target_of_dbuf (by rw [haddr, isDbufAddr_iff]; omega)
  refine ⟨?_, { s with mem := s.mem.write (0x100 + i) (v.extractLsb' 0 8) }, ?_, ?_, ?_, rfl, ?_⟩
  · rw [memRead_buffer ht hs, haddr]; rfl
  · rw [memWrite_buffer ht hs, haddr]
  · exact read_write_same ..
  · exact fun a ha => read_write_ne _ _ ha
  · rw [memRead_buffer ht (by exact hs), haddr, read_write_same]

theorem memRead_shadow {s : State} {x : Nat} (h : isShadowAddr x = true) (hs : s.seq = .idle) :
    memRead (BitVec.ofNat 12 x) 1 s = .next (giveBack (BitVec.ofNat 12 x) 1 ((s.mem.read x).zeroExtend 32) s) := by
  have haddr : (BitVec.ofNat 12 x : HostAddr).toNat = x := toNat_hostAddr (by rw [isShadowAddr_iff] at h; omega)
  rw [memRead_window (target_of_shadow (by rwa [haddr])) hs, haddr]

/-- Settles O25: every window of R38 is one of shadow addresses, which the host reads while `Idle` and never writes. -/
theorem shadowWindowReadOnly : Obligations.ShadowWindowReadOnly := by
  intro s hs
  refine ⟨fun a v ha => ⟨memWrite_window (target_of_shadow ha) hs, memRead_window (target_of_shadow ha) hs⟩,
    ?_, ?_, ?_, ?_, ?_⟩
  · exact fun o ho => memRead_shadow (isShadowAddr_base (p := .onoff) ho) hs
  · exact fun o ho => memRead_shadow (isShadowAddr_base (p := .pwm) ho) hs
  · exact fun o ho => memRead_shadow (isShadowAddr_base (p := .abm) ho) hs
  · exact fun f hf => memRead_shadow (isShadowAddr_base (p := .func) hf) hs
  · exact memRead_shadow (x := 0x800) (by decide) hs

/-- Settles O26: an access none of whose bytes R38 maps has the target `unmapped`, at any width. -/
theorem unmappedAccessHasNoEffect : Obligations.UnmappedAccessHasNoEffect := by
  intro s a n v hout
  have ht : target a n = .unmapped := by
    refine target_of_unmapped ?_
    rw [← Bool.not_eq_true, touchesMapped_iff]
    rintro ⟨k, hk, hin⟩
    obtain ⟨hreg, hdbuf, hshadow⟩ := hout k hk
    simp only [hdbuf, hshadow, Bool.false_eq_true, or_false] at hin
    omega
  exact ⟨memRead_unmapped ht, memWrite_ignored (.inr (.inr ht))⟩

/-! The registers. -/

theorem statusWord_busy (s : State) : (statusWord s).getLsbD 0 = s.busy := by
  simp only [statusWord, BitVec.getLsbD_append]
  simp

theorem statusWord_result (s : State) : (statusWord s).extractLsb' 1 3 = s.result.code := by
  unfold statusWord
  rw [BitVec.extractLsb'_append_eq_of_le (Nat.le_refl 1)]
  exact BitVec.extractLsb'_append_eq_right

theorem statusWord_rest (s : State) : (statusWord s).extractLsb' 4 28 = 0 := by
  unfold statusWord
  rw [BitVec.extractLsb'_append_eq_of_le (by decide)]
  exact BitVec.extractLsb'_append_eq_left

/-- Settles O21: the fields are the parts `statusWord` is appended from. -/
theorem statusRegisterReads : Obligations.StatusRegisterReads := fun s =>
  ⟨statusWord_busy s, statusWord_result s, statusWord_rest s, memRead_status target_status, busy_true,
    fun _ => memWrite_ignored (.inl target_status)⟩

theorem devaddrWord_bit0 (s : State) : (devaddrWord s).getLsbD 0 = false := by
  simp only [devaddrWord, BitVec.getLsbD_append]
  simp

theorem devaddrWord_addr7 (s : State) : (devaddrWord s).extractLsb' 1 7 = s.addr7 := by
  unfold devaddrWord
  rw [BitVec.extractLsb'_append_eq_of_le (Nat.le_refl 1)]
  exact BitVec.extractLsb'_append_eq_right

theorem devaddrWord_rest (s : State) : (devaddrWord s).extractLsb' 8 24 = 0 := by
  unfold devaddrWord
  rw [BitVec.extractLsb'_append_eq_of_le (by decide)]
  exact BitVec.extractLsb'_append_eq_left

/-- Settles O22: the fields are the parts `devaddrWord` is appended from. -/
theorem deviceAddressReads : Obligations.DeviceAddressReads := fun s =>
  ⟨devaddrWord_bit0 s, devaddrWord_addr7 s, devaddrWord_rest s, memRead_devaddr target_devaddr,
    fun _ => memWrite_ignored (.inr (.inl target_devaddr))⟩

end Sys2Proof.Machine
end

section
/-! Whose turn a step is (20_memory.md R80; log 3), before and after the first block reset (10_state.md R40), and the invariants
that block reset meets (70_reset_and_hazards.md R220). -/

namespace Sys2Proof.Machine

/-! The turns. -/

section
variable {s : State} {x : HostAccess} {rest : List HostEvent} {g : Nat}

theorem step_due (hc : configOk s.cfg = true) (hh : s.host = ⟨0, x⟩ :: rest) :
    step s = hostTurn (blockTurn exec) x rest s := by
  simp [step, turn, hc, hh]

theorem step_later (hc : configOk s.cfg = true) (hh : s.host = ⟨g + 1, x⟩ :: rest) :
    step s = blockTurn exec { s with host := ⟨g, x⟩ :: rest } := by
  simp [step, turn, hc, hh]

/-- A `DELAY` passes whether or not a block reset has happened (log 8). -/
theorem step_delay {d : Nat} (hc : configOk s.cfg = true) (hh : s.host = ⟨0, .delay d⟩ :: rest) :
    step s = .next { s with host := rest } := step_due hc hh

theorem step_blockReset (hc : configOk s.cfg = true) (hh : s.host = ⟨0, .blockReset⟩ :: rest) :
    step s = .next { blockReset s with host := rest } := step_due hc hh

end

/-- After the first block reset the block's turn with a decoded word in flight is that command's meaning (R94). -/
theorem blockTurn_exec {s : State} {w : Word} {pos : Nat} {ph : Phase} {i : Instr} (hl : s.live = true)
    (hs : s.seq = .busy w pos ph) (hd : decode w = .ok i) : blockTurn exec s = exec i s := by
  simp [blockTurn, hl, hs, hd]

/-- Before the first block reset the block has no turn (R40). -/
theorem blockTurn_notLive {s : State} (hl : s.live = false) : blockTurn exec s = .refused .beforeBlockReset := by
  simp [blockTurn, hl]

/-- With the host silent the step is that meaning. -/
theorem step_silent {s : State} {w : Word} {pos : Nat} {ph : Phase} {i : Instr} (hc : configOk s.cfg = true)
    (hh : s.host = []) (hl : s.live = true) (hs : s.seq = .busy w pos ph) (hd : decode w = .ok i) :
    step s = exec i s := by
  rw [step_block hc hh, blockTurn_exec hl hs hd]

/-- Settles O8: with the host silent or an access still to come, the step is the block's turn. -/
theorem stepRunsDecodedInstruction : Obligations.StepRunsDecodedInstruction := by
  intro s w pos ph i hc hl hs hd
  refine ⟨fun hh => step_silent hc hh hl hs hd, fun g x rest hh => ?_⟩
  rw [step_later hc hh, blockTurn_exec (by exact hl) (by exact hs) hd]

/-! The word that `withFetchWord` issues (log 12). -/

/-- A row of all 32 bits is the word itself. -/
theorem tableWord_toNat (w : Word) : tableWord 32 w.toNat = w := by
  simp [tableWord, Nat.mod_eq_of_lt w.isLt]

theorem decode_of_decodeTableWord {w : Word} {i : Instr} (h : decodeTableWord 32 w.toNat = some i) :
    decode w = .ok i := by
  rw [decodeTableWord, tableWord_toNat] at h
  split at h
  · next j hj => rw [hj, Option.some.inj h]
  · simp at h

theorem withFetchWord_eq (s : State) (w : Word) :
    s.withFetchWord 32 w.toNat = { s with live := true, host := [], seq := .busy w 0 .run } := by
  rw [State.withFetchWord, tableWord_toNat]
  rfl

/-- Settles O9: `withFetchWord` leaves the block live with the word in flight and the host silent, so the step is the block's
turn. -/
theorem fetchedWordRuns : Obligations.FetchedWordRuns := by
  intro s i hc hd
  rw [withFetchWord_eq]
  exact step_silent (by exact hc) rfl rfl rfl (decode_of_decodeTableWord hd)

/-! Block reset. -/

/-- In `Idle` the third invariant asks that every transaction be closed. -/
theorem transactionOk_idle {s : State} (hs : s.seq = .idle) : TransactionOk s ↔ traceOpen s.trace = false := by
  simp [TransactionOk, positionOk_idle hs, hs]

/-- Settles O16: block reset lists no byte, goes to `Idle` and keeps the trace. -/
theorem resetMeetsInvariants : Obligations.ResetMeetsInvariants := by
  refine ⟨⟨⟨wf_nil, mapped_nil⟩, positionOk_idle rfl, (transactionOk_idle rfl).mpr rfl⟩, fun s rest hc hh => ?_⟩
  exact ⟨_, step_blockReset hc hh, ⟨wf_nil, mapped_nil⟩, positionOk_idle rfl, transactionOk_idle rfl⟩

/-- Settles O19: the host's accesses and the block's turn ask for `live`, but for a block reset and a `DELAY`. -/
theorem refusedBeforeFirstBlockReset : Obligations.RefusedBeforeFirstBlockReset := by
  intro s hc hl
  refine ⟨fun hh => ?_, fun g x rest hh => ?_, fun a n rest hh => ?_, fun a n v rest hh => ?_, fun rest hh => ?_,
    fun d rest hh => step_delay hc hh, fun rest hh => ⟨_, step_blockReset hc hh, rfl⟩⟩
  · rw [step_block hc hh, blockTurn_notLive hl]
  · rw [step_later hc hh, blockTurn_notLive (by exact hl)]
  · simp [step_due hc hh, hostTurn, hl]
  · simp [step_due hc hh, hostTurn, hl]
  · simp [step_due hc hh, hostTurn, hl]

/-! A due access after the first block reset. -/

/-- Settles O23: `CMD` takes a write while `Idle` alone, and an access that is due is the whole step. -/
theorem commandWriteIssues : Obligations.CommandWriteIssues := by
  refine ⟨fun s w => ⟨fun hs => ?_, fun w' pos ph hs => memWrite_cmd_busy target_cmd hs, memRead_cmd target_cmd⟩,
    fun s hc hl => ⟨fun a n rest hh => ?_, fun a n v rest hh => ?_, fun d rest hh => step_delay hc hh⟩⟩
  · exact ⟨issue w s, memWrite_cmd target_cmd hs, rfl, by rw [statusWord_busy]; rfl⟩
  · simp [step_due hc hh, hostTurn, hl]
  · simp [step_due hc hh, hostTurn, hl]

end Sys2Proof.Machine
end

section
/-! Accesses of the wrong width (20_memory.md R65), and whether the machine has a next step (R71, R81): never a matter of the oracle, and
always so with no host access due. -/

namespace Sys2Proof.Machine

/-! Accesses of the wrong width. -/

/-- An access that covers a mapped byte and is neither a whole register nor one byte of an array has the wrong width (log 6). -/
theorem target_of_wrongWidth {a : HostAddr} {n : Nat} (hm : touchesMapped a.toNat n = true)
    (hreg : n = 4 → a.toNat ≠ 0x000 ∧ a.toNat ≠ 0x004 ∧ a.toNat ≠ 0x008)
    (hbyte : n = 1 → ¬ isDbufAddr a.toNat = true ∧ ¬ isShadowAddr a.toNat = true) : target a n = .wrongWidth := by
  unfold target
  rw [if_neg fun h => (hreg h.1).1 h.2, if_neg fun h => (hreg h.1).2.1 h.2, if_neg fun h => (hreg h.1).2.2 h.2,
    if_neg fun h => (hbyte h.1).1 h.2, if_neg fun h => (hbyte h.1).2 h.2, if_pos hm]

/-- An access that addresses a mapped byte covers it, whatever its width. -/
theorem touchesMapped_of_addressed {a : HostAddr} (n : Nat)
    (h : a.toNat < 0x00C ∨ isDbufAddr a.toNat = true ∨ isShadowAddr a.toNat = true) :
    touchesMapped a.toNat n = true :=
  touchesMapped_iff.mpr ⟨0, by omega, h⟩

/-- The registers stand below the byte windows (R38). -/
theorem lt_of_byteAddr {x : Nat} (h : isDbufAddr x = true ∨ isShadowAddr x = true) : 0x100 ≤ x := by
  rw [isDbufAddr_iff, isShadowAddr_iff] at h
  omega

section
variable {s : State} {a : HostAddr} {n : Nat}

theorem memRead_wrongWidth (ht : target a n = .wrongWidth) : memRead a n s = .refused .wrongWidth := by
  simp [memRead, ht]

theorem memWrite_wrongWidth {v : Word} (ht : target a n = .wrongWidth) : memWrite a n v s = .refused .wrongWidth := by
  simp [memWrite, ht]

end

/-- Settles O27: the byte addressed is mapped, and the access is not the one shape that R65 admits there. -/
theorem wrongWidthRefused : Obligations.WrongWidthRefused := by
  intro s a n v h
  have ht : target a n = .wrongWidth := by
    rcases h with ⟨hlt, hshape⟩ | ⟨hbyte, hwidth⟩
    · refine target_of_wrongWidth (touchesMapped_of_addressed n (.inl hlt)) (fun hn => ?_) fun _ => ?_
      · have hne : ∀ r : HostAddr, (r = 0x000 ∨ r = 0x004 ∨ r = 0x008) → a.toNat ≠ r.toNat :=
          fun r hr heq => hshape ⟨hn, by rwa [BitVec.eq_of_toNat_eq heq]⟩
        exact ⟨hne 0x000 (by simp), hne 0x004 (by simp), hne 0x008 (by simp)⟩
      · rw [← not_or]
        intro hb
        have := lt_of_byteAddr hb
        omega
    · refine target_of_wrongWidth (touchesMapped_of_addressed n (.inr hbyte)) (fun _ => ?_) fun hn => absurd hn hwidth
      have := lt_of_byteAddr hbyte
      omega
  exact ⟨memRead_wrongWidth ht, memWrite_wrongWidth ht⟩

/-! The block's turn in `Idle` and with an illegal word. -/

/-- In `Idle` the block's turn changes nothing (R71, R208). -/
theorem blockTurn_idle {s : State} (hl : s.live = true) (hs : s.seq = .idle) : blockTurn exec s = .next s := by
  simp [blockTurn, hl, hs]

/-- A word that matches no row of the opcode table completes at once (R95, R96). -/
theorem blockTurn_illegal {s : State} {w : Word} {pos : Nat} {ph : Phase} {e : DecodeError} (hl : s.live = true)
    (hs : s.seq = .busy w pos ph) (hd : decode w = .error e) :
    blockTurn exec s = .next (complete .protocolError s) := by
  simp [blockTurn, hl, hs, hd, raiseError]

/-! The host's turn after the first block reset. -/

section
variable {block : State → Host.Outcome State Fault Refusal} {s : State} {rest : List HostEvent}

theorem hostTurn_memRead {a : HostAddr} {n : Nat} (hl : s.live = true) :
    hostTurn block (.memRead a n) rest s = memRead a n { s with host := rest } := by simp [hostTurn, hl]

theorem hostTurn_memWrite {a : HostAddr} {n : Nat} {v : Word} (hl : s.live = true) :
    hostTurn block (.memWrite a n v) rest s = memWrite a n v { s with host := rest } := by simp [hostTurn, hl]

/-- A `WAIT` lets the block take its turn and stays pending while `BUSY = 1` (log 3). -/
theorem hostTurn_wait_busy (hl : s.live = true) (hb : s.busy = true) : hostTurn block .wait rest s = block s := by
  simp [hostTurn, hl, hb]

/-- The last poll of a `WAIT` reads `STATUS` (R101). -/
theorem hostTurn_wait_idle (hl : s.live = true) (hb : s.busy = false) :
    hostTurn block .wait rest s = memRead 0x004 4 { s with host := rest } := by simp [hostTurn, hl, hb]

end

/-! Whether there is a next state. -/

/-- The outcome is a next state. -/
def HasNext (o : Host.Outcome State Fault Refusal) : Prop := ∃ t, o = .next t

@[simp] theorem hasNext_next (t : State) : HasNext (.next t) := ⟨t, rfl⟩
@[simp] theorem not_hasNext_fault (f : Fault) : ¬ HasNext (.fault f) := nofun
@[simp] theorem not_hasNext_refused (r : Refusal) : ¬ HasNext (.refused r) := nofun

/-! The oracle's answers decide what the next state is, never whether there is one (R81). -/

/-- `s` with other answers of the bus primitive still to come (R81; log 2). -/
def State.withAnswers (as : List BusAnswer) (s : State) : State := { s with answers := as }

section
variable (as : List BusAnswer) (s : State)

@[simp] theorem withAnswers_mem : (s.withAnswers as).mem = s.mem := rfl
@[simp] theorem withAnswers_cfg : (s.withAnswers as).cfg = s.cfg := rfl
@[simp] theorem withAnswers_live : (s.withAnswers as).live = s.live := rfl
@[simp] theorem withAnswers_busy : (s.withAnswers as).busy = s.busy := rfl

theorem applyPost_withAnswers (post : Post) :
    applyPost (s.withAnswers as) post = (applyPost s post).map (State.withAnswers as) := by
  cases post with
  | none => rfl
  | commit pg off data =>
    simp only [applyPost, evalAll_congr (withAnswers_cfg as s) (withAnswers_mem as s), withAnswers_cfg, withAnswers_mem]
    cases evalAll s data with
    | error f => rfl
    | ok bytes =>
      dsimp only
      cases commitWrite s.cfg pg off bytes s.mem <;> rfl
  | toBuf i pg off =>
    simp only [applyPost, withAnswers_cfg, withAnswers_mem]
    cases shadowAddr s.cfg pg off with
    | error f => rfl
    | ok a => cases dbufAddr i <;> rfl

theorem hasNext_callStep_withAnswers (op : Op) :
    HasNext (callStep (s.withAnswers as) op) ↔ HasNext (callStep s op) := by
  cases op with
  | start d pre => simp [callStep]
  | send x =>
    simp only [callStep, evalSrc_congr (withAnswers_cfg as s) (withAnswers_mem as s)]
    cases evalSrc s x <;> simp
  | recv pg off =>
    simp only [callStep, withAnswers_cfg]
    cases shadowAddr s.cfg pg off <;> simp
  | stop post =>
    simp only [callStep, applyPost_withAnswers]
    cases applyPost s post <;> simp [Except.map]

theorem hasNext_exec_withAnswers (i : Instr) : HasNext (exec i (s.withAnswers as)) ↔ HasNext (exec i s) := by
  cases hs : s.seq with
  | idle => rw [exec_idle hs, exec_idle (s := s.withAnswers as) hs]
  | busy w pos ph =>
    cases ha : admits s.cfg i with
    | false => simp [exec_notAdmitted ha hs, exec_notAdmitted (s := s.withAnswers as) ha hs]
    | true =>
      cases ph with
      | run =>
        rw [exec_run ha hs, exec_run (s := s.withAnswers as) ha hs, withAnswers_cfg]
        cases (opsOf s.cfg i)[pos]? with
        | some op => exact hasNext_callStep_withAnswers as s op
        | none => simp
      | stopOwed => simp [exec_stopOwed ha hs, exec_stopOwed (s := s.withAnswers as) ha hs]
      | raising => simp [exec_raising ha hs, exec_raising (s := s.withAnswers as) ha hs]

theorem hasNext_blockTurn_withAnswers :
    HasNext (blockTurn exec (s.withAnswers as)) ↔ HasNext (blockTurn exec s) := by
  cases hl : s.live with
  | false => rw [blockTurn_notLive hl, blockTurn_notLive (s := s.withAnswers as) hl]
  | true =>
    cases hs : s.seq with
    | idle => simp [blockTurn_idle hl hs, blockTurn_idle (s := s.withAnswers as) hl hs]
    | busy w pos ph =>
      cases hd : decode w with
      | ok i =>
        rw [blockTurn_exec hl hs hd, blockTurn_exec (s := s.withAnswers as) hl hs hd]
        exact hasNext_exec_withAnswers as s i
      | error e => simp [blockTurn_illegal hl hs hd, blockTurn_illegal (s := s.withAnswers as) hl hs hd]

/-- An access that is refused while `BUSY = 1` goes through exactly in `Idle`. -/
theorem hasNext_whileIdle (t : State) : HasNext (whileIdle s (.next t)) ↔ s.busy = false := by
  cases hb : s.busy <;> simp [whileIdle, hb]

theorem hasNext_memRead_withAnswers (a : HostAddr) (n : Nat) :
    HasNext (memRead a n (s.withAnswers as)) ↔ HasNext (memRead a n s) := by
  unfold memRead
  cases target a n <;> simp [hasNext_whileIdle]

theorem hasNext_memWrite_withAnswers (a : HostAddr) (n : Nat) (v : Word) :
    HasNext (memWrite a n v (s.withAnswers as)) ↔ HasNext (memWrite a n v s) := by
  unfold memWrite
  cases target a n <;> simp [hasNext_whileIdle]

theorem hasNext_hostTurn_withAnswers (x : HostAccess) (rest : List HostEvent) :
    HasNext (hostTurn (blockTurn exec) x rest (s.withAnswers as)) ↔ HasNext (hostTurn (blockTurn exec) x rest s) := by
  by_cases hl : s.live = true
  · cases x with
    | blockReset => simp [hostTurn]
    | delay d => simp [hostTurn]
    | memRead a n =>
      rw [hostTurn_memRead hl, hostTurn_memRead (s := s.withAnswers as) hl]
      exact hasNext_memRead_withAnswers as { s with host := rest } a n
    | memWrite a n v =>
      rw [hostTurn_memWrite hl, hostTurn_memWrite (s := s.withAnswers as) hl]
      exact hasNext_memWrite_withAnswers as { s with host := rest } a n v
    | wait =>
      cases hb : s.busy with
      | true =>
        rw [hostTurn_wait_busy hl hb, hostTurn_wait_busy (s := s.withAnswers as) hl hb]
        exact hasNext_blockTurn_withAnswers as s
      | false =>
        rw [hostTurn_wait_idle hl hb, hostTurn_wait_idle (s := s.withAnswers as) hl hb]
        exact hasNext_memRead_withAnswers as { s with host := rest } 0x004 4
  · cases x <;> simp [hostTurn, hl]

theorem hasNext_step_withAnswers : HasNext (step (s.withAnswers as)) ↔ HasNext (step s) := by
  by_cases hc : configOk s.cfg = true
  · rcases hh : s.host with _ | ⟨⟨_ | g, x⟩, rest⟩
    · rw [step_block hc hh, step_block (s := s.withAnswers as) hc hh]
      exact hasNext_blockTurn_withAnswers as s
    · rw [step_due hc hh, step_due (s := s.withAnswers as) hc hh]
      exact hasNext_hostTurn_withAnswers as s x rest
    · rw [step_later hc hh, step_later (s := s.withAnswers as) hc hh]
      exact hasNext_blockTurn_withAnswers as { s with host := ⟨g, x⟩ :: rest }
  · rw [step_badConfig hc, step_badConfig (s := s.withAnswers as) hc]

end

/-! The block's turn at a position that a run reaches. -/

/-- The command in flight answers at every position within the invariant: the places of its next call exist (R140). -/
theorem exec_hasNext {s : State} {w : Word} {pos : Nat} {ph : Phase} {i : Instr} (hc : configOk s.cfg = true)
    (hs : s.seq = .busy w pos ph) (hd : decode w = .ok i) (hok : PositionOk s) : HasNext (exec i s) := by
  cases ha : admits s.cfg i with
  | false => simp [exec_notAdmitted ha hs]
  | true =>
    cases ph with
    | run =>
      obtain ⟨-, -, hcells⟩ := (positionOk_run hs hd).mp hok
      rw [exec_run ha hs]
      cases hop : (opsOf s.cfg i)[pos]? with
      | some op => exact callStep_total (domainOk_of_op hc ha (fun _ => hcells) hop)
      | none => simp
    | stopOwed => simp [exec_stopOwed ha hs]
    | raising => simp [exec_raising ha hs]

/-- After a block reset the block always has a turn (R81). -/
theorem blockTurn_hasNext {s : State} (hc : configOk s.cfg = true) (hl : s.live = true) (hok : PositionOk s) :
    HasNext (blockTurn exec s) := by
  cases hs : s.seq with
  | idle => simp [blockTurn_idle hl hs]
  | busy w pos ph =>
    cases hd : decode w with
    | ok i =>
      rw [blockTurn_exec hl hs hd]
      exact exec_hasNext hc hs hd hok
    | error e => simp [blockTurn_illegal hl hs hd]

/-- Settles O11: no branch of a step that decides between a next state and a refusal or a fault reads the answers, and with no access due
the step is the block's turn. -/
theorem nextStepIndependentOfOracle : Obligations.NextStepIndependentOfOracle := by
  refine ⟨fun s as => (hasNext_step_withAnswers as s).symm, fun s hc hl hok => ⟨fun hh => ?_, fun g x rest hh => ?_⟩⟩
  · rw [step_block hc hh]
    exact ⟨blockTurn_hasNext hc hl hok, blockTurn_idle hl⟩
  · rw [step_later hc hh]
    exact ⟨blockTurn_hasNext (by exact hc) (by exact hl) ((positionOk_congr rfl rfl).mpr hok),
      blockTurn_idle (s := { s with host := ⟨g, x⟩ :: rest }) hl⟩

end Sys2Proof.Machine
end

section
/-! Encoding and decoding (30_encoding.md R90 to R99): each command has one word, and a word that is no command's is illegal. -/

namespace Sys2Proof

/-! One command, one word. -/

theorem decode_commandWord (op : BitVec 4) (a b c : Byte) :
    decode (commandWord op a b c) = decodeOp op.toNat a b c := by
  rw [decode, if_pos (fieldRsv_commandWord ..), fieldOp_commandWord, fieldA_commandWord, fieldB_commandWord,
    fieldC_commandWord]

theorem decode_encode (i : Instr) : decode (encode i) = .ok i := by
  cases i <;> exact decode_commandWord ..

/-- A command whose fixed fields are checked decodes only when they are 0. -/
theorem eq_ok_of_ite {p : Prop} [Decidable p] {i j : Instr} {e : DecodeError}
    (h : (if p then .ok j else .error e) = Except.ok i) : p ∧ j = i := by
  split at h
  · next hp => exact ⟨hp, Except.ok.inj h⟩
  · cases h

theorem encode_of_decodeOp {op : Nat} {a b c : Byte} {i : Instr} (h : decodeOp op a b c = .ok i) :
    encode i = commandWord (BitVec.ofNat 4 op) a b c := by
  unfold decodeOp at h
  split at h
  · obtain ⟨rfl, rfl⟩ := eq_ok_of_ite h; rfl
  · cases h; rfl
  · cases h; rfl
  · cases h; rfl
  · obtain ⟨rfl, rfl⟩ := eq_ok_of_ite h; rfl
  · obtain ⟨⟨rfl, rfl, rfl⟩, rfl⟩ := eq_ok_of_ite h; rfl
  · obtain ⟨⟨rfl, rfl⟩, rfl⟩ := eq_ok_of_ite h; rfl
  · obtain ⟨rfl, rfl⟩ := eq_ok_of_ite h; rfl
  · obtain ⟨⟨rfl, rfl⟩, rfl⟩ := eq_ok_of_ite h; rfl
  · cases h; rfl
  · obtain ⟨⟨rfl, rfl, rfl⟩, rfl⟩ := eq_ok_of_ite h; rfl
  · obtain ⟨⟨rfl, rfl, rfl⟩, rfl⟩ := eq_ok_of_ite h; rfl
  · cases h

theorem encode_of_decode {w : Word} {i : Instr} (h : decode w = .ok i) : encode i = w := by
  unfold decode at h
  split at h
  · next hrsv => rw [encode_of_decodeOp h, BitVec.ofNat_toNat, BitVec.setWidth_eq, commandWord_fields hrsv]
  · cases h

/-- The words that decode to a command are its word alone. -/
theorem decode_eq_ok_iff {w : Word} {i : Instr} : decode w = .ok i ↔ encode i = w :=
  ⟨encode_of_decode, fun h => h ▸ decode_encode i⟩

/-- Settles O1. -/
theorem decodeInvertsEncode : Obligations.DecodeInvertsEncode := decode_encode

/-- Settles O2: the fields that R92 marks `0` are checked, so no bit of the word is lost. -/
theorem encodeInvertsDecode : Obligations.EncodeInvertsDecode := fun _ _ => encode_of_decode

/-- Settles O4: each word is the one its command encodes to. -/
theorem specWordsDecode : Obligations.SpecWordsDecode := by
  refine ⟨?_, ?_, ?_, ?_, ?_, ?_, ?_, ?_, ?_, ?_, ?_, ?_⟩ <;> exact decode_eq_ok_iff.mpr rfl

/-! The rows of the opcode table (R94). -/

/-- The command of a row with these operand fields; it leaves out the fields that the row marks `0`. -/
def Mnemonic.command (m : Mnemonic) (a b c : Byte) : Instr :=
  match m with
  | .rd1 => .rd1 a b
  | .rdb => .rdb a b c
  | .wr1 => .wr1 a b c
  | .wrb => .wrb a b c
  | .wrd => .wrd a b
  | .reset => .reset
  | .bright => .bright c
  | .set => .set a b
  | .setall => .setall a
  | .abmset => .abmset a b c
  | .chktrig => .chktrig
  | .check => .check

theorem mnemonic_command (m : Mnemonic) (a b c : Byte) : (m.command a b c).mnemonic = m := by
  cases m <;> rfl

/-- A command is the one that its row and the fields of its word give. -/
theorem command_mnemonic (i : Instr) :
    i.mnemonic.command (fieldA (encode i)) (fieldB (encode i)) (fieldC (encode i)) = i := by
  cases i <;>
    simp only [encode, Instr.mnemonic, Mnemonic.command, fieldA_commandWord, fieldB_commandWord, fieldC_commandWord]

/-- A word matches a row exactly when it is the word of that row's command with its operand fields: the mask keeps `OP`, `RSV` and the
fields that the row marks `0`. -/
theorem matches_iff_encode_command (w : Word) (m : Mnemonic) :
    w &&& m.maskBits = m.matchBits ↔ w = encode (m.command (fieldA w) (fieldB w) (fieldC w)) := by
  have keep4 (x : BitVec 4) : x &&& 0xF#4 = x := BitVec.and_allOnes
  have keep8 (x : Byte) : x &&& 0xFF#8 = x := BitVec.and_allOnes
  rw [word_eq_iff, word_eq_iff, fieldOp_and, fieldRsv_and, fieldA_and, fieldB_and, fieldC_and]
  cases m <;>
    simp only [encode, Mnemonic.command, fieldOp_commandWord, fieldRsv_commandWord, fieldA_commandWord,
      fieldB_commandWord, fieldC_commandWord] <;>
    simp [Mnemonic.maskBits, Mnemonic.matchBits, fieldOp, fieldRsv, fieldA, fieldB, fieldC, keep4, keep8]

/-- Settles O3: a word that decodes is the word of its row's command, and so is a word that matches the row. -/
theorem decodeFollowsOpcodeTable : Obligations.DecodeFollowsOpcodeTable := by
  intro w m
  rw [matches_iff_encode_command]
  constructor
  · rintro ⟨i, hd, rfl⟩
    obtain rfl := encode_of_decode hd
    rw [command_mnemonic]
  · intro hw
    exact ⟨_, decode_eq_ok_iff.mpr hw.symm, mnemonic_command ..⟩

end Sys2Proof
end

section
/-! Illegal words (30_encoding.md R95, R96), the admission check (R97) and `WAIT` (R101): the commands that complete at once, and the turn
that a pending `WAIT` gives the block. -/

namespace Sys2Proof.Machine

/-! Illegal words. -/

/-- A word that is no command's is illegal. -/
theorem decode_error_of_ne_encode {w : Word} (hw : ∀ i, encode i ≠ w) : ∃ e, decode w = .error e := by
  cases hd : decode w with
  | ok i => exact absurd (decode_eq_ok_iff.mp hd) (hw i)
  | error e => exact ⟨e, rfl⟩

/-- No command has a reserved `OP` (R92, R95). -/
theorem fieldOp_encode_not_reserved (i : Instr) :
    ¬ (fieldOp (encode i) = 0x0 ∨ fieldOp (encode i) = 0x6 ∨ fieldOp (encode i) = 0x7 ∨ fieldOp (encode i) = 0xF) := by
  cases i <;> simp [encode, fieldOp_commandWord]

/-- The word of a command has 0 in every field that R92 marks `0` (R96). -/
theorem not_breaksFixedField_encode (i : Instr) : ¬ BreaksFixedField (encode i) := by
  cases i <;>
    simp [BreaksFixedField, encode, fieldOp_commandWord, fieldRsv_commandWord, fieldA_commandWord, fieldB_commandWord,
      fieldC_commandWord]

/-- With the host silent an illegal word completes in one step, with no call and no other change (R95, R96). -/
theorem step_illegal {s : State} {w : Word} {pos : Nat} {ph : Phase} (hc : configOk s.cfg = true)
    (hl : s.live = true) (hh : s.host = []) (hs : s.seq = .busy w pos ph) (hw : ∀ i, encode i ≠ w) :
    step s = .next (endsWith .protocolError s) := by
  obtain ⟨e, he⟩ := decode_error_of_ne_encode hw
  rw [step_block hc hh, blockTurn_illegal hl hs he]
  rfl

/-- Settles O5: the word of a command has none of these `OP`s. -/
theorem reservedOpCompletesWithProtocolError : Obligations.ReservedOpCompletesWithProtocolError := by
  intro s w hc hl hh hs hop
  refine step_illegal hc hl hh hs ?_
  rintro i rfl
  exact fieldOp_encode_not_reserved i hop

/-- Settles O6: the word of a command has 0 in all these fields. -/
theorem nonzeroFixedFieldCompletesWithProtocolError : Obligations.NonzeroFixedFieldCompletesWithProtocolError := by
  intro s w hc hl hh hs hbreaks
  refine step_illegal hc hl hh hs ?_
  rintro i rfl
  exact not_breaksFixedField_encode i hbreaks

/-! The admission check. -/

/-- Under a configuration that keeps R10 a page number names one page. -/
theorem pageOf_eq_some_iff {c : Config} (hc : configOk c = true) {pg : Byte} {p : Page} :
    pageOf c pg = some p ↔ pg = p.number c := by
  constructor
  · intro h
    unfold pageOf at h
    split_ifs at h with h1 h2 h3 h4 <;> cases h
    · exact h1
    · exact h2
    · exact h3
    · exact h4
  · rintro rfl
    exact pageOf_number hc p

theorem extIs_iff {c : Config} {pg : Byte} {e : Nat} : ExtIs c pg e ↔ ∃ p : Page, pg = p.number c ∧ e = p.ext := by
  constructor
  · rintro (⟨rfl, rfl⟩ | ⟨rfl, rfl⟩ | ⟨rfl, rfl⟩ | ⟨rfl, rfl⟩)
    · exact ⟨.onoff, rfl, rfl⟩
    · exact ⟨.pwm, rfl, rfl⟩
    · exact ⟨.abm, rfl, rfl⟩
    · exact ⟨.func, rfl, rfl⟩
  · rintro ⟨p, rfl, rfl⟩
    cases p with
    | onoff => exact .inl ⟨rfl, rfl⟩
    | pwm => exact .inr (.inl ⟨rfl, rfl⟩)
    | abm => exact .inr (.inr (.inl ⟨rfl, rfl⟩))
    | func => exact .inr (.inr (.inr ⟨rfl, rfl⟩))

/-- The extent test in the words of R97. -/
theorem inExtent_iff_extIs {c : Config} (hc : configOk c = true) {pg : Byte} {off size : Nat} :
    inExtent c pg off size = true ↔ ∃ e, ExtIs c pg e ∧ off < e ∧ off + size ≤ e := by
  simp only [inExtent_iff, pageOf_eq_some_iff hc, extIs_iff]
  constructor
  · rintro ⟨p, hpg, hlt, hle⟩
    exact ⟨p.ext, ⟨p, hpg, rfl⟩, hlt, hle⟩
  · rintro ⟨_, ⟨p, hpg, rfl⟩, hlt, hle⟩
    exact ⟨p, hpg, hlt, hle⟩

theorem writable_iff {c : Config} {pg : Byte} {off : Nat} : writable c pg off = true ↔ WritableAt c pg off := by
  simp [writable, WritableAt, imp_iff_not_or]

/-- The admission check is the one of R97. -/
theorem admits_iff {c : Config} (hc : configOk c = true) (i : Instr) : admits c i = true ↔ AdmitRule c i := by
  cases i with
  | rd1 page offset => simp [admits, AdmitRule, inExtent_iff_extIs hc]
  | rdb page offset size => simp [admits, AdmitRule, inExtent_iff_extIs hc]
  | wr1 page offset data =>
    simp [admits, AdmitRule, inExtent_iff_extIs hc, writable_iff, ← exists_and_right, and_assoc]
  | wrb page offset size =>
    simp [admits, AdmitRule, inExtent_iff_extIs hc, writable_iff, ← exists_and_right, and_assoc]
  | wrd reg value => simp [admits, AdmitRule]
  | setall half =>
    have : half.toNat ≤ 1 ↔ half = 0 ∨ half = 1 := by bv_omega
    simpa [admits, AdmitRule] using this
  | _ => simp [admits, AdmitRule]

/-- Settles O7: a command that breaks the rule is not admitted, and such a command completes in any phase. -/
theorem admissionFollowsRule : Obligations.AdmissionFollowsRule := by
  intro s i hc
  refine ⟨admits_iff hc i, fun w pos ph hs hrule => exec_notAdmitted ?_ hs⟩
  rwa [← admits_iff hc, Bool.not_eq_true] at hrule

/-! `WAIT`. -/

/-- While `BUSY = 1` a `WAIT` that is due gives the block its turn and stays pending (log 3). -/
theorem step_wait_busy {s : State} {rest : List HostEvent} {w : Word} {pos : Nat} {ph : Phase}
    (hc : configOk s.cfg = true) (hl : s.live = true) (hh : s.host = ⟨0, .wait⟩ :: rest)
    (hs : s.seq = .busy w pos ph) : step s = blockTurn exec s := by
  rw [step_due hc hh, hostTurn_wait_busy hl (busy_true.mpr ⟨w, pos, ph, hs⟩)]

/-- Settles O10: a `WAIT` that is due gives the block its turn while `BUSY = 1` and reads `STATUS` in `Idle`; an access that is not due
yet leaves the block its turn too. -/
theorem waitPollsStatusUntilIdle : Obligations.WaitPollsStatusUntilIdle := by
  intro s hc hl
  refine ⟨fun rest hh => ⟨fun w pos ph i hs hd => ?_, fun w pos ph e hs hd => ?_, fun hs => ?_⟩,
    fun g x rest w pos ph e hh hs hd => ?_⟩
  · rw [step_wait_busy hc hl hh hs, blockTurn_exec hl hs hd]
  · rw [step_wait_busy hc hl hh hs, blockTurn_illegal hl hs hd]
    rfl
  · rw [step_due hc hh, hostTurn_wait_idle hl (busy_false.mpr hs), memRead_status target_status]
    rfl
  · rw [step_later hc hh, blockTurn_illegal (by exact hl) (by exact hs) hd]
    rfl

end Sys2Proof.Machine
end

section
/-! Every command completes (60_exceptions.md R191, R192; 70_reset_and_hazards.md R232): each step of the command in flight either ends
it or raises `pos`, which its call count bounds. -/

namespace Sys2Proof.Machine

/-- A step of a command ends it or counts one call. -/
theorem exec_seq {i : Instr} {s t : State} {w : Word} {pos : Nat} {ph : Phase} (hs : s.seq = .busy w pos ph)
    (h : exec i s = .next t) : t.seq = .idle ∨ ∃ ph', t.seq = .busy w (pos + 1) ph' := by
  obtain ⟨w', pos', ph', hs', hcase⟩ := exec_next h
  rcases hcase with ⟨-, rfl⟩ | ⟨-, -, op, -, hcall⟩ | ⟨-, -, -, rfl⟩ | ⟨-, -, rfl⟩ | ⟨-, -, rfl⟩
  · exact .inl rfl
  · rcases callStep_next hcall with ⟨-, -, -, -, -, rfl⟩ | ⟨e, -, hseq, -⟩
    · exact .inl rfl
    · exact .inr ⟨_, by rw [hseq, hs, advance_busy]⟩
  · exact .inl rfl
  · exact .inr ⟨.raising, by rw [busStop_seq, hs, advance_busy]⟩
  · exact .inl rfl

/-- In every phase the invariant bounds the calls made by the call count. -/
theorem pos_le_callCount {s : State} {w : Word} {pos : Nat} {ph : Phase} {i : Instr} (hs : s.seq = .busy w pos ph)
    (hd : decode w = .ok i) (hok : PositionOk s) : pos ≤ callCount i := by
  cases ph with
  | run => exact ((positionOk_run hs hd).mp hok).2.1
  | stopOwed => exact ((positionOk_stopOwed hs hd).mp hok).2.le
  | raising => exact ((positionOk_raising hs hd).mp hok).2

/-- From any position that a run reaches, a command with `m` calls left of its count completes within `m + 1` steps. -/
theorem run_completes {w : Word} {i : Instr} (hd : decode w = .ok i) (m : Nat) {s : State} {pos : Nat} {ph : Phase}
    (hc : configOk s.cfg = true) (hl : s.live = true) (hh : s.host = []) (hs : s.seq = .busy w pos ph)
    (hok : PositionOk s) (hm : pos + m = callCount i) :
    ∃ n t, n ≤ m + 1 ∧ core.run n s = .next t ∧ t.seq = .idle := by
  induction m generalizing s pos ph with
  | zero =>
    obtain ⟨t, hexec⟩ := exec_hasNext hc hs hd hok
    have hrun : core.run 1 s = .next t := core_run_succ ((step_silent hc hh hl hs hd).trans hexec)
    refine ⟨1, t, le_rfl, hrun, (exec_seq hs hexec).resolve_right ?_⟩
    rintro ⟨ph', ht⟩
    have := pos_le_callCount ht hd (exec_positionOk hs hd hok hexec)
    omega
  | succ m ih =>
    obtain ⟨t, hexec⟩ := exec_hasNext hc hs hd hok
    have hstep : step s = .next t := (step_silent hc hh hl hs hd).trans hexec
    rcases exec_seq hs hexec with ht | ⟨ph', ht⟩
    · exact ⟨1, t, by omega, core_run_succ hstep, ht⟩
    · obtain ⟨⟨-, -, hlive, hcfg, hhost, -⟩, -⟩ := commandsKeepDeviceAddressAndOutput i s t hexec
      obtain ⟨n, u, hn, hrun, hu⟩ := ih (by rwa [hcfg]) (hlive.trans hl) (hhost.trans hh) ht
        (exec_positionOk hs hd hok hexec) (by omega)
      exact ⟨n + 1, u, by omega, (core_run_succ hstep).trans hrun, hu⟩

/-- Settles O17: a command is issued at position 0, and an illegal word ends in its one step. -/
theorem everyCommandCompletes : Obligations.EveryCommandCompletes := by
  intro s w hc hl hh hs
  refine ⟨fun i hd => run_completes hd (callCount i) hc hl hh hs (positionOk_issued hs) (Nat.zero_add _),
    fun e hd => ?_⟩
  have hstep : step s = .next (complete .protocolError s) := by rw [step_block hc hh, blockTurn_illegal hl hs hd]
  exact ⟨_, core_run_succ hstep, rfl⟩

end Sys2Proof.Machine
end

section
/-! The assembler's expansions (30_encoding.md R99 to R101). -/

namespace Sys2Proof.Machine

/-! Programs. -/

theorem assemble_nil (c : Config) : assemble c [] = some [] := rfl

theorem assemble_cons (c : Config) (l : Line) (ls : List Line) :
    assemble c (l :: ls) = (do return (← assembleLine c l) ++ (← assemble c ls)) := by
  simp only [assemble]
  cases assembleLine c l with
  | none => rfl
  | some es => cases assemble c ls <;> rfl

theorem assemble_append (c : Config) (ls ms : List Line) :
    assemble c (ls ++ ms) = (do return (← assemble c ls) ++ (← assemble c ms)) := by
  induction ls with
  | nil => simp [assemble_nil]
  | cons l ls ih => simp [assemble_cons, ih, Option.bind_assoc]

theorem assemble_single (c : Config) (l : Line) : assemble c [l] = assembleLine c l := by
  simp [assemble_cons, assemble_nil]

/-! The bytes of `DBUF`, one `BUF` line each. -/

theorem value_param (c : Config) (p : ParamName) : (Operand.param p).value c = some (p.value c) := rfl

theorem value_num {c : Config} {n : Nat} (h : n ≤ 0xFF) : (Operand.num n).value c = some (BitVec.ofNat 8 n) := by
  simp [Operand.value, h]

theorem value_num_eq_none {c : Config} {n : Nat} (h : ¬ n ≤ 0xFF) : (Operand.num n).value c = none := by
  simp [Operand.value, h]

theorem operandValues_cons (c : Config) (x : Operand) (xs : List Operand) :
    operandValues c (x :: xs) = (do return (← x.value c) :: (← operandValues c xs)) := by
  simp only [operandValues]
  cases x.value c with
  | none => rfl
  | some b => cases operandValues c xs <;> rfl

/-- The lines `BUF k, d0 ; BUF k+1, d1 ; ...`, while the indices are operands. -/
theorem assemble_bufLines (c : Config) (d : List Operand) (k : Nat) (h : k + d.length ≤ 0x100) :
    assemble c (d.mapIdx fun j x => .buf (.num (k + j)) x) = (operandValues c d).map (bufAll k) := by
  induction d generalizing k with
  | nil => rfl
  | cons x xs ih =>
    simp only [List.length_cons] at h
    have hrest := ih (k + 1) (by omega)
    simp only [Nat.add_right_comm k 1, Nat.add_assoc k _ 1] at hrest
    simp [assemble_cons, assembleLine, value_num (c := c) (show k ≤ 0xFF by omega), hrest, operandValues_cons, bufAll,
      Option.bind_assoc, Option.map_bind, Option.bind_map, Function.comp_def]

/-- Settles O60: each expansion is put together from the accesses of its lines; a `WRBUF` of more than 0xFF bytes is an error on both sides,
because its count is no operand. -/
theorem pseudoInstructionsExpand : Obligations.PseudoInstructionsExpand := by
  refine ⟨fun c page => ⟨rfl, ?_⟩, fun c row col r g b => ?_, fun c half r g b => ?_, fun c page offset d => ?_,
    fun c i v x y hi hv => ?_, fun c pg off x y a hpg hoff ha => ?_, fun c t => ⟨rfl, rfl⟩, rfl⟩
  · simp [assemble_cons, assemble_nil, assembleLine, value_param, ParamName.value, Option.bind_assoc]
  · simp [assemble_cons, assemble_nil, assembleLine, value_num, bufAll, Option.bind_assoc]
  · simp [assemble_cons, assemble_nil, assembleLine, value_num, bufAll, Option.bind_assoc]
  · rw [assemble_append, assemble_single]
    by_cases hlen : d.length ≤ 0xFF
    · have hbufs := assemble_bufLines c d 0 (by omega)
      simp only [Nat.zero_add] at hbufs
      simp [hbufs, assembleLine, Option.bind_assoc, Option.bind_map]
    · simp [assembleLine, value_num_eq_none hlen]
  · simp [assembleLine, hi, hv, bufAccess, soon]
  · simp [assembleLine, hpg, hoff, ha, soon]

end Sys2Proof.Machine
end

section
/-! Transactions over the steps of the machine (40_protocol_engine.md R113, 60_exceptions.md R196): where the sequencer stands
tells whether the bus is inside one. -/

namespace Sys2Proof.Machine

theorem traceOpen_append (tr : List BusEvent) (e : BusEvent) : traceOpen (tr ++ [e]) = insideAfter (traceOpen tr) e := by
  simp [traceOpen]

/-- After a call a transaction is open, if the call began one or went on with one and was no `BusStop`. -/
theorem insideAfter_iff {inside : Bool} {e : BusEvent} (h : e.isStart = true ∨ e = .stop ∨ inside = true) :
    insideAfter inside e = true ↔ e ≠ .stop := by
  cases e with
  | start a8 timeout ok => simp [insideAfter]
  | send b ok => simpa [insideAfter, BusEvent.isStart] using h
  | recv b => simpa [insideAfter, BusEvent.isStart] using h
  | stop => simp [insideAfter]

/-- A call that neither begins nor ends a transaction goes on with one. -/
theorem goesOn_of_op {ops : List Op} {k : Nat} {op : Op} (h : ops[k]? = some op) :
    goesOn ops k = true ↔ ∀ d pre, op ≠ .start d pre := by
  cases op <;> simp [goesOn, h]

/-! The invariant, phase by phase. -/

section
variable {s : State} {w : Word} {pos : Nat} {i : Instr}

theorem transactionOk_run (hs : s.seq = .busy w pos .run) (hd : decode w = .ok i) :
    TransactionOk s ↔ PositionOk s ∧ traceOpen s.trace = goesOn (opsOf s.cfg i) pos := by
  simp [TransactionOk, hs, hd]

theorem transactionOk_stopOwed (hs : s.seq = .busy w pos .stopOwed) (hd : decode w = .ok i) :
    TransactionOk s ↔ PositionOk s ∧ traceOpen s.trace = true := by
  simp [TransactionOk, hs, hd]

theorem transactionOk_raising (hs : s.seq = .busy w pos .raising) (hd : decode w = .ok i) :
    TransactionOk s ↔ PositionOk s ∧ traceOpen s.trace = false := by
  simp [TransactionOk, hs, hd]

theorem transactionOk_illegal {ph : Phase} {e : DecodeError} (hs : s.seq = .busy w pos ph) (hd : decode w = .error e) :
    TransactionOk s ↔ PositionOk s ∧ traceOpen s.trace = false := by
  simp [TransactionOk, hs, hd]

end

/-- The invariant speaks of `seq`, the configuration and the trace alone. -/
theorem transactionOk_congr {s t : State} (hseq : t.seq = s.seq) (hcfg : t.cfg = s.cfg) (htrace : t.trace = s.trace) :
    TransactionOk t ↔ TransactionOk s := by
  simp [TransactionOk, positionOk_congr hseq hcfg, hseq, hcfg, htrace]

/-- Before its first call a procedure is outside every transaction. -/
theorem goesOn_opsOf_zero (c : Config) (i : Instr) : goesOn (opsOf c i) 0 = false := goesOn_zero (bracketed_opsOf c i)

/-- A word just issued finds every transaction closed. -/
theorem transactionOk_issued {s : State} {w : Word} (hs : s.seq = .busy w 0 .run) (ht : traceOpen s.trace = false) :
    TransactionOk s := by
  cases hd : decode w with
  | ok i => exact (transactionOk_run hs hd).mpr ⟨positionOk_issued hs, by rw [ht, goesOn_opsOf_zero]⟩
  | error e => exact (transactionOk_illegal hs hd).mpr ⟨positionOk_issued hs, ht⟩

/-- The call at the sequencer's position leaves a transaction open unless it is a `BusStop`, whatever its status. -/
theorem callStep_transactionOk {s t : State} {w : Word} {pos : Nat} {i : Instr} {op : Op}
    (hs : s.seq = .busy w pos .run) (hd : decode w = .ok i) (hopen : traceOpen s.trace = goesOn (opsOf s.cfg i) pos)
    (hop : (opsOf s.cfg i)[pos]? = some op) (hpos : PositionOk t) (h : callStep s op = .next t) : TransactionOk t := by
  have hcfg := callStep_cfg h
  rcases callStep_next h with ⟨d, row, col, rfl, -, rfl⟩ | ⟨e, htrace, hseq, -, -, hfailed, -, hstop, hstart, -⟩
  · refine (transactionOk_idle rfl).mpr ?_
    rw [complete_trace, hopen, ← Bool.not_eq_true, goesOn_of_op hop]
    simp
  · have hgoes : insideAfter (traceOpen s.trace) e = true ↔ ∀ post, op ≠ .stop post := by
      rw [insideAfter_iff, Ne, hstop, not_exists]
      rw [hstart, hstop, hopen, goesOn_of_op hop]
      cases op <;> simp
    rw [hs, advance_busy] at hseq
    cases he : e.failed with
    | true =>
      rw [he, if_pos rfl] at hseq
      refine (transactionOk_stopOwed hseq hd).mpr ⟨hpos, ?_⟩
      rw [htrace, traceOpen_append, hgoes]
      exact (hfailed he).2
    | false =>
      rw [he, if_neg Bool.false_ne_true] at hseq
      refine (transactionOk_run hseq hd).mpr ⟨hpos, ?_⟩
      rw [htrace, traceOpen_append, hcfg, Bool.eq_iff_iff, hgoes, goesOn_succ (bracketed_opsOf s.cfg i) hop]

/-- A step of the command in flight keeps its place in the transactions, and ends it outside them. -/
theorem exec_transactionOk {s t : State} {w : Word} {pos : Nat} {ph : Phase} {i : Instr}
    (hs : s.seq = .busy w pos ph) (hd : decode w = .ok i) (hok : TransactionOk s) (h : exec i s = .next t) :
    TransactionOk t := by
  obtain ⟨w', pos', ph', hs', hcase⟩ := exec_next h
  obtain ⟨rfl, rfl, rfl⟩ : w = w' ∧ pos = pos' ∧ ph = ph' := by simpa [hs] using hs'
  have hpos := exec_positionOk hs hd hok.1 h
  rcases hcase with ⟨ha, rfl⟩ | ⟨ha, rfl, op, hop, hcall⟩ | ⟨-, rfl, hend, rfl⟩ | ⟨-, rfl, rfl⟩ | ⟨-, rfl, rfl⟩
  · obtain ⟨rfl, rfl⟩ : pos = 0 ∧ ph = .run := by
      have hposOk := hok.1
      simp only [PositionOk, hs, hd] at hposOk
      exact hposOk.1 ha
    obtain ⟨-, hopen⟩ := (transactionOk_run hs hd).mp hok
    exact (transactionOk_idle rfl).mpr (hopen.trans (goesOn_opsOf_zero ..))
  · obtain ⟨-, hopen⟩ := (transactionOk_run hs hd).mp hok
    exact callStep_transactionOk hs hd hopen hop hpos hcall
  · obtain ⟨-, hopen⟩ := (transactionOk_run hs hd).mp hok
    exact (transactionOk_idle rfl).mpr (hopen.trans (by simp [goesOn, hend]))
  · refine (transactionOk_raising (by rw [busStop_seq, hs, advance_busy]) hd).mpr ⟨hpos, ?_⟩
    rw [busStop_trace, traceOpen_append]
    rfl
  · exact (transactionOk_idle rfl).mpr ((transactionOk_raising hs hd).mp hok).2

/-- Settles O15: a procedure's calls are bracketed, so each call keeps what the position says of the bus; a failed call owes the
`BusStop` that closes its transaction; and a command is issued and completes with every transaction closed. -/
theorem stepKeepsTransactionsClosed : Obligations.StepKeepsTransactionsClosed := by
  intro s t hs hreset h
  obtain ⟨-, ⟨rest, hhost, -⟩ | ⟨-, hhost | hblock⟩⟩ := step_next h
  · simp [blockResetDue, hhost] at hreset
  · rcases hhost with ⟨es, rs, rfl⟩ | ⟨hidle, es, w, rfl⟩ | ⟨hidle, es, a, b, -, rfl⟩
    · exact (transactionOk_congr rfl rfl rfl).mpr hs
    · exact transactionOk_issued rfl ((transactionOk_idle hidle).mp hs)
    · exact (transactionOk_congr rfl rfl rfl).mpr hs
  · obtain ⟨es, -, ⟨-, rfl⟩ | ⟨w, pos, ph, hseq, ⟨i, hd, hexec⟩ | ⟨e, hd, rfl⟩⟩⟩ := hblock
    · exact (transactionOk_congr rfl rfl rfl).mpr hs
    · exact exec_transactionOk (s := { s with host := es }) hseq hd ((transactionOk_congr rfl rfl rfl).mpr hs) hexec
    · exact (transactionOk_idle rfl).mpr ((transactionOk_illegal hseq hd).mp hs).2

end Sys2Proof.Machine
end

section
/-! The frames of the commands (40_protocol_engine.md R121 to R125; 42_backlight_sequences.md R163, R167, R168). -/

namespace Sys2Proof.Machine

/-- A step of a command changes no byte but those the command may write. -/
theorem exec_frame {i : Instr} {s t : State} (h : exec i s = .next t) {a : Nat} (ha : ¬ StoresTo s.cfg a i) :
    t.mem.read a = s.mem.read a := by
  rcases exec_completes_or_calls h with ⟨r, rfl⟩ | hcall
  · rfl
  · exact hcall.frame a ha

/-- Settles O30: the places of the read commands are those that `StoresTo` lists. -/
theorem readCommandsFrame : Obligations.ReadCommandsFrame := fun _ _ _ _ h _ ha => exec_frame h ha

/-- Settles O31: the places of the write commands are those that `StoresTo` lists. -/
theorem writeCommandsFrame : Obligations.WriteCommandsFrame := fun _ _ _ _ h _ ha => exec_frame h ha

end Sys2Proof.Machine
end

section
/-! The protocol-primitive commands when every call returns `ok` (40_protocol_engine.md R121 to R125): each is the run
of its procedure. -/

namespace Sys2Proof.Machine

/-- A command whose run leads to `after s w pos tr rest m` ends with `OK` there, in one step more than its calls. -/
theorem execTimes_ok {i : Instr} {s : State} {w : Word} {pos : Nat} {tr : List BusEvent} {rest : List BusAnswer} {m : Memory}
    (ha : admits s.cfg i = true) (hs : s.seq = .busy w 0 .run) (h : Runs (opsOf s.cfg i) s (after s w pos tr rest m)) :
    ∃ t, execTimes (callCount i + 1) i s = .next t ∧ t.seq = .idle ∧ t.result = .ok ∧ t.mem = m ∧
      t.trace = s.trace ++ tr ∧ t.answers = rest ∧ KeepsRest s t :=
  ⟨_, execTimes_complete ha hs h, rfl, rfl, rfl, rfl, rfl, rfl, rfl, rfl, rfl, rfl, rfl⟩

/-- A page select takes the first six answers (R115). -/
theorem runs_pageSelect_first {s : State} {w : Word} {pos : Nat} {as rest : List BusAnswer} (pg : Byte)
    (hs : s.seq = .busy w pos .run) (ha : s.answers = as ++ rest) (hl : 6 ≤ as.length) (hok : ∀ a ∈ as, a.ok = true) :
    Runs (pageSelect s.cfg pg) s (after s w (pos + 8) (selectTrace s pg) (as.drop 6 ++ rest) s.mem) :=
  runs_pageSelect (as := as.take 6) pg hs (by rw [ha, ← List.append_assoc, List.take_append_drop])
    (by rw [List.length_take]; omega) (fun a h => hok a (List.mem_of_mem_take h))

/-- Settles O40: a page select and one read pair. -/
theorem rd1ReadsOneByte : Obligations.Rd1ReadsOneByte := by
  intro s w page offset p as rest hp hlt hs hans hlen hok
  have hselect := runs_pageSelect_first page hs hans (by omega) hok
  have hread := runs_readAt (s := after s w (0 + 8) (selectTrace s page) (as.drop 6 ++ rest) s.mem) (as := as.drop 6)
    (rest := rest) (buf := some 0) rfl rfl (by simp [hlen]) (fun a h => hok a (List.mem_of_mem_drop h))
    (shadowAddr_of hp hlt) (by simp)
  rw [answerByte_drop, readTrace_after] at hread
  obtain ⟨t, hrun, hseq, hres, hmem, htrace, hrest, hkeep⟩ := execTimes_ok (i := .rd1 page offset)
    (inExtent_iff.mpr ⟨p, hp, hlt, hlt⟩) hs (runs_seq hselect hread)
  have hbase := page_base_ge p
  refine ⟨t, hrun, hseq, hres, ?_, ?_, fun a hshadow hdbuf => ?_, by rw [htrace, List.append_assoc], hrest, hkeep⟩
  · rw [hmem, readAtMem, read_write_ne _ _ (by omega), read_write_same]
  · rw [State.dbuf, hmem, readAtMem, read_write_same]
  · rw [hmem, readAtMem, read_write_ne _ _ hdbuf, read_write_ne _ _ hshadow]
    rfl

/-- Settles O41: a burst read of `SIZE` bytes that fills `DBUF`. -/
theorem rdbReadsBurst : Obligations.RdbReadsBurst := by
  intro s w page offset size p as rest hp hlt hle hs hans hlen hok
  obtain ⟨m, hruns, hshadow, hdbuf, hframe⟩ := runs_readBurst (toBuf := true) hp hle hs hans hlen hok
  obtain ⟨t, hrun, hseq, hres, rfl, htrace, hrest, hkeep⟩ := execTimes_ok (i := .rdb page offset size)
    (inExtent_iff.mpr ⟨p, hp, hlt, hle⟩) hs hruns
  exact ⟨t, hrun, hseq, hres, fun k hk => ⟨hshadow k hk, hdbuf rfl k hk⟩,
    fun a ha => hframe a fun k hk => ⟨(ha k hk).1, fun _ => (ha k hk).2⟩, by rw [htrace, List.append_assoc], hrest, hkeep⟩

/-- Settles O42: one single-byte write. -/
theorem wr1WritesOneByte : Obligations.Wr1WritesOneByte := by
  intro s w page offset data p as rest hp hlt hwritable hs hans hlen hok
  have hadmits : admits s.cfg (.wr1 page offset data) = true := by
    rw [admits, Bool.and_eq_true]
    exact ⟨inExtent_iff.mpr ⟨p, hp, hlt, hlt⟩, writable_iff.mpr hwritable⟩
  obtain ⟨t, hrun, hseq, hres, hmem, htrace, hrest, hkeep⟩ := execTimes_ok hadmits hs
    (runs_writeOne (v := .lit data) hs hans hlen hok (shadowAddr_of hp hlt) rfl)
  exact ⟨t, hrun, hseq, hres, by rw [hmem, read_write_same], fun a ha => by rw [hmem, read_write_ne _ _ ha], htrace, hrest,
    hkeep⟩

/-- A byte of `DBUF` as a source (R26). -/
theorem evalSrc_dbuf (s : State) {k : Nat} (h : k < 0xC0) : evalSrc s (.dbuf k) = .ok (s.dbuf k) := by
  simp [evalSrc, dbufAddr_ok.mpr ⟨h, rfl⟩, Except.map, State.dbuf]

/-- The bytes of `DBUF[0..n-1]` as sources (R124). -/
theorem evalAll_dbuf (s : State) (ks : List Nat) (h : ∀ k ∈ ks, k < 0xC0) :
    evalAll s (ks.map .dbuf) = .ok (ks.map s.dbuf) := by
  induction ks with
  | nil => rfl
  | cons k ks ih => simp [evalAll, evalSrc_dbuf s (h k (by simp)), ih fun j hj => h j (by simp [hj])]

/-- A burst inside a page never runs past `DBUF` (R26, R97). -/
theorem evalAll_dbuf_range (s : State) {p : Page} {off n : Nat} (h : off + n ≤ p.ext) :
    evalAll s ((List.range n).map .dbuf) = .ok ((List.range n).map s.dbuf) := by
  have hext : p.ext ≤ 0xC0 := by cases p <;> simp [Page.ext]
  refine evalAll_dbuf s _ fun k hk => ?_
  have := List.mem_range.mp hk
  omega

/-- `WRB` is admitted inside its page, outside the read-only zones (R97); the pages of the configuration may coincide. -/
theorem admits_wrb {c : Config} {page offset size : Byte} {p : Page} (hrule : AdmitRule c (.wrb page offset size))
    (hp : pageOf c page = some p) (hlt : offset.toNat < p.ext) (hle : offset.toNat + size.toNat ≤ p.ext) :
    admits c (.wrb page offset size) = true := by
  obtain ⟨e, -, -, -, hstart, hall⟩ := hrule
  simp only [admits, Bool.and_eq_true, List.all_eq_true, List.mem_range, writable_iff]
  exact ⟨⟨inExtent_iff.mpr ⟨p, hp, hlt, hle⟩, hstart⟩, hall⟩

/-- Settles O43: a burst write whose sources are `DBUF[0..SIZE-1]`. -/
theorem wrbWritesBurst : Obligations.WrbWritesBurst := by
  intro s w page offset size p as rest hrule hp hlt hle hs hans hlen hok
  obtain ⟨m, hruns, hwritten, hframe⟩ := runs_writeBurst (d := (List.range size.toNat).map .dbuf) hp (by simpa using hle)
    (evalAll_dbuf_range s hle) hs hans (by simpa using hlen) hok
  obtain ⟨t, hrun, hseq, hres, rfl, htrace, hrest, hkeep⟩ := execTimes_ok (i := .wrb page offset size)
    (admits_wrb hrule hp hlt hle) hs hruns
  simp only [List.length_map, List.length_range, List.getElem_map, List.getElem_range] at hwritten hframe
  exact ⟨t, hrun, hseq, hres, hwritten, hframe, by rw [htrace, List.append_assoc], hrest, hkeep⟩

/-- `WRD` is admitted for the two direct registers (R97). -/
theorem admits_wrd {c : Config} {reg : Byte} (value : Byte) (h : reg = c.regLock ∨ reg = c.regCmd) :
    admits c (.wrd reg value) = true := by simpa [admits] using h

/-- Settles O44: one direct write. -/
theorem wrdWritesDirectRegister : Obligations.WrdWritesDirectRegister := by
  intro s w reg value as rest hreg hs hans hlen hok
  exact execTimes_complete (admits_wrd value hreg) hs (runs_directWrite reg value hs hans hlen hok)

end Sys2Proof.Machine
end

section
/-! Single steps of a command (20_memory.md R67): the call at a position, with its whole next state. -/

namespace Sys2Proof.Machine

section
variable {i : Instr} {s : State} {w : Word} {pos : Nat}

/-- The step at a position is the call that the procedure has there. -/
theorem exec_of_op {op : Op} (ha : admits s.cfg i = true) (hs : s.seq = .busy w pos .run)
    (hop : (opsOf s.cfg i)[pos]? = some op) : exec i s = callStep s op := by
  rw [exec_run ha hs, hop]

/-- Past its last call a command completes with `OK` (R191). -/
theorem exec_past_end (ha : admits s.cfg i = true) (hs : s.seq = .busy w pos .run)
    (hop : (opsOf s.cfg i)[pos]? = none) : exec i s = .next (complete .ok s) := by
  rw [exec_run ha hs, hop]

theorem callStep_start_eq (d : Dir) (hs : s.seq = .busy w pos .run) (hok : (nextAnswer s).ok = true) :
    callStep s (.start d .none) = .next { s with
      trace := s.trace ++ [.start (addrByte s d) 10 true], answers := s.answers.tail, seq := .busy w (pos + 1) .run } := by
  simp [callStep, startStep, busStart, afterCall, takeAnswer, hok, hs]

theorem callStep_send_eq {x : Src} {b : Byte} (hs : s.seq = .busy w pos .run) (hok : (nextAnswer s).ok = true)
    (hx : evalSrc s x = .ok b) :
    callStep s (.send x) = .next { s with
      trace := s.trace ++ [.send b true], answers := s.answers.tail, seq := .busy w (pos + 1) .run } := by
  simp [callStep, hx, busSend, afterCall, takeAnswer, hok, hs]

theorem callStep_stop_eq {post : Post} {m : Memory} (hs : s.seq = .busy w pos .run)
    (hp : applyPost s post = .ok { s with mem := m }) :
    callStep s (.stop post) = .next { s with
      mem := m, trace := s.trace ++ [.stop], seq := .busy w (pos + 1) .run } := by
  simp [callStep, hp, busStop, afterCall, hs]

/-- A read commit is in the step of its `BusRecv` (R142). -/
theorem callStep_recv_ok {pg : Byte} {off a : Nat} (hs : s.seq = .busy w pos .run) (hok : (nextAnswer s).ok = true)
    (ha : shadowAddr s.cfg pg off = .ok a) :
    callStep s (.recv pg off) = .next { s with
      mem := s.mem.write a (nextAnswer s).byte, trace := s.trace ++ [.recv (some (nextAnswer s).byte)],
      answers := s.answers.tail, seq := .busy w (pos + 1) .run } := by
  simp [callStep, ha, busRecv_ok hok, afterCall, takeAnswer, hs]

/-- A `BusRecv` that failed commits nothing (R142). -/
theorem callStep_recv_error {pg : Byte} {off a : Nat} (hs : s.seq = .busy w pos .run) (hok : (nextAnswer s).ok = false)
    (ha : shadowAddr s.cfg pg off = .ok a) :
    callStep s (.recv pg off) = .next { s with
      trace := s.trace ++ [.recv none], answers := s.answers.tail, seq := .busy w (pos + 1) .stopOwed } := by
  simp [callStep, ha, busRecv_error hok, afterCall, takeAnswer, hs]

end

/-- Settles O57: the four calls of `DirectWrite` and the completion after them. -/
theorem wrdMakesItsFourCalls : Obligations.WrdMakesItsFourCalls := by
  intro s w pos reg value hreg hs hok
  have ha := admits_wrd value hreg
  refine ⟨?_, ?_, ?_, ?_, ?_⟩
  · rintro rfl
    exact (exec_of_op ha hs rfl).trans (callStep_start_eq .write hs hok)
  · rintro rfl
    exact (exec_of_op ha hs rfl).trans (callStep_send_eq hs hok rfl)
  · rintro rfl
    exact (exec_of_op ha hs rfl).trans (callStep_send_eq hs hok rfl)
  · rintro rfl
    exact (exec_of_op ha hs rfl).trans (callStep_stop_eq hs applyPost_none)
  · rintro rfl
    exact exec_past_end ha hs rfl

end Sys2Proof.Machine
end

section
/-! The cell check in the spec's words (41_shadow_state.md R146 to R149), and the cells that a command checks
(42_backlight_sequences.md R164 to R166). -/

namespace Sys2Proof.Machine

/-- The on/off byte and bit of a channel are those of its PWM offset (R147). -/
theorem onOffByte_eq {row col k : Nat} (hc : col < 16) :
    onOffByte row col k = pwmOffset row col k >>> 3 ∧ onOffBit col = pwmOffset row col k &&& 7 := by
  rw [Nat.shiftRight_eq_div_pow, Nat.and_two_pow_sub_one_eq_mod _ 3]
  simp only [onOffByte, onOffBit, bank, colIdx, pwmOffset, subRow, subrows, cols]
  split <;> omega

/-- A channel is enabled when its bit of the shadow's on/off byte is set (R148). -/
theorem channelEnabled_iff (s : State) (o : Nat) :
    channelEnabled s o = true ↔ (s.onoff (o >>> 3)).getLsbD (o &&& 7) = true := by
  rw [channelEnabled, decide_eq_true_eq, BitVec.and_one_eq_setWidth_ofBool_getLsbD, BitVec.getLsbD_ushiftRight, Nat.add_zero]
  cases (s.onoff (o >>> 3)).getLsbD (o &&& 7) <;> simp

/-- The cell check passes exactly for an enabled cell (R149). -/
theorem cellCheck_iff (s : State) (row col : Byte) : cellCheck s row col = true ↔ CellEnabled s row.toNat col.toNat := by
  simp only [cellCheck, Bool.and_eq_true, decide_eq_true_eq, List.all_eq_true, List.mem_range, channelEnabled_iff, and_assoc]
  refine and_congr_right fun _ => and_congr_right fun hc => forall_congr' fun k => forall_congr' fun _ => ?_
  rw [(onOffByte_eq hc).1, (onOffByte_eq hc).2]

/-- Whether a cell is enabled depends on the on/off control bytes alone (R148). -/
theorem cellEnabled_congr {s t : State} (h : ∀ o, o < 0x18 → t.onoff o = s.onoff o) (row col : Nat) :
    CellEnabled t row col ↔ CellEnabled s row col := by
  refine and_congr_right fun hr => and_congr_right fun _ => forall_congr' fun k => forall_congr' fun hk => ?_
  rw [h]
  simp only [onOffByte, subRow, subrows, bank]
  split <;> omega

/-- The cells that a command checks are those it writes. -/
theorem mem_cellsOf_of_op {c : Config} {i : Instr} {op : Op} {row col : Byte} (h : op ∈ opsOf c i)
    (hpre : op.pre = .cell row col) : (row, col) ∈ cellsOf c i := by
  have light : ∀ {pg r cl : Byte} {vB vG vR : Src}, op ∈ lightCell c pg r cl vB vG vR → (row, col) = (r, cl) := by
    intro pg r cl vB vG vR hop
    rcases pre_lightCell op hop with hp | hp
    · simp [hpre] at hp
    · simpa [hpre] using hp
  have other : ¬ ChecksCells i → (row, col) ∈ cellsOf c i := by
    intro hi
    obtain ⟨pos, hpos⟩ := List.mem_iff_getElem?.mp h
    rcases pre_opsOf hpos with hp | ⟨hp, -⟩ | ⟨hchecks, -⟩
    · simp [hpre] at hp
    · simp [hpre] at hp
    · exact absurd hchecks hi
  cases i with
  | set r cl => exact List.mem_singleton.mpr (light h)
  | setall half =>
    obtain ⟨p, hp, hop⟩ := List.mem_flatMap.mp h
    rw [light hop]
    exact hp
  | abmset r cl chan => exact List.mem_singleton.mpr (light h)
  | _ => exact other (by simp [ChecksCells, Instr.mnemonic])

/-- Every cell a command writes is enabled, in terms of the list of its cells. -/
theorem cellsEnabled_iff (s : State) (i : Instr) :
    CellsEnabled s i ↔ ∀ p ∈ cellsOf s.cfg i, CellEnabled s p.1.toNat p.2.toNat := by
  cases i <;> simp [CellsEnabled, cellsOf]

/-- The commands that check cells write the pages `pwm` and `abm` alone, so the checks read what they read at the start (R161). -/
theorem not_storesTo_onoff {c : Config} {i : Instr} (hc : configOk c = true) (hi : ChecksCells i) {o : Nat} (ho : o < 0x18) :
    ¬ StoresTo c (0x400 + o) i := by
  have far : ∀ p : Page, p ≠ .onoff → ∀ off, shadowAddr c (p.number c) off ≠ .ok (0x400 + o) := by
    intro p hp off h
    obtain ⟨q, hq, -, heq⟩ := shadowAddr_ok.mp h
    obtain rfl : p = q := by simpa [pageOf_number hc] using hq
    cases p <;> simp [Page.base] at hp heq <;> omega
  cases i with
  | set row col => exact fun ⟨_, _, h⟩ => far .pwm nofun _ h
  | setall half => exact fun ⟨_, _, _, _, h⟩ => far .pwm nofun _ h
  | abmset row col chan => exact fun ⟨_, _, h⟩ => far .abm nofun _ h
  | _ => simp [ChecksCells, Instr.mnemonic] at hi

end Sys2Proof.Machine
end

section
/-! The counts of a command whose calls all return `ok` (40_protocol_engine.md R126, 42_backlight_sequences.md R169). -/

namespace Sys2Proof.Machine

/-! Transactions of a procedure. -/

/-- A call that begins a transaction. -/
def Op.isStart : Op → Bool
  | .start _ _ => true
  | .send _ => false
  | .recv _ _ => false
  | .stop _ => false

theorem isStart_iff (op : Op) : op.isStart = true ↔ ∃ d pre, op = .start d pre := by
  cases op <;> simp [Op.isStart]

/-- The transactions of a procedure. -/
def startCount (ops : List Op) : Nat := ops.countP Op.isStart

@[simp] theorem startCount_append (xs ys : List Op) : startCount (xs ++ ys) = startCount xs + startCount ys :=
  List.countP_append

/-- A row of pieces with `n` transactions each. -/
theorem startCount_flatMap {α : Type} {f : α → List Op} {n : Nat} (h : ∀ x, startCount (f x) = n) (xs : List α) :
    startCount (xs.flatMap f) = n * xs.length := by
  induction xs with
  | nil => rfl
  | cons x xs ih => rw [List.flatMap_cons, startCount_append, h, ih, List.length_cons, Nat.mul_succ, Nat.add_comm]

@[simp] theorem startCount_sends (d : List Src) : startCount (d.map .send) = 0 := by
  simp [startCount, List.countP_map, List.countP_eq_zero, Op.isStart]

@[simp] theorem startCount_directWrite (r v : Byte) : startCount (directWrite r v) = 1 := rfl
@[simp] theorem startCount_pageSelect (c : Config) (pg : Byte) : startCount (pageSelect c pg) = 2 := rfl
@[simp] theorem startCount_readAt (pg : Byte) (off : Nat) (b : Option Nat) : startCount (readAt pg off b) = 2 := rfl
@[simp] theorem startCount_writeOne (c : Config) (pg : Byte) (off : Nat) (v : Src) : startCount (writeOne c pg off v) = 3 := rfl
@[simp] theorem startCount_readBurst (c : Config) (pg : Byte) (off n : Nat) (b : Bool) :
    startCount (readBurst c pg off n b) = 2 + 2 * n := by
  rw [readBurst, startCount_append, startCount_pageSelect, startCount_flatMap fun _ => startCount_readAt ..,
    List.length_range]
@[simp] theorem startCount_writeBurst (c : Config) (pg : Byte) (off : Nat) (d : List Src) :
    startCount (writeBurst c pg off d) = 3 := by
  simp only [writeBurst, startCount_append, startCount_pageSelect, startCount_sends]
  rfl
@[simp] theorem startCount_withPre (pre : Pre) (ops : List Op) : startCount (withPre pre ops) = startCount ops := by
  unfold withPre
  split <;> rfl
@[simp] theorem startCount_lightCell (c : Config) (pg row col : Byte) (b g r : Src) :
    startCount (lightCell c pg row col b g r) = 9 := by simp [lightCell]

/-- A command's procedure has the transactions of R126 and R169. -/
theorem startCount_opsOf (c : Config) (i : Instr) : startCount (opsOf c i) = transactionCount i := by
  cases i with
  | setall half =>
    rw [opsOf, opsSetall, startCount_flatMap fun _ => startCount_lightCell .., length_halfPos]
    rfl
  | _ => simp [opsOf, transactionCount, opsRd1, opsRdb, opsWr1, opsWrb, opsWrd, opsReset, opsBright, opsSet, opsAbmset,
      opsChktrig, opsCheck]

/-! The run. -/

/-- A call takes at most one answer. -/
theorem callStep_answers {s t : State} {op : Op} (h : callStep s op = .next t) :
    t.answers = s.answers ∨ t.answers = s.answers.tail := by
  cases op with
  | start d pre =>
    obtain rfl : startStep d pre s = t := by simpa [callStep] using h
    cases pre with
    | none => exact .inr rfl
    | clearShadow => exact .inr rfl
    | cell row col =>
      rw [startStep]
      split
      · exact .inr rfl
      · exact .inl rfl
  | send x =>
    simp only [callStep] at h
    split at h
    · obtain rfl := Host.Outcome.next.inj h
      exact .inr rfl
    · simp at h
  | recv pg off =>
    simp only [callStep] at h
    split at h
    · obtain rfl := Host.Outcome.next.inj h
      exact .inr (busRecv_answers ..)
    · simp at h
  | stop post =>
    simp only [callStep] at h
    split at h
    · next u hu =>
      obtain rfl := Host.Outcome.next.inj h
      rw [(applyPost_ok hu).1]
      exact .inl rfl
    · simp at h

theorem nextAnswer_ok {s : State} (hok : ∀ a ∈ s.answers, a.ok = true) (hlen : 0 < s.answers.length) :
    (nextAnswer s).ok = true := by
  obtain ⟨a, as, has⟩ := List.exists_cons_of_length_pos hlen
  rw [nextAnswer_cons has]
  exact hok a (by simp [has])

/-- On a run that began in `s` and has changed only bytes that the command may write, the places of a call exist and its cell check
passes. -/
def Passes (i : Instr) (s : State) (op : Op) : Prop :=
  op.DomainOk s.cfg ∧ ∀ row col, op.pre = .cell row col → ∀ t : State, t.cfg = s.cfg →
    (∀ a, ¬ StoresTo s.cfg a i → t.mem.read a = s.mem.read a) → cellCheck t row col = true

/-- One call that passes, answered `ok`: an event like the call joins the trace and the command goes on. -/
theorem callStep_of_passes {i : Instr} {s₀ s : State} {op : Op} (hop : op ∈ opsOf s₀.cfg i) (hpass : Passes i s₀ op)
    (hc : s.cfg = s₀.cfg) (hm : ∀ a, ¬ StoresTo s₀.cfg a i → s.mem.read a = s₀.mem.read a) (hok : (nextAnswer s).ok = true) :
    ∃ t e, callStep s op = .next t ∧ t.seq = s.seq.advance .run ∧ t.trace = s.trace ++ [e] ∧ e.isStart = op.isStart ∧
      ∀ a, ¬ StoresTo s₀.cfg a i → t.mem.read a = s₀.mem.read a := by
  obtain ⟨t, h⟩ := callStep_total (s := s) (hc ▸ hpass.1)
  rcases callStep_next h with ⟨d, row, col, rfl, hcheck, -⟩ |
    ⟨e, htrace, hseq, -, -, hfailed, -, -, hstart, hframe, -⟩
  · rw [hpass.2 row col rfl s hc hm] at hcheck
    exact absurd hcheck (by simp)
  · have hgood : e.failed = false := by
      rw [← Bool.not_eq_true]
      intro he
      simp [(hfailed he).1] at hok
    refine ⟨t, e, h, by rw [hseq, hgood]; rfl, htrace, ?_, fun a ha => ?_⟩
    · rw [Bool.eq_iff_iff, hstart, isStart_iff]
    · rw [hframe a fun hst => ha (storesTo_of_op hop (hc ▸ hst)), hm a ha]

/-- Calls that pass, with answers enough that are all `ok`, run to their end; each puts one event like itself into the trace. -/
theorem runs_of_passes {i : Instr} {s₀ : State} {ops : List Op} (hops : ∀ op ∈ ops, op ∈ opsOf s₀.cfg i ∧ Passes i s₀ op)
    {s : State} (hc : s.cfg = s₀.cfg) (hm : ∀ a, ¬ StoresTo s₀.cfg a i → s.mem.read a = s₀.mem.read a)
    (hok : ∀ a ∈ s.answers, a.ok = true) (hlen : ops.length ≤ s.answers.length) :
    ∃ t tr, Runs ops s t ∧ t.trace = s.trace ++ tr ∧ tr.length = ops.length ∧
      tr.countP BusEvent.isStart = startCount ops := by
  induction ops generalizing s with
  | nil => exact ⟨s, [], rfl, by simp, rfl, rfl⟩
  | cons op ops ih =>
    obtain ⟨hop, hpass⟩ := hops op (by simp)
    rw [List.length_cons] at hlen
    obtain ⟨u, e, hcall, hseq, htrace, hstart, hu⟩ := callStep_of_passes hop hpass hc hm (nextAnswer_ok hok (by omega))
    have hans : (∀ a ∈ u.answers, a.ok = true) ∧ ops.length ≤ u.answers.length := by
      rcases callStep_answers hcall with h | h <;> rw [h]
      · exact ⟨hok, by omega⟩
      · exact ⟨fun a ha => hok a (List.mem_of_mem_tail ha), by rw [List.length_tail]; omega⟩
    obtain ⟨t, tr, hruns, htr, hcount, hstarts⟩ := ih (fun op h => hops op (by simp [h])) ((callStep_cfg hcall).trans hc) hu
      hans.1 hans.2
    refine ⟨t, e :: tr, ⟨u, hcall, hseq, hruns⟩, by simp [htr, htrace], by simp [hcount], ?_⟩
    rw [List.countP_cons, hstart, hstarts, startCount, startCount, List.countP_cons]

/-- With its cells enabled every call of an admitted command passes. -/
theorem passes_of_op {i : Instr} {s : State} (hc : configOk s.cfg = true) (ha : admits s.cfg i = true) (hcells : CellsEnabled s i)
    {op : Op} (hop : op ∈ opsOf s.cfg i) : Passes i s op := by
  rw [cellsEnabled_iff] at hcells
  obtain ⟨pos, hpos⟩ := List.mem_iff_getElem?.mp hop
  refine ⟨domainOk_of_op hc ha (fun _ k _ d row col hk => ?_) hpos, fun row col hpre t htc htm => ?_⟩
  · have hcell := hcells _ (mem_cellsOf_of_op (List.mem_of_getElem? hk) (op := .start d (.cell row col)) rfl)
    exact ⟨hcell.1, hcell.2.1⟩
  · have hchecks : ChecksCells i := by simpa [hpre] using pre_opsOf hpos
    rw [cellCheck_iff, cellEnabled_congr (s := s) fun o ho => htm _ (not_storesTo_onoff hc hchecks ho)]
    exact hcells _ (mem_cellsOf_of_op hop hpre)

/-- Settles O36: each call of the procedure passes, so the trace is as long as the procedure and begins as many transactions. -/
theorem successfulCommandCounts : Obligations.SuccessfulCommandCounts := by
  intro i s w hc ha hcells hs hok hlen
  obtain ⟨t, tr, hruns, htrace, hcount, hstarts⟩ := runs_of_passes (i := i) (s₀ := s)
    (fun op hop => ⟨hop, passes_of_op hc ha hcells hop⟩) rfl (fun _ _ => rfl) hok (by rwa [length_opsOf])
  exact ⟨_, tr, execTimes_complete ha hs hruns, rfl, rfl, htrace, hcount.trans (length_opsOf ..),
    hstarts.trans (startCount_opsOf ..)⟩

end Sys2Proof.Machine
end

section
/-! A call that returns `error` (40_protocol_engine.md R113, 60_exceptions.md R192): the command makes one `BusStop` and ends with
`BUS_ERROR`. -/

namespace Sys2Proof.Machine

/-- What a command does in the step of a call before the call, when that lets the call be made (log 5). -/
def Pre.apply : Pre → State → State
  | .none, s => s
  | .clearShadow, s => shadowClear s
  | .cell _ _, s => s

/-- A call that fails changes nothing but the trace, the position and the answers left, beside what comes before it. -/
theorem callStep_error {s t : State} {op : Op} (hok : (nextAnswer s).ok = false) (hop : ∀ post, op ≠ .stop post)
    (hcheck : ∀ row col, op.pre = .cell row col → cellCheck s row col = true) (h : callStep s op = .next t) :
    ∃ e : BusEvent, e.failed = true ∧ t = afterCall e .stopOwed (takeAnswer (op.pre.apply s)) := by
  cases op with
  | start d pre =>
    have hstart : startStep d pre s = busStart d (pre.apply s) := by
      cases pre with
      | none => rfl
      | clearShadow => rfl
      | cell row col => simp [startStep, hcheck row col rfl, Pre.apply]
    have hans : nextAnswer (pre.apply s) = nextAnswer s := by cases pre <;> rfl
    obtain rfl : busStart d (pre.apply s) = t := by simpa [callStep, hstart] using h
    exact ⟨.start (addrByte (pre.apply s) d) timeoutTicks false, rfl, by simp [busStart, hans, hok, Op.pre]⟩
  | send x =>
    simp only [callStep] at h
    split at h
    · next b hb =>
      obtain rfl := Host.Outcome.next.inj h
      exact ⟨.send b false, rfl, by simp [busSend, hok, Op.pre, Pre.apply]⟩
    · simp at h
  | recv pg off =>
    simp only [callStep] at h
    split at h
    · obtain rfl := Host.Outcome.next.inj h
      exact ⟨.recv none, rfl, busRecv_error hok⟩
    · simp at h
  | stop post => exact absurd rfl (hop post)

/-- After a call that failed the command takes two more steps (log 4). -/
theorem execTimes_error {i : Instr} {s t : State} {w : Word} {pos : Nat} (ha : admits s.cfg i = true)
    (hs : s.seq = .busy w pos .run) {op : Op} (hop : (opsOf s.cfg i)[pos]? = some op) (h : callStep s op = .next t)
    (ht : t.seq = s.seq.advance .stopOwed) :
    execTimes 3 i s = .next (complete .busError (busStop .raising t)) := by
  have hcfg := callStep_cfg h
  rw [hs, advance_busy] at ht
  have hstop : (busStop .raising t).seq = .busy w (pos + 2) .raising := by rw [busStop_seq, ht, advance_busy]
  rw [execTimes_succ 2 ((exec_of_op ha hs hop).trans h), execTimes_succ 1 (exec_stopOwed (by rwa [hcfg]) ht),
    execTimes_succ 0 (exec_raising (by rwa [busStop_cfg, hcfg]) hstop)]
  rfl

/-- Settles O37: the call that fails leaves its event and owes a `BusStop`; only the first call of `RESET` has done more. -/
theorem failedCallEndsInOneStop : Obligations.FailedCallEndsInOneStop := by
  rintro i s w pos hc ha hs hok hcells ⟨op, hop, hne⟩
  obtain ⟨t, hcall⟩ := callStep_total (domainOk_of_op hc ha (fun ⟨post, h⟩ => absurd h (hne post)) hop)
  have hcheck : ∀ row col, op.pre = .cell row col → cellCheck s row col = true := by
    intro row col hpre
    cases op with
    | start d pre =>
      obtain rfl : pre = .cell row col := hpre
      exact hcells row col d hop
    | _ => simp [Op.pre] at hpre
  obtain ⟨e, hfailed, rfl⟩ := callStep_error hok hne hcheck hcall
  have hrun := execTimes_error ha hs hop hcall (by cases op.pre <;> rfl)
  have hpre : op.pre.apply s = s ∨ (op.pre.apply s = shadowClear s ∧ i = .reset ∧ pos = 0) := by
    rcases pre_opsOf hop with h | ⟨h, hi, hpos⟩ | ⟨-, row, col, h⟩ <;> rw [h]
    · exact .inl rfl
    · exact .inr ⟨rfl, hi, hpos⟩
    · exact .inl rfl
  refine ⟨_, e, hrun, hfailed, ?_⟩
  rcases hpre with h | ⟨h, hi, hpos⟩ <;> rw [h]
  · exact ⟨by simp, rfl, rfl, ⟨rfl, rfl, rfl, rfl, rfl, rfl⟩, .inl rfl⟩
  · exact ⟨by simp, rfl, rfl, ⟨rfl, rfl, rfl, rfl, rfl, rfl⟩, .inr ⟨hi, hpos, rfl⟩⟩

end Sys2Proof.Machine
end

section
/-! Runs of a procedure with a call that returns `error` (40_protocol_engine.md R113): where they stop, and what they leave. -/

namespace Sys2Proof.Machine

/-- The first `n` calls of a procedure go well from `s`, the next returns `error`, and the command ends in `t` (R113, R192). -/
def Fails : List Op → Nat → State → State → Prop
  | [], _, _, _ => False
  | op :: _, 0, s, t =>
    ∃ u, callStep s op = .next u ∧ u.seq = s.seq.advance .stopOwed ∧ t = complete .busError (busStop .raising u)
  | op :: ops, n + 1, s, t => ∃ u, callStep s op = .next u ∧ u.seq = s.seq.advance .run ∧ Fails ops n u t

theorem fails_append {xs : List Op} {n : Nat} {s t : State} (h : Fails xs n s t) (ys : List Op) : Fails (xs ++ ys) n s t := by
  induction xs generalizing n s with
  | nil => exact h.elim
  | cons x xs ih =>
    cases n with
    | zero => exact h
    | succ n =>
      obtain ⟨u, hcall, hseq, hfails⟩ := h
      exact ⟨u, hcall, hseq, ih hfails⟩

theorem fails_of_runs {xs ys : List Op} {n : Nat} {s t u : State} (h : Runs xs s u) (h' : Fails ys n u t) :
    Fails (xs ++ ys) (xs.length + n) s t := by
  induction xs generalizing s with
  | nil =>
    obtain rfl : s = u := h
    rwa [List.length_nil, Nat.zero_add]
  | cons x xs ih =>
    obtain ⟨v, hcall, hseq, hruns⟩ := h
    rw [List.length_cons, Nat.succ_add]
    exact ⟨v, hcall, hseq, ih hruns⟩

/-- A command with such a procedure ends in three steps more than the calls that went well (log 4). -/
theorem execTimes_fails {i : Instr} {pre ops : List Op} {n : Nat} {s t : State} {w : Word} (hops : opsOf s.cfg i = pre ++ ops)
    (ha : admits s.cfg i = true) (hs : s.seq = .busy w pre.length .run) (h : Fails ops n s t) :
    execTimes (n + 3) i s = .next t := by
  induction n generalizing pre ops s with
  | zero =>
    cases ops with
    | nil => exact h.elim
    | cons op ops =>
      obtain ⟨u, hcall, hseq, rfl⟩ := h
      exact execTimes_error ha hs (by simp [hops]) hcall hseq
  | succ n ih =>
    cases ops with
    | nil => exact h.elim
    | cons op ops =>
      obtain ⟨u, hcall, hseq, hfails⟩ := h
      have hcfg := callStep_cfg hcall
      have hop : (opsOf s.cfg i)[pre.length]? = some op := by simp [hops]
      rw [hs, advance_busy] at hseq
      rw [Nat.succ_add, execTimes_succ _ ((exec_of_op ha hs hop).trans hcall)]
      exact ih (pre := pre ++ [op]) (by simp [hcfg, hops]) (by rwa [hcfg]) (by simpa using hseq) hfails

/-- The state after a command that failed: only `seq`, `RESULT`, the trace, the answers left and the bytes differ. -/
def failed (s : State) (tr : List BusEvent) (rest : List BusAnswer) (m : Memory) : State :=
  { s with seq := .idle, result := .busError, trace := s.trace ++ tr, answers := rest, mem := m }

theorem failed_after (s : State) (w : Word) (pos : Nat) (tr tr' : List BusEvent) (rest rest' : List BusAnswer) (m m' : Memory) :
    failed (after s w pos tr rest m) tr' rest' m' = failed s (tr ++ tr') rest' m' := by
  simp [failed, after]

/-- What a command that fails leaves, in the terms of the statements. -/
theorem execTimes_failed {i : Instr} {n : Nat} {s : State} {w : Word} {tr : List BusEvent} {rest : List BusAnswer} {m : Memory}
    (ha : admits s.cfg i = true) (hs : s.seq = .busy w 0 .run) (h : Fails (opsOf s.cfg i) n s (failed s tr rest m)) :
    ∃ t, execTimes (n + 3) i s = .next t ∧ t.seq = .idle ∧ t.result = .busError ∧ t.mem = m ∧ t.trace = s.trace ++ tr ∧
      t.answers = rest ∧ KeepsRest s t :=
  ⟨_, execTimes_fails (pre := []) rfl ha hs h, rfl, rfl, rfl, rfl, rfl, rfl, rfl, rfl, rfl, rfl, rfl⟩

section
variable {s : State} {w : Word} {pos : Nat} {as rest : List BusAnswer} {bad : BusAnswer} {ops : List Op}

/-! The calls that can fail. -/

theorem fails_start (d : Dir) (ha : s.answers = bad :: rest) (hbad : bad.ok = false) :
    Fails (.start d .none :: ops) 0 s (failed s [.start (addrByte s d) 10 false, .stop] rest s.mem) := by
  refine ⟨_, rfl, ?_, ?_⟩
  · simp [startStep, nextAnswer_cons ha, hbad]
  · simp [startStep, busStart, nextAnswer_cons ha, hbad, complete, busStop, afterCall, takeAnswer, failed, ha]

theorem fails_send {x : Src} {b : Byte} (hx : evalSrc s x = .ok b) (ha : s.answers = bad :: rest) (hbad : bad.ok = false) :
    Fails (.send x :: ops) 0 s (failed s [.send b false, .stop] rest s.mem) := by
  refine ⟨busSend b s, by simp [callStep, hx], ?_, ?_⟩
  · simp [nextAnswer_cons ha, hbad]
  · simp [busSend, nextAnswer_cons ha, hbad, complete, busStop, afterCall, takeAnswer, failed, ha]

theorem fails_recv {pg : Byte} {off x : Nat} (hx : shadowAddr s.cfg pg off = .ok x) (ha : s.answers = bad :: rest)
    (hbad : bad.ok = false) : Fails (.recv pg off :: ops) 0 s (failed s [.recv none, .stop] rest s.mem) := by
  have hok : (nextAnswer s).ok = false := by rw [nextAnswer_cons ha, hbad]
  refine ⟨busRecv x s, by simp [callStep, hx], ?_, ?_⟩
  · rw [busRecv_seq, hok, phaseAfter_false]
  · simp [busRecv_error hok, complete, busStop, afterCall, takeAnswer, failed, ha]

/-- A call that goes well before the one that fails. -/
theorem fails_cons {op : Op} {n : Nat} {tr tr' : List BusEvent} {rest' : List BusAnswer} {m m' : Memory}
    (hs : s.seq = .busy w pos .run) (h : callStep s op = .next (after s w (pos + 1) tr rest m))
    (h' : Fails ops n (after s w (pos + 1) tr rest m) (failed (after s w (pos + 1) tr rest m) tr' rest' m')) :
    Fails (op :: ops) (n + 1) s (failed s (tr ++ tr') rest' m') := by
  rw [failed_after] at h'
  exact ⟨_, h, by rw [after_seq, hs, advance_busy], h'⟩

/-- A procedure that goes well before the one that fails. -/
theorem fails_seq {xs ys : List Op} {n p : Nat} {tr tr' : List BusEvent} {rest' : List BusAnswer} {m m' : Memory}
    (h : Runs xs s (after s w p tr rest m))
    (h' : Fails ys n (after s w p tr rest m) (failed (after s w p tr rest m) tr' rest' m')) :
    Fails (xs ++ ys) (xs.length + n) s (failed s (tr ++ tr') rest' m') := by
  rw [failed_after] at h'
  exact fails_of_runs h h'

/-! The procedures, by the number `r` of statuses that were `ok`: the calls that went well are these and the `BusStop`s between
them. -/

/-- A transaction that begins with two bytes, before anything is committed. -/
theorem fails_sendTwo {x y : Src} {b c : Byte} {r : Nat} (hx : evalSrc s x = .ok b) (hy : evalSrc s y = .ok c) (hr : r < 3)
    (hs : s.seq = .busy w pos .run) (ha : s.answers = as ++ bad :: rest) (hl : as.length = r) (hok : ∀ a ∈ as, a.ok = true)
    (hbad : bad.ok = false) :
    ∃ tr, Fails (.start .write .none :: .send x :: .send y :: ops) r s (failed s tr rest s.mem) := by
  have hx' := (evalSrc_after (w := w) (pos := pos + 1) (rest := as.tail ++ bad :: rest)
    (tr := [.start (addrByte s .write) 10 true])).trans hx
  match as, r, hl with
  | [], 0, _ => exact ⟨_, fails_start .write ha hbad⟩
  | [a1], 1, _ => exact ⟨_, fails_cons hs (callStep_start _ hs ha (hok _ (by simp))) (fails_send hx' rfl hbad)⟩
  | [a1, a2], 2, _ =>
    exact ⟨_, fails_cons hs (callStep_start _ hs ha (hok _ (by simp)))
      (fails_cons rfl (callStep_send rfl rfl (hok _ (by simp)) hx')
        (fails_send ((evalSrc_congr rfl rfl y).trans hy) rfl hbad))⟩

/-- `DirectWrite` (R114). -/
theorem fails_directWrite (reg val : Byte) {r : Nat} (hr : r < 3) (hs : s.seq = .busy w pos .run)
    (ha : s.answers = as ++ bad :: rest) (hl : as.length = r) (hok : ∀ a ∈ as, a.ok = true) (hbad : bad.ok = false) :
    ∃ tr, Fails (directWrite reg val) r s (failed s tr rest s.mem) := fails_sendTwo rfl rfl hr hs ha hl hok hbad

/-- `PageSelect` (R115). -/
theorem fails_pageSelect (pg : Byte) {r : Nat} (hr : r < 6) (hs : s.seq = .busy w pos .run)
    (ha : s.answers = as ++ bad :: rest) (hl : as.length = r) (hok : ∀ a ∈ as, a.ok = true) (hbad : bad.ok = false) :
    ∃ tr, Fails (pageSelect s.cfg pg) (r + r / 3) s (failed s tr rest s.mem) := by
  by_cases h : r < 3
  · obtain ⟨tr, hfails⟩ := fails_directWrite s.cfg.regLock s.cfg.unlockKey h hs ha hl hok hbad
    exact ⟨tr, by simpa [pageSelect, Nat.div_eq_of_lt h] using fails_append hfails _⟩
  · have hunlock := runs_directWrite (as := as.take 3) (rest := as.drop 3 ++ bad :: rest) s.cfg.regLock s.cfg.unlockKey hs
      (by rw [ha, ← List.append_assoc, List.take_append_drop]) (by rw [List.length_take]; omega)
      (fun a h => hok a (List.mem_of_mem_take h))
    obtain ⟨tr, hfails⟩ := fails_directWrite (s := after s w (pos + 4) [.start (addrByte s .write) 10 true,
        .send s.cfg.regLock true, .send s.cfg.unlockKey true, .stop] (as.drop 3 ++ bad :: rest) s.mem) (as := as.drop 3)
      s.cfg.regCmd pg (show r - 3 < 3 by omega) rfl rfl (by rw [List.length_drop, hl])
      (fun a h => hok a (List.mem_of_mem_drop h)) hbad
    have := fails_seq hunlock hfails
    rw [length_directWrite, show 4 + (r - 3) = r + r / 3 by omega] at this
    exact ⟨_, this⟩

/-- `WriteOne` (R119): no failure commits anything (R141). -/
theorem fails_writeOne {pg : Byte} {off : Nat} {v : Src} {b : Byte} {r : Nat} (hv : evalSrc s v = .ok b) (hr : r < 9)
    (hs : s.seq = .busy w pos .run) (ha : s.answers = as ++ bad :: rest) (hl : as.length = r) (hok : ∀ a ∈ as, a.ok = true)
    (hbad : bad.ok = false) : ∃ tr, Fails (writeOne s.cfg pg off v) (r + r / 3) s (failed s tr rest s.mem) := by
  by_cases h : r < 6
  · obtain ⟨tr, hfails⟩ := fails_pageSelect pg h hs ha hl hok hbad
    exact ⟨tr, fails_append hfails _⟩
  · have hselect := runs_pageSelect_first pg hs ha (by omega) hok
    obtain ⟨tr, hfails⟩ := fails_sendTwo (s := after s w (pos + 8) (selectTrace s pg) (as.drop 6 ++ bad :: rest) s.mem)
      (x := .lit (BitVec.ofNat 8 off)) (ops := [.stop (.commit pg off [v])]) rfl (evalSrc_after.trans hv)
      (show r - 6 < 3 by omega) rfl rfl (by rw [List.length_drop, hl]) (fun a h => hok a (List.mem_of_mem_drop h)) hbad
    have := fails_seq hselect hfails
    rw [length_pageSelect, show 8 + (r - 6) = r + r / 3 by omega] at this
    exact ⟨_, this⟩

/-- `ReadAt` (R117): no failure commits anything (R142). -/
theorem fails_readAt {pg : Byte} {off x : Nat} {buf : Option Nat} {r : Nat} (hx : shadowAddr s.cfg pg off = .ok x) (hr : r < 4)
    (hs : s.seq = .busy w pos .run) (ha : s.answers = as ++ bad :: rest) (hl : as.length = r) (hok : ∀ a ∈ as, a.ok = true)
    (hbad : bad.ok = false) :
    Fails (readAt pg off buf) (r + r / 2) s (failed s (failedReadTrace s off r) rest s.mem) := by
  match as, r, hl with
  | [], 0, _ => exact fails_start .write ha hbad
  | [a1], 1, _ => exact fails_cons hs (callStep_start _ hs ha (hok _ (by simp))) (fails_send rfl rfl hbad)
  | [a1, a2], 2, _ =>
    exact fails_cons hs (callStep_start _ hs ha (hok _ (by simp)))
      (fails_cons rfl (callStep_send rfl rfl (hok _ (by simp)) rfl)
        (fails_cons rfl (callStep_stop rfl applyPost_none) (fails_start .read rfl hbad)))
  | [a1, a2, a3], 3, _ =>
    exact fails_cons hs (callStep_start _ hs ha (hok _ (by simp)))
      (fails_cons rfl (callStep_send rfl rfl (hok _ (by simp)) rfl)
        (fails_cons rfl (callStep_stop rfl applyPost_none)
          (fails_cons rfl (callStep_start _ rfl rfl (hok _ (by simp))) (fails_recv hx rfl hbad))))

end

end Sys2Proof.Machine
end

section
/-! Reads that fail (40_protocol_engine.md R118, R121, R122; 42_backlight_sequences.md R168): the bytes whose
read pairs were complete stay. -/

namespace Sys2Proof.Machine

theorem range_eq_append_cons {k n : Nat} (h : k < n) : ∃ ks, List.range n = List.range k ++ k :: ks := by
  obtain ⟨d, rfl⟩ := Nat.exists_eq_add_of_lt h
  exact ⟨(List.range d).map (k + 1 + ·), by simp [show k + d + 1 = k + 1 + d by omega, List.range_add, List.range_succ]⟩

/-- The read pair of byte `k` stands after the burst of the `k` bytes before it. -/
theorem readBurst_split (c : Config) (pg : Byte) (off : Nat) (b : Bool) {k n : Nat} (h : k < n) :
    ∃ post, readBurst c pg off n b =
      readBurst c pg off k b ++ (readAt pg (off + k) (if b then some k else none) ++ post) := by
  obtain ⟨ks, hks⟩ := range_eq_append_cons h
  exact ⟨_, by rw [readBurst, readBurst, hks, List.flatMap_append, List.flatMap_cons, ← List.append_assoc]⟩

theorem failedReadTrace_after (s : State) (w : Word) (pos : Nat) (tr : List BusEvent) (rest : List BusAnswer) (m : Memory)
    (off r : Nat) :
    failedReadTrace (after s w pos tr rest m) off r = failedReadTrace s off r := rfl

/-- A burst looks at the answers to its own calls alone. -/
theorem burstRead_take {p : Page} {off n l : Nat} {toBuf : Bool} {as : List BusAnswer} {m m' : Memory} (hl : 6 + 4 * n ≤ l)
    (h : BurstRead p off n 9 toBuf (as.take l) m m') : BurstRead p off n 9 toBuf as m m' := by
  obtain ⟨hshadow, hdbuf, hframe⟩ := h
  refine ⟨fun k hk => ?_, fun hb k hk => ?_, hframe⟩
  · rw [hshadow k hk, answerByte_take _ (by omega)]
  · rw [hdbuf hb k hk, answerByte_take _ (by omega)]

section
variable {s : State} {w : Word} {pos : Nat} {as rest : List BusAnswer} {bad : BusAnswer}

/-- `ReadBurst` whose read pair of byte `k` fails (R118, R142). -/
theorem fails_readBurst {pg : Byte} {p : Page} {off n k r : Nat} {toBuf : Bool} (hp : pageOf s.cfg pg = some p)
    (hn : off + n ≤ p.ext) (hk : k < n) (hr : r < 4) (hs : s.seq = .busy w pos .run) (ha : s.answers = as ++ bad :: rest)
    (hl : as.length = 6 + 4 * k + r) (hok : ∀ a ∈ as, a.ok = true) (hbad : bad.ok = false) :
    ∃ m, Fails (readBurst s.cfg pg off n toBuf) (8 + 6 * k + r + r / 2) s
      (failed s (selectTrace s pg ++ (List.range k).flatMap (fun j => readTrace s (off + j) (answerByte as (9 + 4 * j)))
        ++ failedReadTrace s (off + k) r) rest m) ∧ BurstRead p off k 9 toBuf as s.mem m := by
  obtain ⟨m, hruns, hread⟩ := runs_readBurst (off := off) (n := k) (toBuf := toBuf) (as := as.take (6 + 4 * k))
    (rest := as.drop (6 + 4 * k) ++ bad :: rest) hp (by omega) hs (by rw [ha, ← List.append_assoc, List.take_append_drop])
    (by rw [List.length_take]; omega) (fun a h => hok a (List.mem_of_mem_take h))
  have htrace : ∀ j ∈ List.range k, readTrace s (off + j) (answerByte (as.take (6 + 4 * k)) (9 + 4 * j)) =
      readTrace s (off + j) (answerByte as (9 + 4 * j)) := by
    intro j hj
    have := List.mem_range.mp hj
    rw [answerByte_take _ (by omega)]
  rw [List.flatMap_congr htrace] at hruns
  have hfails := fails_seq hruns (fails_readAt (buf := if toBuf then some k else none)
    (shadowAddr_of hp (show off + k < p.ext by omega)) hr rfl rfl (by rw [List.length_drop]; omega)
    (fun a h => hok a (List.mem_of_mem_drop h)) hbad)
  obtain ⟨post, hpost⟩ := readBurst_split s.cfg pg off toBuf hk
  refine ⟨m, ?_, burstRead_take le_rfl hread⟩
  rw [hpost, ← List.append_assoc]
  rw [length_readBurst, ← Nat.add_assoc] at hfails
  exact fails_append hfails post

/-! The zones of `CHECK` (R168). -/

/-- The read bursts of the first `z` zones. -/
def checkZones (c : Config) (z : Nat) : List Op :=
  (List.range z).flatMap fun y => readBurst c c.pOnoff (0x18 + 0x18 * y) zoneLen false

theorem opsCheck_split (c : Config) {z : Nat} (hz : z < 2) :
    ∃ post, opsCheck c = checkZones c z ++ readBurst c c.pOnoff (0x18 + 0x18 * z) zoneLen false ++ post := by
  match z, hz with
  | 0, _ => exact ⟨readBurst c c.pOnoff 0x30 zoneLen false, rfl⟩
  | 1, _ => exact ⟨[], by simp [opsCheck, checkZones]⟩

/-- The first `n` bytes of the zones are those received; every other byte keeps its value. -/
def ZonesRead (n : Nat) (as : List BusAnswer) (m m' : Memory) : Prop :=
  (∀ j, j < n → m'.read (0x418 + j) = checkByte as j) ∧ ∀ a, (∀ j, j < n → a ≠ 0x418 + j) → m'.read a = m.read a

theorem checkByte_drop (as : List BusAnswer) (z : Nat) {j : Nat} (h : j < 0x18) :
    checkByte as (0x18 * z + j) = answerByte (as.drop (102 * z)) (9 + 4 * j) := by
  rw [answerByte_drop, checkByte]
  congr 1
  omega

/-- `k` bytes of the next zone after `z` whole ones. -/
theorem zonesRead_append {z k : Nat} {m m' m'' : Memory} (hk : k ≤ 0x18) (h : ZonesRead (0x18 * z) as m m')
    (h' : BurstRead .onoff (0x18 + 0x18 * z) k 9 false (as.drop (102 * z)) m' m'') : ZonesRead (0x18 * z + k) as m m'' := by
  obtain ⟨hbytes, hframe⟩ := h
  obtain ⟨hbytes', -, hframe'⟩ := h'
  simp only [Page.base, onoffBase] at hbytes' hframe'
  refine ⟨fun j hj => ?_, fun a ha => ?_⟩
  · by_cases hlt : j < 0x18 * z
    · rw [hframe' _ fun i hi => ⟨by omega, nofun⟩, hbytes j hlt]
    · obtain ⟨i, rfl⟩ := Nat.exists_eq_add_of_le (not_lt.mp hlt)
      rw [checkByte_drop as z (by omega), ← hbytes' i (by omega)]
      congr 1
      omega
  · rw [hframe' a fun i hi => ⟨by have := ha (0x18 * z + i) (by omega); omega, nofun⟩, hframe a fun j hj => ha j (by omega)]

/-- The zones before zone `z`, with answers that may go on into it. -/
theorem runs_checkZones {z : Nat} (hc : configOk s.cfg = true) (hz : z < 2) (hs : s.seq = .busy w 0 .run)
    (ha : s.answers = as ++ rest) (hl : 102 * z ≤ as.length) (hok : ∀ a ∈ as, a.ok = true) :
    ∃ m, Runs (checkZones s.cfg z) s (after s w (152 * z) ((List.range z).flatMap fun _ => selectTrace s s.cfg.pOnoff
      ++ (List.range 0x18).flatMap fun j => readTrace s (0x18 + j) (checkByte as j)) (as.drop (102 * z) ++ rest) m) ∧
      ZonesRead (0x18 * z) as s.mem m := by
  match z, hz with
  | 0, _ =>
    refine ⟨s.mem, ?_, nofun, fun _ _ => rfl⟩
    simp [checkZones, Runs, after, ← ha, ← hs]
  | 1, _ =>
    obtain ⟨m, hruns, hread⟩ := runs_readBurst (pg := s.cfg.pOnoff) (n := 0x18) (toBuf := false) (as := as.take 102)
      (rest := as.drop 102 ++ rest) (pageOf_number hc .onoff) (show 0x18 + 0x18 ≤ Page.ext .onoff by decide) hs
      (by rw [ha, ← List.append_assoc, List.take_append_drop]) (by rw [List.length_take]; omega)
      (fun a h => hok a (List.mem_of_mem_take h))
    have hbyte : ∀ j ∈ List.range 0x18, readTrace s (0x18 + j) (answerByte (as.take 102) (9 + 4 * j)) =
        readTrace s (0x18 + j) (checkByte as j) := by
      intro j hj
      have := List.mem_range.mp hj
      rw [checkByte, answerByte_take _ (by omega), Nat.div_eq_of_lt this, Nat.mul_zero, Nat.add_zero]
    rw [List.flatMap_congr hbyte] at hruns
    refine ⟨m, by simpa [checkZones] using hruns, ?_⟩
    have hnone : ZonesRead (0x18 * 0) as s.mem s.mem := ⟨nofun, fun _ _ => rfl⟩
    exact zonesRead_append (k := 0x18) le_rfl hnone (burstRead_take le_rfl hread)

/-- `CHECK` that fails in a call of zone `z`: what its burst leaves comes after the zones before it. -/
theorem fails_check {z n : Nat} {tr tr' : List BusEvent} {m m' : Memory} {rest' : List BusAnswer} (hz : z < 2)
    (h : Runs (checkZones s.cfg z) s (after s w (152 * z) tr rest m))
    (h' : Fails (readBurst s.cfg s.cfg.pOnoff (0x18 + 0x18 * z) zoneLen false) n (after s w (152 * z) tr rest m)
      (failed (after s w (152 * z) tr rest m) tr' rest' m')) :
    Fails (opsOf s.cfg .check) (152 * z + n) s (failed s (tr ++ tr') rest' m') := by
  have hlen : (checkZones s.cfg z).length = 152 * z := by
    simp [checkZones, List.length_flatMap, Nat.mul_comm]
  obtain ⟨post, hpost⟩ := opsCheck_split s.cfg hz
  rw [opsOf, hpost, ← hlen]
  exact fails_append (fails_seq h h') post

/-- `CHECK` whose read pair of byte `k` of zone `z` fails. -/
theorem fails_check_readAt {z k r : Nat} (hc : configOk s.cfg = true) (hz : z < 2) (hk : k < 0x18) (hr : r < 4)
    (hs : s.seq = .busy w 0 .run) (ha : s.answers = as ++ bad :: rest) (hl : as.length = 102 * z + 6 + 4 * k + r)
    (hok : ∀ a ∈ as, a.ok = true) (hbad : bad.ok = false) :
    ∃ m, Fails (opsOf s.cfg .check) (152 * z + 8 + 6 * k + r + r / 2) s (failed s
      ((List.range z).flatMap (fun _ => selectTrace s s.cfg.pOnoff
          ++ (List.range 0x18).flatMap (fun j => readTrace s (0x18 + j) (checkByte as j)))
        ++ selectTrace s s.cfg.pOnoff
        ++ (List.range k).flatMap (fun j => readTrace s (0x18 + (0x18 * z + j)) (checkByte as (0x18 * z + j)))
        ++ failedReadTrace s (0x18 + (0x18 * z + k)) r) rest m) ∧ ZonesRead (0x18 * z + k) as s.mem m := by
  obtain ⟨m', hruns, hzones⟩ := runs_checkZones hc hz hs ha (by omega) hok
  obtain ⟨m, hfails, hread⟩ := fails_readBurst (pg := s.cfg.pOnoff) (off := 0x18 + 0x18 * z) (n := zoneLen) (toBuf := false)
    (s := after s w (152 * z) _ (as.drop (102 * z) ++ bad :: rest) m') (pageOf_number hc .onoff)
    (by simp only [Page.ext, extOnoff, zoneLen]; omega) hk hr rfl rfl (by rw [List.length_drop]; omega)
    (fun a h => hok a (List.mem_of_mem_drop h)) hbad
  have hpair : ∀ j ∈ List.range k, readTrace s (0x18 + 0x18 * z + j) (answerByte (as.drop (102 * z)) (9 + 4 * j)) =
      readTrace s (0x18 + (0x18 * z + j)) (checkByte as (0x18 * z + j)) := by
    intro j hj
    have := List.mem_range.mp hj
    rw [checkByte_drop as z (by omega), Nat.add_assoc]
  have h := fails_check hz hruns hfails
  simp only [selectTrace_after, readTrace_after, failedReadTrace_after] at h
  rw [List.flatMap_congr hpair, Nat.add_assoc 0x18] at h
  refine ⟨m, ?_, zonesRead_append hk.le hzones hread⟩
  simpa only [Nat.add_assoc, List.append_assoc] using h

/-- `CHECK` whose page select of zone `z` fails. -/
theorem fails_check_pageSelect {z r : Nat} (hc : configOk s.cfg = true) (hz : z < 2) (hr : r < 6)
    (hs : s.seq = .busy w 0 .run) (ha : s.answers = as ++ bad :: rest) (hl : as.length = 102 * z + r)
    (hok : ∀ a ∈ as, a.ok = true) (hbad : bad.ok = false) :
    ∃ tr m, Fails (opsOf s.cfg .check) (152 * z + r + r / 3) s (failed s tr rest m) ∧ ZonesRead (0x18 * z) as s.mem m := by
  obtain ⟨m, hruns, hzones⟩ := runs_checkZones hc hz hs ha (by omega) hok
  obtain ⟨tr, hfails⟩ := fails_pageSelect (s := after s w (152 * z) _ (as.drop (102 * z) ++ bad :: rest) m) s.cfg.pOnoff hr
    rfl rfl (by rw [List.length_drop]; omega) (fun a h => hok a (List.mem_of_mem_drop h)) hbad
  exact ⟨_, m, Nat.add_assoc .. ▸ fails_check hz hruns (fails_append hfails _), hzones⟩

end

/-! The statement, clause by clause. -/

/-- `RD1` and the page select of `RDB` fail before anything is received (R117, R142). -/
theorem fails_beforeReceive {i : Instr} {s : State} {w : Word} {as rest : List BusAnswer} {bad : BusAnswer}
    (hw : admits s.cfg i = true) (hi : (i.mnemonic = .rd1 ∧ as.length < 10) ∨ (i.mnemonic = .rdb ∧ as.length < 6))
    (hs : s.seq = .busy w 0 .run) (ha : s.answers = as ++ bad :: rest) (hok : ∀ a ∈ as, a.ok = true) (hbad : bad.ok = false) :
    ∃ n tr, Fails (opsOf s.cfg i) n s (failed s tr rest s.mem) := by
  cases i with
  | rd1 page offset =>
    replace hi : as.length < 10 := by simpa [Instr.mnemonic] using hi
    by_cases h : as.length < 6
    · obtain ⟨tr, hfails⟩ := fails_pageSelect page h hs ha rfl hok hbad
      exact ⟨_, tr, fails_append hfails _⟩
    · obtain ⟨p, hp, hlt, -⟩ := inExtent_iff.mp hw
      have hselect := runs_pageSelect_first page hs ha (by omega) hok
      exact ⟨_, _, fails_seq hselect (fails_readAt (shadowAddr_of hp hlt) (show as.length - 6 < 4 by omega) rfl rfl
        List.length_drop (fun a h => hok a (List.mem_of_mem_drop h)) hbad)⟩
  | rdb page offset size =>
    replace hi : as.length < 6 := by simpa [Instr.mnemonic] using hi
    obtain ⟨tr, hfails⟩ := fails_pageSelect page hi hs ha rfl hok hbad
    exact ⟨_, tr, fails_append hfails _⟩
  | _ => simp [Instr.mnemonic] at hi

/-- Settles O39: the run up to the failing call is the run of a shorter burst, and the failing read pair or page select
commits nothing. -/
theorem failedBurstReadKeepsEarlierBytes : Obligations.FailedBurstReadKeepsEarlierBytes := by
  refine ⟨fun s w page offset size p k r as rest bad hp hle hk hr hs ha hl hok hbad => ?_,
    fun s w z k r as rest bad hc hz hk hr hs ha hl hok hbad => ?_,
    fun s w z r as rest bad hc hz hr hs ha hl hok hbad => ?_, fun i s w n as rest bad hw hi hs ha hl hok hbad => ?_⟩
  · obtain ⟨m, hfails, hshadow, hdbuf, hframe⟩ := fails_readBurst (toBuf := true) hp hle hk hr hs ha hl hok hbad
    obtain ⟨t, hrun, hseq, hres, rfl, htrace, hrest, hkeep⟩ := execTimes_failed (i := .rdb page offset size)
      (inExtent_iff.mpr ⟨p, hp, by omega, hle⟩) hs hfails
    exact ⟨t, hrun, hseq, hres, fun j hj => ⟨hshadow j hj, hdbuf rfl j hj⟩,
      fun a h => hframe a fun j hj => ⟨(h j hj).1, fun _ => (h j hj).2⟩, by simp [htrace], hrest, hkeep⟩
  · obtain ⟨m, hfails, hbytes, hframe⟩ := fails_check_readAt hc hz hk hr hs ha hl hok hbad
    obtain ⟨t, hrun, hseq, hres, rfl, htrace, hrest, hkeep⟩ := execTimes_failed (i := .check) rfl hs hfails
    exact ⟨t, hrun, hseq, hres, fun j hj => by rw [State.onoff, ← hbytes j hj, ← Nat.add_assoc], hframe,
      by simp only [htrace, List.append_assoc], hrest, hkeep⟩
  · obtain ⟨tr, m, hfails, hbytes, hframe⟩ := fails_check_pageSelect hc hz hr hs ha hl hok hbad
    obtain ⟨t, hrun, hseq, hres, rfl, -, hrest, hkeep⟩ := execTimes_failed (i := .check) rfl hs hfails
    exact ⟨t, hrun, hseq, hres, fun j hj => by rw [State.onoff, ← hbytes j hj, ← Nat.add_assoc], hframe, hrest, hkeep⟩
  · subst hl
    obtain ⟨k, tr, hfails⟩ := fails_beforeReceive hw hi hs ha hok hbad
    obtain ⟨t, hrun, hseq, hres, hmem, -, hrest, hkeep⟩ := execTimes_failed hw hs hfails
    exact ⟨k + 3, t, hrun, hseq, hres, hmem, hrest, hkeep⟩

end Sys2Proof.Machine
end

section
/-! Writes that fail (41_shadow_state.md R141, 42_backlight_sequences.md R161, R198), first part: `WR1`, `WRB` and `BRIGHT`, whose
only commit is in the last call. -/

namespace Sys2Proof.Machine

/-- A call that changes no byte, whatever its status. -/
def Op.silent : Op → Bool
  | .start _ pre => pre == .none
  | .send _ => true
  | .recv _ _ => false
  | .stop post => post == .none

theorem callStep_silent {s t : State} {op : Op} (hop : op.silent = true) (h : callStep s op = .next t) : t.mem = s.mem := by
  cases op with
  | start d pre =>
    obtain rfl : pre = .none := by simpa [Op.silent] using hop
    obtain rfl := Host.Outcome.next.inj h
    rfl
  | send x =>
    simp only [callStep] at h
    split at h
    · obtain rfl := Host.Outcome.next.inj h
      rfl
    · simp at h
  | recv pg off => simp [Op.silent] at hop
  | stop post =>
    obtain rfl : post = .none := by simpa [Op.silent] using hop
    obtain rfl := Host.Outcome.next.inj h
    rfl

/-- Every call but the last changes no byte, and the last is a `BusStop`. -/
def CommitsLast (ops : List Op) : Prop :=
  ∀ pos op, ops[pos]? = some op → op.silent = true ∨ ((∃ post, op = .stop post) ∧ ops[pos + 1]? = none)

theorem commitsLast_append {xs : List Op} (h : ∀ op ∈ xs, op.silent = true) (post : Post) :
    CommitsLast (xs ++ [.stop post]) := by
  intro pos op hop
  rw [List.getElem?_append] at hop
  split at hop
  · exact .inl (h op (List.mem_of_getElem? hop))
  · next hge =>
    have hop' := List.mem_singleton.mp (List.mem_of_getElem? hop)
    refine .inr ⟨⟨post, hop'⟩, ?_⟩
    rw [List.getElem?_eq_none_iff, List.length_append, List.length_singleton]
    omega

theorem silent_pageSelect (c : Config) (pg : Byte) : ∀ op ∈ pageSelect c pg, op.silent = true :=
  forall_pageSelect rfl (fun _ => rfl) rfl

theorem commitsLast_writeOne (c : Config) (pg : Byte) (off : Nat) (v : Src) : CommitsLast (writeOne c pg off v) := by
  refine commitsLast_append (xs := pageSelect c pg ++ [.start .write .none, .send (.lit (BitVec.ofNat 8 off)), .send v]) ?_ _
  simp only [List.forall_mem_append]
  exact ⟨silent_pageSelect c pg, by simp [Op.silent]⟩

theorem commitsLast_writeBurst (c : Config) (pg : Byte) (off : Nat) (d : List Src) : CommitsLast (writeBurst c pg off d) := by
  refine commitsLast_append ?_ _
  simp only [List.forall_mem_append]
  exact ⟨⟨silent_pageSelect c pg, by simp [Op.silent]⟩, by simp [Op.silent]⟩

/-- `WR1`, `WRB` and `BRIGHT` commit in their last call (R119, R120). -/
theorem commitsLast_opsOf {i : Instr} (hi : i.mnemonic = .wr1 ∨ i.mnemonic = .wrb ∨ i.mnemonic = .bright) (c : Config) :
    CommitsLast (opsOf c i) := by
  cases i with
  | wr1 page offset data => exact commitsLast_writeOne c _ _ _
  | wrb page offset size => exact commitsLast_writeBurst c _ _ _
  | bright data => exact commitsLast_writeOne c _ _ _
  | _ => simp [Instr.mnemonic] at hi

/-- No byte has changed from `m` yet, or the command has made its last call with no failure and completes with `OK`. -/
def Uncommitted (i : Instr) (m : Memory) (s : State) : Prop :=
  s.mem = m ∨ ∃ w pos, s.seq = .busy w pos .run ∧ admits s.cfg i = true ∧ (opsOf s.cfg i)[pos]? = none

theorem exec_uncommitted {i : Instr} {m : Memory} {s t : State} (hops : CommitsLast (opsOf s.cfg i)) (hm : Uncommitted i m s)
    (h : exec i s = .next t) : Uncommitted i m t ∨ (t.seq = .idle ∧ t.result = .ok) := by
  obtain ⟨w, pos, ph, hs, hcase⟩ := exec_next h
  have hmem : ¬ (admits s.cfg i = true ∧ ph = .run ∧ (opsOf s.cfg i)[pos]? = none) → s.mem = m := by
    intro hne
    rcases hm with hm | ⟨w', pos', hs', ha, hend⟩
    · exact hm
    · obtain ⟨rfl, rfl, rfl⟩ : w = w' ∧ pos = pos' ∧ ph = .run := by simpa [hs] using hs'
      exact absurd ⟨ha, rfl, hend⟩ hne
  rcases hcase with ⟨ha, rfl⟩ | ⟨ha, rfl, op, hop, hcall⟩ | ⟨-, -, -, rfl⟩ | ⟨-, rfl, rfl⟩ | ⟨-, rfl, rfl⟩
  · exact .inl (.inl (hmem (by simp [ha])))
  · have hs_mem := hmem (by simp [hop])
    rcases hops pos op hop with hsilent | ⟨⟨post, rfl⟩, hend⟩
    · exact .inl (.inl ((callStep_silent hsilent hcall).trans hs_mem))
    · rcases callStep_next hcall with ⟨d, row, col, hstart, -⟩ | ⟨e, -, hseq, -, hrest, -, -, hstop, -⟩
      · simp at hstart
      · obtain rfl : e = .stop := hstop.mpr ⟨post, rfl⟩
        obtain ⟨-, -, -, hcfg, -⟩ := hrest
        rw [hs, advance_busy] at hseq
        exact .inl (.inr ⟨w, pos + 1, hseq, by rwa [hcfg], by rwa [hcfg]⟩)
  · exact .inr ⟨rfl, rfl⟩
  · exact .inl (.inl (hmem (by simp)))
  · exact .inl (.inl (hmem (by simp)))

/-- A command that has ended takes no further step. -/
theorem execTimes_idle {i : Instr} {n : Nat} {s t : State} (hs : s.seq = .idle) (h : execTimes n i s = .next t) : t = s := by
  cases n with
  | zero => exact (Host.Outcome.next.inj h).symm
  | succ n => simp [execTimes, exec_idle hs] at h

theorem execTimes_uncommitted {i : Instr} {m : Memory} {n : Nat} {s t : State} (hops : ∀ c, CommitsLast (opsOf c i))
    (hm : Uncommitted i m s) (h : execTimes n i s = .next t) : Uncommitted i m t ∨ t.result = .ok := by
  induction n generalizing s with
  | zero =>
    obtain rfl := Host.Outcome.next.inj h
    exact .inl hm
  | succ n ih =>
    cases hexec : exec i s with
    | next u =>
      rw [execTimes_succ n hexec] at h
      rcases exec_uncommitted (hops _) hm hexec with hu | ⟨hidle, hok⟩
      · exact ih hu h
      · exact .inr (execTimes_idle hidle h ▸ hok)
    | fault f => simp [execTimes, hexec] at h
    | refused r => simp [execTimes, hexec] at h

end Sys2Proof.Machine
end

section
/-! Writes that fail, second part: the commands that consist of several single-byte write accesses (42_backlight_sequences.md
R164 to R167). -/

namespace Sys2Proof.Machine

/-- One single-byte write access of a command (R119), with the cell check before it, if there is one (R161). -/
structure Access where
  pre : Pre
  pg : Byte
  off : Nat
  src : Src

/-- The calls of an access. -/
def Access.ops (c : Config) (x : Access) : List Op := withPre x.pre (writeOne c x.pg x.off x.src)

/-- In the state `s` the access passes its check and writes a byte to an address. -/
structure Access.Makes (s : State) (x : Access) (wr : Nat × Byte) : Prop where
  addr : shadowAddr s.cfg x.pg x.off = .ok wr.1
  byte : evalSrc s x.src = .ok wr.2
  check : x.pre = .none ∨ ∃ row col, x.pre = .cell row col ∧ cellCheck s row col = true

/-- From `s` on, the accesses make these writes one after another. -/
def Writes : List Access → List (Nat × Byte) → State → Prop
  | [], [], _ => True
  | x :: xs, wr :: ws, s => x.Makes s wr ∧ Writes xs ws { s with mem := s.mem.write wr.1 wr.2 }
  | [], _ :: _, _ => False
  | _ :: _, [], _ => False

/-- The check reads the bytes alone (R148). -/
theorem cellCheck_congr {s t : State} (hm : t.mem = s.mem) (row col : Byte) : cellCheck t row col = cellCheck s row col := by
  unfold cellCheck channelEnabled State.onoff
  rw [hm]

theorem makes_congr {s t : State} (hc : t.cfg = s.cfg) (hm : t.mem = s.mem) {x : Access} {wr : Nat × Byte}
    (h : x.Makes s wr) : x.Makes t wr where
  addr := hc ▸ h.addr
  byte := (evalSrc_congr hc hm _).trans h.byte
  check := by simpa only [cellCheck_congr hm] using h.check

theorem writes_congr {xs : List Access} {ws : List (Nat × Byte)} {s t : State} (hc : t.cfg = s.cfg) (hm : t.mem = s.mem)
    (h : Writes xs ws s) : Writes xs ws t := by
  induction xs generalizing ws s t with
  | nil =>
    cases ws with
    | nil => trivial
    | cons wr ws => exact h
  | cons x xs ih =>
    cases ws with
    | nil => exact h
    | cons wr ws => exact ⟨makes_congr hc hm h.1, ih (s := { s with mem := s.mem.write wr.1 wr.2 }) hc (by rw [hm]) h.2⟩

theorem writes_after {xs : List Access} {ws : List (Nat × Byte)} {s : State} {m : Memory} (w : Word) (pos : Nat)
    (tr : List BusEvent) (rest : List BusAnswer) (h : Writes xs ws { s with mem := m }) :
    Writes xs ws (after s w pos tr rest m) := writes_congr (s := { s with mem := m }) rfl rfl h

@[simp] theorem writeAll_nil (m : Memory) : writeAll m [] = m := rfl
@[simp] theorem writeAll_cons (m : Memory) (wr : Nat × Byte) (ws : List (Nat × Byte)) :
    writeAll m (wr :: ws) = writeAll (m.write wr.1 wr.2) ws := rfl

/-- Some writes leave every other byte alone. -/
theorem read_writeAll_ne {m : Memory} {ws : List (Nat × Byte)} {a : Nat} (h : ∀ wr ∈ ws, wr.1 ≠ a) :
    (writeAll m ws).read a = m.read a := by
  induction ws generalizing m with
  | nil => rfl
  | cons wr ws ih =>
    rw [writeAll_cons, ih fun wr hwr => h wr (by simp [hwr]), read_write_ne _ _ (h wr (by simp)).symm]

@[simp] theorem length_accessOps (c : Config) (x : Access) : (x.ops c).length = 12 := by
  rw [Access.ops, length_withPre, length_writeOne]

section
variable {s : State} {w : Word} {pos : Nat} {as rest : List BusAnswer} {bad : BusAnswer} {x : Access} {wr : Nat × Byte}

theorem runs_access (hx : x.Makes s wr) (hs : s.seq = .busy w pos .run) (ha : s.answers = as ++ rest) (hl : as.length = 9)
    (hok : ∀ a ∈ as, a.ok = true) :
    ∃ tr, Runs (x.ops s.cfg) s (after s w (pos + 12) tr rest (s.mem.write wr.1 wr.2)) := by
  have h := runs_writeOne hs ha hl hok hx.addr hx.byte
  obtain ⟨pre, pg, off, src⟩ := x
  rcases hx.check with rfl | ⟨row, col, rfl, hcheck⟩
  · exact ⟨_, h⟩
  · exact ⟨_, runs_withPre_cell hcheck h⟩

theorem fails_withPre_cell {row col pg : Byte} {off n : Nat} {v : Src} {t : State} (hc : cellCheck s row col = true)
    (h : Fails (writeOne s.cfg pg off v) n s t) : Fails (withPre (.cell row col) (writeOne s.cfg pg off v)) n s t := by
  cases n with
  | zero =>
    obtain ⟨u, hcall, hseq, ht⟩ := h
    exact ⟨u, (callStep_start_cell .write hc).trans hcall, hseq, ht⟩
  | succ n =>
    obtain ⟨u, hcall, hseq, hfails⟩ := h
    exact ⟨u, (callStep_start_cell .write hc).trans hcall, hseq, hfails⟩

theorem fails_access {r : Nat} (hx : x.Makes s wr) (hr : r < 9) (hs : s.seq = .busy w pos .run)
    (ha : s.answers = as ++ bad :: rest) (hl : as.length = r) (hok : ∀ a ∈ as, a.ok = true) (hbad : bad.ok = false) :
    ∃ tr, Fails (x.ops s.cfg) (r + r / 3) s (failed s tr rest s.mem) := by
  obtain ⟨tr, h⟩ := fails_writeOne (pg := x.pg) (off := x.off) hx.byte hr hs ha hl hok hbad
  obtain ⟨pre, pg, off, src⟩ := x
  rcases hx.check with rfl | ⟨row, col, rfl, hcheck⟩
  · exact ⟨tr, h⟩
  · exact ⟨tr, fails_withPre_cell hcheck h⟩

/-- Accesses whose calls all return `ok` make their writes. -/
theorem runs_writes {xs : List Access} {ws : List (Nat × Byte)} (hx : Writes xs ws s) (hs : s.seq = .busy w pos .run)
    (ha : s.answers = as ++ rest) (hl : as.length = 9 * xs.length) (hok : ∀ a ∈ as, a.ok = true) :
    ∃ tr, Runs (xs.flatMap (Access.ops s.cfg)) s (after s w (pos + 12 * xs.length) tr rest (writeAll s.mem ws)) := by
  induction xs generalizing s pos as ws with
  | nil =>
    cases ws with
    | nil =>
      obtain rfl : as = [] := List.length_eq_zero_iff.mp hl
      refine ⟨[], ?_⟩
      simp only [List.nil_append] at ha
      simp [Runs, after, ← ha, ← hs]
    | cons wr ws => exact hx.elim
  | cons x xs ih =>
    cases ws with
    | nil => exact hx.elim
    | cons wr ws =>
      rw [List.length_cons] at hl
      obtain ⟨tr, hruns⟩ := runs_access (as := as.take 9) (rest := as.drop 9 ++ rest) hx.1 hs
        (by rw [ha, ← List.append_assoc, List.take_append_drop]) (by rw [List.length_take]; omega)
        (fun a h => hok a (List.mem_of_mem_take h))
      obtain ⟨tr', hruns'⟩ := ih (s := after s w (pos + 12) tr (as.drop 9 ++ rest) (s.mem.write wr.1 wr.2)) (pos := pos + 12)
        (as := as.drop 9) (ws := ws) (writes_after _ _ _ _ hx.2) rfl rfl (by rw [List.length_drop]; omega)
        (fun a h => hok a (List.mem_of_mem_drop h))
      refine ⟨tr ++ tr', ?_⟩
      have h := runs_seq hruns hruns'
      rwa [Nat.add_assoc, show 12 + 12 * xs.length = 12 * (xs.length + 1) by omega] at h

/-- Accesses of which number `j` fails, in the call with status `r` of its nine, have made the writes before it (R198). -/
theorem fails_writes {xs : List Access} {ws : List (Nat × Byte)} {j r : Nat} (hx : Writes xs ws s) (hj : j < xs.length) (hr : r < 9)
    (hs : s.seq = .busy w pos .run) (ha : s.answers = as ++ bad :: rest) (hl : as.length = 9 * j + r)
    (hok : ∀ a ∈ as, a.ok = true) (hbad : bad.ok = false) :
    ∃ tr, Fails (xs.flatMap (Access.ops s.cfg)) (12 * j + r + r / 3) s (failed s tr rest (writeAll s.mem (ws.take j))) := by
  induction xs generalizing s pos as ws j with
  | nil => exact absurd hj (Nat.not_lt_zero j)
  | cons x xs ih =>
    cases ws with
    | nil => exact hx.elim
    | cons wr ws =>
      cases j with
      | zero =>
        obtain ⟨tr, hfails⟩ := fails_access hx.1 hr hs ha (by omega) hok hbad
        exact ⟨tr, by simpa using fails_append hfails _⟩
      | succ j =>
        obtain ⟨tr, hruns⟩ := runs_access (as := as.take 9) (rest := as.drop 9 ++ bad :: rest) hx.1 hs
          (by rw [ha, ← List.append_assoc, List.take_append_drop]) (by rw [List.length_take]; omega)
          (fun a h => hok a (List.mem_of_mem_take h))
        obtain ⟨tr', hfails⟩ := ih (s := after s w (pos + 12) tr (as.drop 9 ++ bad :: rest) (s.mem.write wr.1 wr.2))
          (pos := pos + 12) (as := as.drop 9) (ws := ws) (j := j) (writes_after _ _ _ _ hx.2) (by simpa using hj) rfl rfl
          (by rw [List.length_drop]; omega) (fun a h => hok a (List.mem_of_mem_drop h))
        refine ⟨tr ++ tr', ?_⟩
        have h := fails_seq hruns hfails
        rwa [length_accessOps, show 12 + (12 * j + r + r / 3) = 12 * (j + 1) + r + r / 3 by omega] at h

end

/-! The accesses of a cell (R161). -/

/-- The three accesses of a cell: blue after the check, then green and red. -/
def cellAccesses (pg : Byte) (vB vG vR : Src) (q : Byte × Byte) : List Access :=
  [⟨.cell q.1 q.2, pg, pwmOffset q.1.toNat q.2.toNat 0, vB⟩, ⟨.none, pg, pwmOffset q.1.toNat q.2.toNat 1, vG⟩,
    ⟨.none, pg, pwmOffset q.1.toNat q.2.toNat 2, vR⟩]

theorem flatMap_cellAccesses (c : Config) (pg : Byte) (vB vG vR : Src) (cells : List (Byte × Byte)) :
    (cells.flatMap (cellAccesses pg vB vG vR)).flatMap (Access.ops c) =
      cells.flatMap fun q => lightCell c pg q.1 q.2 vB vG vR := by
  rw [List.flatMap_assoc]
  rfl

theorem length_flatMap_cellAccesses (pg : Byte) (vB vG vR : Src) (cells : List (Byte × Byte)) :
    (cells.flatMap (cellAccesses pg vB vG vR)).length = 3 * cells.length := by
  simp [List.length_flatMap, cellAccesses, Nat.mul_comm]

theorem length_flatMap_cellWrites (base : Nat) (v : Nat → Byte) (cells : List (Byte × Byte)) :
    (cells.flatMap fun q => cellWrites base q.1 q.2 v).length = 3 * cells.length := by
  simp [List.length_flatMap, cellWrites, Nat.mul_comm]

/-- Below the `pwm` window stand `DBUF`, which a colour comes from, and the on/off bytes, which a check reads (R38). -/
def SameBelow (s : State) (m : Memory) : Prop := ∀ a, a < 0x500 → m.read a = s.mem.read a

theorem sameBelow_write {s : State} {m : Memory} {base : Nat} (hbase : 0x500 ≤ base) (h : SameBelow s m) (off : Nat) (b : Byte) :
    SameBelow s (m.write (base + off) b) :=
  fun a ha => (read_write_ne _ _ (by omega)).trans (h a ha)

/-- An access of an enabled cell makes its write, whatever the bytes above are. -/
theorem makes_cell {s : State} {m : Memory} {pg : Byte} {p : Page} {q : Byte × Byte} {pre : Pre} {x : Src} {b : Byte} {k : Nat}
    (hm : SameBelow s m) (hp : pageOf s.cfg pg = some p) (hext : p.ext = 0xC0) (hq : CellEnabled s q.1.toNat q.2.toNat)
    (hx : Steady s x b) (hk : k < 3) (hpre : pre = .none ∨ pre = .cell q.1 q.2) :
    Access.Makes { s with mem := m } ⟨pre, pg, pwmOffset q.1.toNat q.2.toNat k, x⟩
      (p.base + pwmOffset q.1.toNat q.2.toNat k, b) where
  addr := shadowAddr_of hp (by rw [hext]; exact pwmOffset_lt hq.1 hq.2.1 hk)
  byte := hx m fun a ha => hm a (by rw [isDbufAddr_iff] at ha; omega)
  check := by
    refine hpre.imp_right fun h => ⟨q.1, q.2, h, ?_⟩
    rw [cellCheck_iff, cellEnabled_congr (s := s) (t := { s with mem := m }) fun o ho => hm (0x400 + o) (by omega)]
    exact hq

/-- The accesses of a row of enabled cells, with the bytes `v` for blue, green and red. -/
theorem writes_cells {s : State} {pg : Byte} {p : Page} {vB vG vR : Src} {v : Nat → Byte} (hp : pageOf s.cfg pg = some p)
    (hext : p.ext = 0xC0) (hB : Steady s vB (v 0)) (hG : Steady s vG (v 1)) (hR : Steady s vR (v 2)) {cells : List (Byte × Byte)}
    (hcells : ∀ q ∈ cells, CellEnabled s q.1.toNat q.2.toNat) :
    Writes (cells.flatMap (cellAccesses pg vB vG vR)) (cells.flatMap fun q => cellWrites p.base q.1 q.2 v) s := by
  have hbase : 0x500 ≤ p.base := by cases p <;> simp [Page.ext] at hext <;> simp [Page.base]
  suffices h : ∀ m, SameBelow s m → Writes (cells.flatMap (cellAccesses pg vB vG vR))
      (cells.flatMap fun q => cellWrites p.base q.1 q.2 v) { s with mem := m } from h s.mem fun _ _ => rfl
  induction cells with
  | nil => exact fun _ _ => trivial
  | cons q cells ih =>
    intro m hm
    have hq := hcells q (by simp)
    have hm1 := sameBelow_write hbase hm (pwmOffset q.1.toNat q.2.toNat 0) (v 0)
    have hm2 := sameBelow_write hbase hm1 (pwmOffset q.1.toNat q.2.toNat 1) (v 1)
    have hm3 := sameBelow_write hbase hm2 (pwmOffset q.1.toNat q.2.toNat 2) (v 2)
    exact ⟨makes_cell (s := s) hm hp hext hq hB (by omega) (.inr rfl), makes_cell (s := s) hm1 hp hext hq hG (by omega) (.inl rfl),
      makes_cell (s := s) hm2 hp hext hq hR (by omega) (.inl rfl), ih (fun q hq => hcells q (by simp [hq])) _ hm3⟩

end Sys2Proof.Machine
end

section
/-! Writes that fail, third part: the accesses of each command, and the statement (60_exceptions.md R198). -/

namespace Sys2Proof.Machine

/-- Up to access `j` of a row of cells, those are enabled whose checks come before it. -/
theorem cells_writes_upTo {s : State} {pg : Byte} {p : Page} {vB vG vR : Src} {v : Nat → Byte} (hp : pageOf s.cfg pg = some p)
    (hext : p.ext = 0xC0) (hB : Steady s vB (v 0)) (hG : Steady s vG (v 1)) (hR : Steady s vR (v 2)) {cells : List (Byte × Byte)}
    {j : Nat} (hj : j < (cells.flatMap fun q => cellWrites p.base q.1 q.2 v).length)
    (hcells : ∀ q ∈ cells.take (j / 3 + 1), CellEnabled s q.1.toNat q.2.toNat) :
    ∃ xs ws post, cells.flatMap (fun q => lightCell s.cfg pg q.1 q.2 vB vG vR) = xs.flatMap (Access.ops s.cfg) ++ post ∧
      Writes xs ws s ∧ j < xs.length ∧ ws.take j = (cells.flatMap fun q => cellWrites p.base q.1 q.2 v).take j := by
  rw [length_flatMap_cellWrites] at hj
  have hlen : (cells.take (j / 3 + 1)).length = j / 3 + 1 := by rw [List.length_take]; omega
  have hsplit := List.take_append_drop (j / 3 + 1) cells
  refine ⟨_, _, (cells.drop (j / 3 + 1)).flatMap fun q => lightCell s.cfg pg q.1 q.2 vB vG vR, ?_,
    writes_cells hp hext hB hG hR hcells, ?_, ?_⟩
  · rw [flatMap_cellAccesses, ← List.flatMap_append, hsplit]
  · rw [length_flatMap_cellAccesses]
    omega
  · conv_rhs => rw [← hsplit, List.flatMap_append]
    rw [List.take_append_of_le_length]
    rw [length_flatMap_cellWrites]
    omega

/-- Clearing and then setting the OSD bit is setting it (R167). -/
theorem osdSet_osdCleared (c : Config) (v : Byte) : osdSet c (osdCleared c v) = osdSet c v := by
  unfold osdSet osdCleared
  ext k
  simp only [BitVec.getElem_or, BitVec.getElem_and, BitVec.getElem_not]
  cases v[k] <;> cases (1#8 <<< c.cfgOsdBit)[k] <;> rfl

/-- The accesses of `CHKTRIG` (R167). -/
def chktrigAccesses (c : Config) : List Access :=
  [⟨.none, c.pFunc, c.fGcc.toNat, .lit c.diagGcc⟩, ⟨.none, c.pFunc, c.fConfig.toNat, .osdOff⟩,
    ⟨.none, c.pFunc, c.fConfig.toNat, .osdOn⟩]

theorem opsChktrig_eq (c : Config) : opsChktrig c = (chktrigAccesses c).flatMap (Access.ops c) := rfl

/-- The byte that `CHKTRIG` sends with the OSD bit clear, and with it set (R167). -/
theorem evalSrc_osd {s : State} (hc : configOk s.cfg = true) :
    evalSrc s .osdOff = .ok (osdCleared s.cfg (s.func s.cfg.fConfig.toNat)) ∧
      evalSrc s .osdOn = .ok (osdSet s.cfg (s.func s.cfg.fConfig.toNat)) := by
  simp [evalSrc, shadowAddr_func hc (func_lt hc).1, Except.map, State.func]

theorem fGcc_ne_fConfig {c : Config} (hc : configOk c = true) : c.fGcc.toNat ≠ c.fConfig.toNat := by
  have hnodup := (configOk_iff.mp hc).2.2.1
  simp only [List.nodup_cons, List.mem_cons, not_or] at hnodup
  exact fun h => hnodup.1.1 (BitVec.eq_of_toNat_eq h).symm

/-- The last access of `CHKTRIG` reads the byte that the one before it wrote. -/
theorem writes_chktrig {s : State} (hc : configOk s.cfg = true) : Writes (chktrigAccesses s.cfg) (singleWrites s .chktrig) s := by
  have hconfig := shadowAddr_func hc (func_lt hc).1
  have hne := fGcc_ne_fConfig hc
  refine ⟨⟨shadowAddr_func hc (func_lt hc).2.1, rfl, .inl rfl⟩, ⟨hconfig, ?_, .inl rfl⟩, ⟨hconfig, ?_, .inl rfl⟩, trivial⟩
  · refine (evalSrc_osd (by exact hc)).1.trans ?_
    simp only [State.func, funcBase]
    rw [read_write_ne _ _ (by omega)]
    rfl
  · refine (evalSrc_osd (by exact hc)).2.trans ?_
    simp only [State.func, funcBase, read_write_same]
    exact congrArg Except.ok (osdSet_osdCleared ..)

/-- The accesses of a command up to number `j`, with the writes they make. -/
theorem writes_upTo {i : Instr} {s : State} {j : Nat} (hc : configOk s.cfg = true) (hj : j < (singleWrites s i).length)
    (hcells : ∀ q ∈ (cellsOf s.cfg i).take (j / 3 + 1), CellEnabled s q.1.toNat q.2.toNat) :
    ∃ xs ws post, opsOf s.cfg i = xs.flatMap (Access.ops s.cfg) ++ post ∧ Writes xs ws s ∧ j < xs.length ∧
      ws.take j = (singleWrites s i).take j := by
  have hB := steady_dbuf s (show 2 < 0xC0 by omega)
  have hG := steady_dbuf s (show 1 < 0xC0 by omega)
  have hR := steady_dbuf s (show 0 < 0xC0 by omega)
  have hpwm := pageOf_number hc .pwm
  cases i with
  | set row col =>
    have := cells_writes_upTo (cells := [(row, col)]) (v := colourByte s) (j := j) hpwm rfl hB hG hR
      (by simpa [singleWrites, Page.base] using hj) hcells
    simpa [opsOf, opsSet, singleWrites, Page.base, Page.number] using this
  | setall half => exact cells_writes_upTo (v := colourByte s) hpwm rfl hB hG hR hj hcells
  | abmset row col chan =>
    have hlit := steady_lit s abmValue
    have := cells_writes_upTo (cells := [(row, col)]) (v := fun _ => 0x01) (j := j) (pageOf_number hc .abm) rfl hlit hlit hlit
      (by simpa [singleWrites, Page.base] using hj) hcells
    simpa [opsOf, opsAbmset, singleWrites, Page.base, Page.number] using this
  | chktrig => exact ⟨_, _, [], by simp [opsOf, opsChktrig_eq], writes_chktrig hc, hj, rfl⟩
  | _ => exact absurd hj (Nat.not_lt_zero j)

/-! A `SETALL` that stops at a check (R165). -/

/-- Writes to the `pwm` and `abm` windows leave every cell as it was, enabled or not (R148). -/
theorem cellEnabled_writeAll {s t : State} {base : Nat} {v : Nat → Byte} {cells : List (Byte × Byte)} (hbase : 0x500 ≤ base)
    (ht : t.mem = writeAll s.mem (cells.flatMap fun q => cellWrites base q.1 q.2 v)) (row col : Nat) :
    CellEnabled t row col ↔ CellEnabled s row col := by
  refine cellEnabled_congr (fun o ho => ?_) row col
  rw [State.onoff, State.onoff, ht]
  refine read_writeAll_ne fun wr hwr => ?_
  obtain ⟨q, -, hq⟩ := List.mem_flatMap.mp hwr
  obtain ⟨k, -, rfl⟩ := List.mem_map.mp hq
  simp only [onoffBase]
  omega

/-- The run of the first positions of a half. -/
theorem runs_colourCells {s : State} {w : Word} {as rest : List BusAnswer} {cells : List (Byte × Byte)} (hc : configOk s.cfg = true)
    (hcells : ∀ q ∈ cells, CellEnabled s q.1.toNat q.2.toNat) (hs : s.seq = .busy w 0 .run) (ha : s.answers = as ++ rest)
    (hl : as.length = 27 * cells.length) (hok : ∀ a ∈ as, a.ok = true) :
    ∃ tr, Runs (cells.flatMap fun q => lightCell s.cfg s.cfg.pPwm q.1 q.2 (.dbuf 2) (.dbuf 1) (.dbuf 0)) s
      (after s w (36 * cells.length) tr rest
        (writeAll s.mem (cells.flatMap fun q => cellWrites 0x500 q.1 q.2 (colourByte s)))) := by
  have hB := steady_dbuf s (show 2 < 0xC0 by omega)
  have hG := steady_dbuf s (show 1 < 0xC0 by omega)
  have hR := steady_dbuf s (show 0 < 0xC0 by omega)
  have hwrites := writes_cells (v := colourByte s) (pageOf_number hc .pwm) rfl hB hG hR hcells
  obtain ⟨tr, hruns⟩ := runs_writes hwrites hs ha (by rw [length_flatMap_cellAccesses]; omega) hok
  rw [flatMap_cellAccesses, length_flatMap_cellAccesses, ← Nat.mul_assoc, Nat.zero_add] at hruns
  exact ⟨tr, hruns⟩

/-- Position `q` of a half, with the positions before and after it. -/
theorem halfPos_split {c : Config} {half : Byte} {q : Nat} {p : Byte × Byte} (hp : (halfPos c half)[q]? = some p) :
    ((halfPos c half).take q).length = q ∧ ∃ post, halfPos c half = (halfPos c half).take q ++ p :: post := by
  obtain ⟨hq, hpq⟩ := List.getElem?_eq_some_iff.mp hp
  refine ⟨by rw [List.length_take]; omega, (halfPos c half).drop (q + 1), ?_⟩
  rw [← hpq, List.getElem_cons_drop, List.take_append_drop]

/-- A call of one piece of a procedure. -/
theorem getElem?_piece {pre ops post : List Op} {k : Nat} (h : k < ops.length) :
    (pre ++ ops ++ post)[pre.length + k]? = ops[k]? := by
  rw [List.append_assoc, List.getElem?_append_right (Nat.le_add_right ..), Nat.add_sub_cancel_left, List.getElem?_append_left h]

theorem length_flatMap_lightCell (c : Config) (pg : Byte) (vB vG vR : Src) (cells : List (Byte × Byte)) :
    (cells.flatMap fun q => lightCell c pg q.1 q.2 vB vG vR).length = 36 * cells.length := by
  simp [List.length_flatMap, Nat.mul_comm]

/-- A call of position `j` of a half (R165). -/
theorem getElem?_opsSetall {c : Config} {half : Byte} {j q : Nat} {p : Byte × Byte} (hp : (halfPos c half)[j]? = some p)
    (hq : q < 36) :
    (opsSetall half c)[36 * j + q]? = (lightCell c c.pPwm p.1 p.2 (.dbuf 2) (.dbuf 1) (.dbuf 0))[q]? := by
  obtain ⟨hlen, post, hsplit⟩ := halfPos_split hp
  have hcount := length_flatMap_lightCell c c.pPwm (.dbuf 2) (.dbuf 1) (.dbuf 0) ((halfPos c half).take j)
  rw [hlen] at hcount
  rw [opsSetall, hsplit, List.flatMap_append, List.flatMap_cons, ← List.append_assoc, ← hcount,
    getElem?_piece (by rwa [length_lightCell])]

/-- The writes of the first `q` positions. -/
theorem take_singleWrites_setall (s : State) (half : Byte) {q : Nat} (hq : ((halfPos s.cfg half).take q).length = q) :
    (singleWrites s (.setall half)).take (3 * q) =
      ((halfPos s.cfg half).take q).flatMap fun p => cellWrites 0x500 p.1 p.2 (colourByte s) := by
  conv_lhs => rw [singleWrites, ← List.take_append_drop q (halfPos s.cfg half), List.flatMap_append]
  refine List.take_left' ?_
  rw [length_flatMap_cellWrites, hq]

/-- A cell check that fails ends the command in its step, with no call (R149, R193). -/
theorem callStep_start_disabled {s : State} (d : Dir) {row col : Byte} (h : ¬ CellEnabled s row.toNat col.toNat) :
    callStep s (.start d (.cell row col)) = .next (complete .addressingError s) := by
  rw [← cellCheck_iff, Bool.not_eq_true] at h
  simp [callStep, startStep, h, raiseError]

/-- A `SETALL` whose position `q` is disabled stops at its check, with the writes of the positions before it. -/
theorem execTimes_setall_disabled {s : State} {w : Word} {half : Byte} {q : Nat} {p : Byte × Byte} {as rest : List BusAnswer}
    (hc : configOk s.cfg = true) (hw : admits s.cfg (.setall half) = true) (hp : (halfPos s.cfg half)[q]? = some p)
    (hdisabled : ¬ CellEnabled s p.1.toNat p.2.toNat)
    (hcells : ∀ p' ∈ (halfPos s.cfg half).take q, CellEnabled s p'.1.toNat p'.2.toNat) (hs : s.seq = .busy w 0 .run)
    (ha : s.answers = as ++ rest) (hl : as.length = 27 * q) (hok : ∀ a ∈ as, a.ok = true) :
    ∃ tr, execTimes (36 * q + 1) (.setall half) s = .next (complete .addressingError (after s w (36 * q) tr rest
      (writeAll s.mem ((singleWrites s (.setall half)).take (3 * q))))) := by
  obtain ⟨hlen, post, hsplit⟩ := halfPos_split hp
  have hwrites := take_singleWrites_setall s half hlen
  obtain ⟨tr, hruns⟩ := runs_colourCells hc hcells hs ha (by rw [hlen, hl]) hok
  rw [hlen, ← hwrites] at hruns
  refine ⟨tr, ?_⟩
  generalize hu : after s w (36 * q) tr rest (writeAll s.mem ((singleWrites s (.setall half)).take (3 * q))) = u at hruns
  have hops : opsOf s.cfg (.setall half) = [] ++ ((halfPos s.cfg half).take q).flatMap (fun q =>
      lightCell s.cfg s.cfg.pPwm q.1 q.2 (.dbuf 2) (.dbuf 1) (.dbuf 0)) ++ (p :: post).flatMap (fun q =>
      lightCell s.cfg s.cfg.pPwm q.1 q.2 (.dbuf 2) (.dbuf 1) (.dbuf 0)) := by
    rw [List.nil_append, ← List.flatMap_append, ← hsplit]
    rfl
  obtain ⟨hrun, -, hcfg⟩ := execTimes_runs (pre := []) 1 hops hw hs hruns
  rw [length_flatMap_lightCell, hlen] at hrun
  have hop : (opsOf u.cfg (.setall half))[36 * q]? = some (.start .write (.cell p.1 p.2)) := by
    rw [hcfg]
    exact (getElem?_opsSetall hp (q := 0) (by omega)).trans (lightCell_head ..)
  have hstop : exec (.setall half) u = .next (complete .addressingError u) := by
    rw [exec_of_op (by rwa [hcfg]) (by rw [← hu, after_seq]) hop]
    refine callStep_start_disabled .write ?_
    rwa [cellEnabled_writeAll (s := s) le_rfl (by rw [← hu, after_mem, hwrites])]
  rw [hrun, execTimes_succ 0 hstop]
  rfl

/-- Settles O38: no call but the last of a single write or a burst commits; a row of accesses has made the writes before
the one that fails, and a disabled position of `SETALL` stops at its check. -/
theorem failedWriteCommitsNothing : Obligations.FailedWriteCommitsNothing := by
  refine ⟨fun i s t w n hi hs hrun hidle hres => ?_,
    fun i s w j r as rest bad hc hw hj hr hcells hs ha hl hok hbad => ?_,
    fun s w half q p as rest hc hhalf hp hdisabled hcells hs ha hl hok => ?_⟩
  · rcases execTimes_uncommitted (commitsLast_opsOf hi) (.inl rfl) hrun with (hm | ⟨w', pos, hseq, -⟩) | hok
    · exact hm
    · simp [hidle] at hseq
    · exact absurd hok hres
  · obtain ⟨xs, ws, post, hops, hwrites, hjx, htake⟩ := writes_upTo hc hj hcells
    obtain ⟨tr, hfails⟩ := fails_writes hwrites hjx hr hs ha hl hok hbad
    obtain ⟨t, hrun, hseq, hres, hmem, -, hrest, hkeep⟩ := execTimes_failed hw hs (hops ▸ fails_append hfails post)
    exact ⟨t, hrun, hseq, hres, by rw [hmem, htake], hrest, hkeep⟩
  · have hw : admits s.cfg (.setall half) = true := (admits_iff hc _).mpr hhalf
    obtain ⟨tr, hrun⟩ := execTimes_setall_disabled hc hw hp hdisabled hcells hs ha hl hok
    exact ⟨_, hrun, rfl, rfl, rfl, rfl, rfl, rfl, rfl, rfl, rfl, rfl⟩

end Sys2Proof.Machine
end

section
/-! The steps in which the commands' effects land (41_shadow_state.md R141, R142). -/

namespace Sys2Proof.Machine

/-! Where the committing calls stand. -/

/-- The `BusRecv` of byte `k` is the fifth call of its read pair (R117, R118). -/
theorem getElem?_readBurst_recv (c : Config) (pg : Byte) (off : Nat) (b : Bool) {k n : Nat} (h : k < n) :
    (readBurst c pg off n b)[8 + 6 * k + 4]? = some (.recv pg (off + k)) := by
  obtain ⟨post, hpost⟩ := readBurst_split c pg off b h
  rw [hpost, ← List.append_assoc, ← length_readBurst c pg off k b, getElem?_piece (by simp)]
  rfl

/-- The last call of a burst write (R120). -/
theorem getElem?_writeBurst_last (c : Config) (pg : Byte) (off : Nat) (d : List Src) :
    (writeBurst c pg off d)[10 + d.length]? = some (.stop (.commit pg off d)) := by
  have hlen : (pageSelect c pg ++ [Op.start .write .none, Op.send (.lit (BitVec.ofNat 8 off))] ++ d.map Op.send).length =
      10 + d.length := by
    simp
    omega
  rw [writeBurst, List.getElem?_append_right hlen.le, hlen, Nat.sub_self]
  rfl

/-- The last `BusStop` of each access of a cell (R161). -/
theorem getElem?_lightCell_stop (c : Config) (pg row col : Byte) (v : Nat → Src) {k : Nat} (h : k < 3) :
    (lightCell c pg row col (v 0) (v 1) (v 2))[12 * k + 11]? =
      some (.stop (.commit pg (pwmOffset row.toNat col.toNat k) [v k])) := by
  match k, h with
  | 0, _ => rfl
  | 1, _ => rfl
  | 2, _ => rfl

/-- The last call of the two bursts of `RESET` (R162, steps 7 and 8). -/
theorem getElem?_opsReset_bursts (c : Config) :
    (opsReset c)[96]? = some (.stop (.commit c.pOnoff 0 (c.onoffMask.toList.map .lit))) ∧
      (opsReset c)[299]? = some (.stop (.commit c.pPwm 0 ((List.replicate 0xC0 0x00).map .lit))) := by
  constructor
  · have h := getElem?_writeBurst_last c c.pOnoff 0 (c.onoffMask.toList.map .lit)
    rw [List.length_map, Vector.length_toList] at h
    rw [← h]
    exact getElem?_piece (k := 34) (by simp)
  · have h := getElem?_writeBurst_last c c.pPwm 0 ((List.replicate 0xC0 0x00).map .lit)
    rw [List.length_map, List.length_replicate] at h
    rw [← h, opsReset, List.map_replicate, List.getElem?_append_right (by simp)]
    simp only [List.length_append, length_withPre, length_readBurst, length_writeOne, length_writeBurst, List.length_map,
      Vector.length_toList]

/-! Reads. -/

theorem shadowAddr_onoff {c : Config} (hc : configOk c = true) {o : Nat} (ho : o < 0x48) :
    shadowAddr c c.pOnoff o = .ok (0x400 + o) := shadowAddr_of (pageOf_number hc .onoff) ho

/-- Settles O54: at each of these positions stands the `BusRecv` of that byte. -/
theorem readCommitsWithItsReceive : Obligations.ReadCommitsWithItsReceive := by
  intro s w p a pos i hw hs hpos
  obtain ⟨pg, off, hop, haddr⟩ : ∃ pg off, (opsOf s.cfg i)[pos]? = some (.recv pg off) ∧ shadowAddr s.cfg pg off = .ok a := by
    rcases hpos with ⟨page, offset, rfl, hp, rfl, rfl⟩ | ⟨page, offset, size, k, rfl, hp, hk, rfl, rfl⟩ | ⟨rfl, hc, rfl, rfl⟩ |
      ⟨k, rfl, hc, hk, rfl, rfl⟩ | ⟨k, rfl, hc, hk, rfl, rfl⟩
    · obtain ⟨q, hq, hlt, -⟩ := inExtent_iff.mp hw
      obtain rfl : p = q := by simpa [hp] using hq
      exact ⟨page, _, rfl, shadowAddr_of hp hlt⟩
    · obtain ⟨q, hq, -, hle⟩ := inExtent_iff.mp hw
      obtain rfl : p = q := by simpa [hp] using hq
      exact ⟨page, _, getElem?_readBurst_recv _ _ _ _ hk, shadowAddr_of hp (by omega)⟩
    · exact ⟨_, _, rfl, shadowAddr_func hc (func_lt hc).2.2.2.2⟩
    · refine ⟨s.cfg.pOnoff, 0x18 + k, ?_, ?_⟩
      · rw [opsOf, opsCheck, List.getElem?_append_left (by rw [length_readBurst, zoneLen]; omega)]
        exact getElem?_readBurst_recv _ _ _ _ hk
      · exact (shadowAddr_onoff hc (by omega)).trans (congrArg Except.ok (by omega))
    · refine ⟨s.cfg.pOnoff, 0x30 + k, ?_, ?_⟩
      · rw [opsOf, opsCheck, List.getElem?_append_right (by rw [length_readBurst, zoneLen]; omega), length_readBurst,
          show 160 + 6 * k + 4 - (8 + 6 * zoneLen) = 8 + 6 * k + 4 by simp only [zoneLen]; omega]
        exact getElem?_readBurst_recv _ _ _ _ hk
      · exact (shadowAddr_onoff hc (by omega)).trans (congrArg Except.ok (by omega))
  rw [exec_of_op hw hs hop]
  exact ⟨fun hok => callStep_recv_ok hs hok haddr, fun hok => callStep_recv_error hs hok haddr⟩

/-! Writes. -/

section
variable {i : Instr} {s : State} {w : Word} {pos : Nat}

/-- A single byte commits in the step of the last `BusStop` of its access (R119, R141). -/
theorem exec_commit_one {pg : Byte} {off a : Nat} {v : Src} {b : Byte} (ha : admits s.cfg i = true) (hs : s.seq = .busy w pos .run)
    (hop : (opsOf s.cfg i)[pos]? = some (.stop (.commit pg off [v]))) (hx : shadowAddr s.cfg pg off = .ok a)
    (hv : evalSrc s v = .ok b) :
    exec i s = .next { s with mem := s.mem.write a b, trace := s.trace ++ [.stop], seq := .busy w (pos + 1) .run } :=
  (exec_of_op ha hs hop).trans (callStep_stop_eq hs (applyPost_commit (evalAll_one hv) (commitWrite_one hx b s.mem)))

/-- A burst commits all its bytes in the step of its last `BusStop` (R120, R141). -/
theorem exec_commit_burst {pg : Byte} {p : Page} {off : Nat} {d : List Src} {bs : List Byte} (ha : admits s.cfg i = true)
    (hs : s.seq = .busy w pos .run) (hop : (opsOf s.cfg i)[pos]? = some (.stop (.commit pg off d)))
    (hp : pageOf s.cfg pg = some p) (hd : evalAll s d = .ok bs) (hle : off + bs.length ≤ p.ext) :
    ∃ m, exec i s = .next { s with mem := m, trace := s.trace ++ [.stop], seq := .busy w (pos + 1) .run } ∧
      (∀ k, (hk : k < bs.length) → m.read (p.base + (off + k)) = bs[k]) ∧
      (∀ a, (∀ k, k < bs.length → a ≠ p.base + (off + k)) → m.read a = s.mem.read a) := by
  obtain ⟨m, hm, hwritten, hframe⟩ := commitWrite_ok hp hle s.mem
  exact ⟨m, (exec_of_op ha hs hop).trans (callStep_stop_eq hs (applyPost_commit hd hm)), hwritten, hframe⟩

end

theorem evalAll_lit (s : State) (bs : List Byte) : evalAll s (bs.map .lit) = .ok bs := by
  induction bs with
  | nil => rfl
  | cons b bs ih => simp [evalAll, evalSrc, ih]

/-- Settles O56: the last call of `WRB` is the commit of its burst. -/
theorem wrbCommitsWithItsStop : Obligations.WrbCommitsWithItsStop := by
  intro s w page offset size p hrule hp hlt hle hs
  have hop : (opsOf s.cfg (.wrb page offset size))[10 + size.toNat]? =
      some (.stop (.commit page offset.toNat ((List.range size.toNat).map .dbuf))) := by
    have h := getElem?_writeBurst_last s.cfg page offset.toNat ((List.range size.toNat).map .dbuf)
    rwa [List.length_map, List.length_range] at h
  obtain ⟨m, hexec, hwritten, hframe⟩ := exec_commit_burst (admits_wrb hrule hp hlt hle) hs hop hp (evalAll_dbuf_range s hle)
    (by simpa using hle)
  simp only [List.length_map, List.length_range, List.getElem_map, List.getElem_range] at hwritten hframe
  exact ⟨m, by rw [hexec, show 10 + size.toNat + 1 = 11 + size.toNat by omega], hwritten, hframe⟩

/-- A single-byte write of a command lands at position `pos`: the address and the byte. -/
def CommitsOneAt (s : State) (i : Instr) (pos a : Nat) (b : Byte) : Prop :=
  ∃ pg off v, (opsOf s.cfg i)[pos]? = some (.stop (.commit pg off [v])) ∧ shadowAddr s.cfg pg off = .ok a ∧ evalSrc s v = .ok b

/-- The offset of a channel inside its window (R145). -/
theorem shadowAddr_cell {c : Config} {pg : Byte} {p : Page} (hp : pageOf c pg = some p) (hext : p.ext = 0xC0) {row col k : Nat}
    (hr : row < 4) (hc : col < 16) (hk : k < 3) :
    shadowAddr c pg (pwmOffset row col k) = .ok (p.base + ((row * 3 + k) * 16 + col)) :=
  shadowAddr_of hp (by rw [hext]; exact pwmOffset_lt hr hc hk)

theorem evalSrc_colour (s : State) (k : Nat) : evalSrc s (.dbuf (2 - k)) = .ok (colourByte s k) :=
  evalSrc_dbuf s (by omega)

/-- Settles O55: at each of these positions stands the `BusStop` that ends the access of that byte, or the burst. -/
theorem writeCommitsWithItsStop : Obligations.WriteCommitsWithItsStop := by
  refine ⟨fun s w a pos b i hc hw hs hpos => ?_, fun s w hc => ⟨fun hs => ?_, fun hs => ?_⟩⟩
  · obtain ⟨hconfig, hgcc, hswpu, hcspd, -⟩ := func_lt hc
    obtain ⟨pg, off, v, hop, haddr, hv⟩ : CommitsOneAt s i pos a b := by
      rcases hpos with ⟨page, offset, p, rfl, hp, rfl, rfl⟩ | ⟨rfl, rfl, rfl⟩ | ⟨row, col, k, rfl, hr, hcl, hk, rfl, rfl, rfl⟩ |
        ⟨row, col, chan, k, rfl, hr, hcl, hk, rfl, rfl, rfl⟩ | ⟨half, j, p, k, rfl, hp, hr, hcl, hk, rfl, rfl, rfl⟩ |
        ⟨rfl, rfl, rfl, rfl⟩ | ⟨rfl, rfl, rfl, rfl⟩ | ⟨rfl, rfl, rfl, rfl⟩ | ⟨rfl, rfl, rfl, rfl⟩ | ⟨rfl, rfl, rfl, rfl⟩ |
        ⟨rfl, rfl, rfl, rfl⟩ | ⟨rfl, rfl, rfl, rfl⟩
      · rw [Instr.wellFormed, admits, Bool.and_eq_true] at hw
        obtain ⟨q, hq, hlt, -⟩ := inExtent_iff.mp hw.1
        obtain rfl : p = q := by simpa [hp] using hq
        exact ⟨page, _, _, rfl, shadowAddr_of hp hlt, rfl⟩
      · exact ⟨_, _, _, rfl, shadowAddr_func hc hgcc, rfl⟩
      · exact ⟨_, _, _, getElem?_lightCell_stop _ _ _ _ (fun k => .dbuf (2 - k)) hk,
          shadowAddr_cell (pageOf_number hc .pwm) rfl hr hcl hk, evalSrc_colour s k⟩
      · exact ⟨_, _, _, getElem?_lightCell_stop _ _ _ _ (fun _ => .lit abmValue) hk,
          shadowAddr_cell (pageOf_number hc .abm) rfl hr hcl hk, rfl⟩
      · refine ⟨_, _, _, ?_, shadowAddr_cell (pageOf_number hc .pwm) rfl hr hcl hk, evalSrc_colour s k⟩
        rw [opsOf, Nat.add_assoc, getElem?_opsSetall hp (by omega)]
        exact getElem?_lightCell_stop _ _ _ _ (fun k => .dbuf (2 - k)) hk
      · exact ⟨_, _, _, rfl, shadowAddr_func hc hconfig, rfl⟩
      · exact ⟨_, _, _, rfl, shadowAddr_func hc hgcc, rfl⟩
      · exact ⟨_, _, _, rfl, shadowAddr_func hc hswpu, rfl⟩
      · exact ⟨_, _, _, rfl, shadowAddr_func hc hcspd, rfl⟩
      · exact ⟨_, _, _, rfl, shadowAddr_func hc hgcc, rfl⟩
      · exact ⟨_, _, _, rfl, shadowAddr_func hc hconfig, (evalSrc_osd hc).1⟩
      · exact ⟨_, _, _, rfl, shadowAddr_func hc hconfig, (evalSrc_osd hc).2⟩
    exact exec_commit_one hw hs hop haddr hv
  · obtain ⟨m, hexec, hwritten, hframe⟩ := exec_commit_burst (i := .reset) rfl hs (getElem?_opsReset_bursts s.cfg).1
      (pageOf_number hc .onoff) (evalAll_lit s _) (by simp [Page.ext])
    simp only [Vector.length_toList, Nat.zero_add, Vector.getElem_toList, Page.base] at hwritten hframe
    exact ⟨m, hexec, hwritten, hframe⟩
  · obtain ⟨m, hexec, hwritten, hframe⟩ := exec_commit_burst (i := .reset) rfl hs (getElem?_opsReset_bursts s.cfg).2
      (pageOf_number hc .pwm) (evalAll_lit s _) (by rw [List.length_replicate]; exact le_rfl)
    simp only [List.length_replicate, Nat.zero_add, List.getElem_replicate, Page.base] at hwritten hframe
    exact ⟨m, hexec, hwritten, hframe⟩

end Sys2Proof.Machine
end

section
/-! The LED channel mapping and the cell check (41_shadow_state.md R146 to R149), the cells that fail it, and `SET` on a cell that
passes it (42_backlight_sequences.md R161, R164). -/

namespace Sys2Proof.Machine

/-! The check. -/

/-- Settles O58: both sides are the quotient and the remainder of the PWM offset by 8. -/
theorem onOffBitOfPwmOffset : Obligations.OnOffBitOfPwmOffset := fun _ _ _ hcol _ _ => onOffByte_eq hcol

/-- After `ShadowClear` every shadow byte reads 0, so no cell is enabled (R144, R227). -/
theorem not_cellEnabled_shadowClear (s : State) (row col : Nat) : ¬ CellEnabled (shadowClear s) row col := by
  rintro ⟨hrow, hcol, hbits⟩
  have hbyte : onOffByte row col 0 < 0x48 := by
    simp only [onOffByte, subRow, subrows, bank]
    split <;> omega
  have hzero : (shadowClear s).onoff (onOffByte row col 0) = 0 := by
    have hshadow : isShadowAddr (onoffBase + onOffByte row col 0) = true := isShadowAddr_base (p := .onoff) hbyte
    rw [State.onoff, shadowClear_mem, read_clearShadow, if_pos hshadow]
  simpa [hzero] using hbits 0 (by decide)

/-- Settles O59: the check is `CellEnabled` read off the PWM offsets, and a cleared shadow enables no cell. -/
theorem cellCheckReadsOnOffBits : Obligations.CellCheckReadsOnOffBits := by
  refine fun s row col => ⟨cellCheck_iff s row col, ?_⟩
  rw [← Bool.not_eq_true, cellCheck_iff]
  exact not_cellEnabled_shadowClear s _ _

/-! Cells that fail the check. -/

/-- A command at the check of a cell that is not enabled ends in that step (R149, R193). -/
theorem exec_at_disabled_cell {i : Instr} {s : State} {w : Word} {pos : Nat} {d : Dir} {row col : Byte}
    (ha : admits s.cfg i = true) (hs : s.seq = .busy w pos .run)
    (hop : (opsOf s.cfg i)[pos]? = some (.start d (.cell row col))) (h : ¬ CellEnabled s row.toNat col.toNat) :
    exec i s = .next (complete .addressingError s) :=
  (exec_of_op ha hs hop).trans (callStep_start_disabled d h)

/-- Settles O49: the first call of a cell's writes is its check, and position `j` of a half begins at call `36 * j`. -/
theorem disabledCellEndsWithAddressingError : Obligations.DisabledCellEndsWithAddressingError := by
  refine ⟨fun s w row col hs h => ⟨?_, fun chan => ?_⟩, fun s w half j p hhalf hp h hs => ?_⟩
  · exact exec_at_disabled_cell (i := .set row col) rfl hs (lightCell_head ..) h
  · exact exec_at_disabled_cell (i := .abmset row col chan) rfl hs (lightCell_head ..) h
  · have ha : admits s.cfg (.setall half) = true := by rcases hhalf with rfl | rfl <;> rfl
    exact exec_at_disabled_cell ha hs ((getElem?_opsSetall hp (q := 0) (by decide)).trans (lightCell_head ..)) h

/-! `SET`. -/

/-- The byte of channel `k` after a cell's three writes: the offsets of the channels differ (R145). -/
theorem read_cellMem (m : Memory) (p : Page) (row col : Byte) (v : Nat → Byte) {k : Nat} (hk : k < 3) :
    (cellMem m p row col (v 0) (v 1) (v 2)).read (p.base + pwmOffset row.toNat col.toNat k) = v k := by
  simp only [cellMem, read_write, pwmOffset, subRow, subrows, cols]
  match k, hk with
  | 0, _ => rw [if_neg (by omega), if_neg (by omega), if_pos rfl]
  | 1, _ => rw [if_neg (by omega), if_pos rfl]
  | 2, _ => rw [if_pos rfl]

theorem read_cellMem_ne (m : Memory) (p : Page) (row col : Byte) (b g r : Byte) {a : Nat}
    (ha : ∀ k, k < 3 → a ≠ p.base + pwmOffset row.toNat col.toNat k) :
    (cellMem m p row col b g r).read a = m.read a := by
  rw [cellMem, read_write_ne _ _ (ha 2 (by decide)), read_write_ne _ _ (ha 1 (by decide)), read_write_ne _ _ (ha 0 (by decide))]

/-- Settles O48: the run of one cell whose sources are bytes of `DBUF`, which its writes do not change. -/
theorem setWritesCellColour : Obligations.SetWritesCellColour := by
  intro s w row col as rest hc hcell hs hans hlen hok
  have hruns := runs_lightCell (pageOf_number hc .pwm) rfl ((cellCheck_iff s row col).mpr hcell) hcell.1 hcell.2.1
    (steady_dbuf s (i := 2) (by decide)) (steady_dbuf s (i := 1) (by decide)) (steady_dbuf s (i := 0) (by decide))
    hs hans hlen hok
  obtain ⟨t, hrun, hseq, hres, hmem, htrace, hrest, hkeep⟩ := execTimes_ok (i := .set row col) rfl hs hruns
  have hbyte : ∀ k, k < 3 → t.pwm ((row.toNat * 3 + k) * 16 + col.toNat) = colourByte s k := fun k hk => by
    rw [State.pwm, hmem]
    exact read_cellMem s.mem .pwm row col (colourByte s) hk
  refine ⟨t, hrun, hseq, hres, hbyte 0 (by decide), hbyte 1 (by decide), hbyte 2 (by decide), fun a ha => ?_, ?_, hrest, hkeep⟩
  · rw [hmem]
    exact read_cellMem_ne s.mem .pwm row col _ _ _ ha
  · rw [htrace, ← List.append_assoc, ← List.append_assoc]
    rfl

end Sys2Proof.Machine
end

section
/-! No step faults (41_shadow_state.md R140): the host port has no fault, and the block's turn has a next state at every position that a
run reaches. -/

namespace Sys2Proof.Machine

theorem HasNext.ne_fault {o : Host.Outcome State Fault Refusal} (h : HasNext o) (f : Fault) : o ≠ .fault f := by
  obtain ⟨t, rfl⟩ := h
  nofun

theorem whileIdle_ne_fault {o : Host.Outcome State Fault Refusal} {f : Fault} (s : State) (h : o ≠ .fault f) :
    whileIdle s o ≠ .fault f := by
  unfold whileIdle
  split
  · nofun
  · exact h

/-- A host read answers or is refused (R201). -/
theorem memRead_ne_fault (a : HostAddr) (n : Nat) (s : State) (f : Fault) : memRead a n s ≠ .fault f := by
  unfold memRead
  split
  · exact whileIdle_ne_fault s nofun
  · nofun
  · nofun
  · exact whileIdle_ne_fault s nofun
  · exact whileIdle_ne_fault s nofun
  · nofun
  · nofun

/-- A host write goes through or is refused (R201). -/
theorem memWrite_ne_fault (a : HostAddr) (n : Nat) (v : Word) (s : State) (f : Fault) : memWrite a n v s ≠ .fault f := by
  unfold memWrite
  split
  · exact whileIdle_ne_fault s nofun
  · nofun
  · nofun
  · exact whileIdle_ne_fault s nofun
  · exact whileIdle_ne_fault s nofun
  · nofun
  · nofun

/-- The block's turn answers after the first block reset, and is refused before it. -/
theorem blockTurn_ne_fault {s : State} (hc : configOk s.cfg = true) (hok : PositionOk s) (f : Fault) :
    blockTurn exec s ≠ .fault f := by
  cases hl : s.live with
  | false =>
    rw [blockTurn_notLive hl]
    nofun
  | true => exact (blockTurn_hasNext hc hl hok).ne_fault f

/-- The host's turn faults only where a `WAIT` hands it to the block. -/
theorem hostTurn_ne_fault {block : State → Host.Outcome State Fault Refusal} {s : State} {f : Fault}
    (hblock : block s ≠ .fault f) (x : HostAccess) (rest : List HostEvent) : hostTurn block x rest s ≠ .fault f := by
  cases hl : s.live with
  | false => cases x <;> simp [hostTurn, hl]
  | true =>
    cases x with
    | blockReset => nofun
    | delay d => nofun
    | memRead a n =>
      rw [hostTurn_memRead hl]
      exact memRead_ne_fault _ _ _ f
    | memWrite a n v =>
      rw [hostTurn_memWrite hl]
      exact memWrite_ne_fault _ _ _ _ f
    | wait =>
      cases hb : s.busy with
      | true => rwa [hostTurn_wait_busy hl hb]
      | false =>
        rw [hostTurn_wait_idle hl hb]
        exact memRead_ne_fault _ _ _ f

/-- Settles O12: only the block's turn reaches a shadow or `DBUF` place by its offset, and `exec_hasNext` says those places exist. -/
theorem stepNeverFaults : Obligations.StepNeverFaults := by
  intro s f hok
  by_cases hc : configOk s.cfg = true
  · rcases hh : s.host with _ | ⟨⟨_ | g, x⟩, rest⟩
    · rw [step_block hc hh]
      exact blockTurn_ne_fault hc hok f
    · rw [step_due hc hh]
      exact hostTurn_ne_fault (blockTurn_ne_fault hc hok f) x rest
    · rw [step_later hc hh]
      exact blockTurn_ne_fault (s := { s with host := ⟨g, x⟩ :: rest }) hc ((positionOk_congr rfl rfl).mpr hok) f
  · rw [step_badConfig hc]
    nofun

end Sys2Proof.Machine
end

section
/-! Procedures made of stages that commit as a whole (41_shadow_state.md R141, R142): what such a procedure leaves when one of its calls
returns `error`. -/

namespace Sys2Proof.Machine

/-! Blocks of consecutive bytes. -/

/-- The bytes from an address on are these; every other byte keeps its value. -/
def Written (x : Nat) (bs : List Byte) (m m' : Memory) : Prop :=
  (∀ k, (hk : k < bs.length) → m'.read (x + k) = bs[k]) ∧ ∀ a, (∀ k, k < bs.length → a ≠ x + k) → m'.read a = m.read a

theorem written_write (m : Memory) (x : Nat) (b : Byte) : Written x [b] m (m.write x b) := by
  refine ⟨fun k hk => ?_, fun a ha => read_write_ne _ _ (ha 0 (by simp))⟩
  obtain rfl : k = 0 := by simpa using hk
  exact read_write_same ..

/-- Blocks written one after another. -/
def WrittenAll : List (Nat × List Byte) → Memory → Memory → Prop
  | [], m, m' => m' = m
  | (x, bs) :: bl, m, m'' => ∃ m', Written x bs m m' ∧ WrittenAll bl m' m''

/-- Two blocks have no address in common. -/
def Apart (b b' : Nat × List Byte) : Prop := b.1 + b.2.length ≤ b'.1 ∨ b'.1 + b'.2.length ≤ b.1

/-- An address outside every block. -/
def Outside (bl : List (Nat × List Byte)) (a : Nat) : Prop := ∀ b ∈ bl, a < b.1 ∨ b.1 + b.2.length ≤ a

/-- Blocks leave every byte outside them alone. -/
theorem WrittenAll.frame {bl : List (Nat × List Byte)} {m m' : Memory} (h : WrittenAll bl m m') {a : Nat} (ha : Outside bl a) :
    m'.read a = m.read a := by
  induction bl generalizing m with
  | nil => rw [h]
  | cons b bl ih =>
    obtain ⟨m₁, ⟨-, hframe⟩, hrest⟩ := h
    rw [ih hrest fun b' hb' => ha b' (by simp [hb']), hframe a fun k hk => ?_]
    have := ha b (by simp)
    omega

/-- Of blocks that lie apart, each that is among the first `j` stands in the memory; the place of any other is as it was. -/
theorem WrittenAll.read_block {bl : List (Nat × List Byte)} {j i x : Nat} {bs : List Byte} {m m' : Memory}
    (hapart : bl.Pairwise Apart) (h : WrittenAll (bl.take j) m m') (hi : bl[i]? = some (x, bs)) {k : Nat} (hk : k < bs.length) :
    m'.read (x + k) = if i < j then bs[k] else m.read (x + k) := by
  induction bl generalizing i j m with
  | nil => simp at hi
  | cons b bl ih =>
    obtain ⟨hhead, htail⟩ := List.pairwise_cons.mp hapart
    cases j with
    | zero => rw [show m' = m from h, if_neg (Nat.not_lt_zero i)]
    | succ j =>
      obtain ⟨m₁, ⟨hbytes, hframe⟩, hrest⟩ := h
      cases i with
      | zero =>
        obtain rfl : b = (x, bs) := by simpa using hi
        rw [WrittenAll.frame hrest fun b' hb' => ?_, hbytes k hk, if_pos (Nat.succ_pos j)]
        have := hhead b' (List.mem_of_mem_take hb')
        simp only [Apart] at this
        omega
      | succ i =>
        rw [List.getElem?_cons_succ] at hi
        rw [ih htail hrest hi, hframe (x + k) fun l hl => ?_]
        · simp only [Nat.succ_lt_succ_iff]
        · have := hhead _ (List.mem_of_getElem? hi)
          simp only [Apart] at this
          omega

/-! Stages. -/

/-- A stage of a command that takes `count` answers and commits the bytes they lead to, from an address on. -/
structure Stage where
  ops : List Op
  count : Nat
  addr : Nat
  bytes : List BusAnswer → List Byte

/-- The stage commits its bytes when every call of it returns `ok`, and a failed call of it commits nothing. -/
structure Stage.CommitsAsWhole (c : Config) (p : Stage) : Prop where
  runs : ∀ {s : State} {w : Word} {pos : Nat} {as rest : List BusAnswer}, s.cfg = c → s.seq = .busy w pos .run →
    s.answers = as ++ rest → as.length = p.count → (∀ a ∈ as, a.ok = true) →
    ∃ pos' tr m, Runs p.ops s (after s w pos' tr rest m) ∧ Written p.addr (p.bytes as) s.mem m
  fails : ∀ {s : State} {w : Word} {pos : Nat} {as rest : List BusAnswer} {bad : BusAnswer}, s.cfg = c →
    s.seq = .busy w pos .run → s.answers = as ++ bad :: rest → as.length < p.count → (∀ a ∈ as, a.ok = true) →
    bad.ok = false → ∃ n tr, Fails p.ops n s (failed s tr rest s.mem)

/-- The blocks that the stages commit, each by the answers that are its own. -/
def blocksOf : List Stage → List BusAnswer → List (Nat × List Byte)
  | [], _ => []
  | p :: ps, as => (p.addr, p.bytes (as.take p.count)) :: blocksOf ps (as.drop p.count)

/-- A procedure of such stages that fails has committed the stages whose answers were all there, and nothing else. -/
theorem fails_stages {ps : List Stage} {s : State} {w : Word} {pos : Nat} {as rest : List BusAnswer} {bad : BusAnswer}
    (hps : ∀ p ∈ ps, p.CommitsAsWhole s.cfg) (hs : s.seq = .busy w pos .run) (ha : s.answers = as ++ bad :: rest)
    (hl : as.length < (ps.map Stage.count).sum) (hok : ∀ a ∈ as, a.ok = true) (hbad : bad.ok = false) :
    ∃ j n tr m, (∀ i, i < ps.length → (i < j ↔ ((ps.map Stage.count).take (i + 1)).sum ≤ as.length)) ∧
      Fails (ps.flatMap Stage.ops) n s (failed s tr rest m) ∧ WrittenAll ((blocksOf ps as).take j) s.mem m := by
  induction ps generalizing s pos as with
  | nil => exact absurd hl (Nat.not_lt_zero _)
  | cons p ps ih =>
    have hp := hps p (by simp)
    by_cases hlt : as.length < p.count
    · obtain ⟨n, tr, hfails⟩ := hp.fails rfl hs ha hlt hok hbad
      refine ⟨0, n, tr, s.mem, fun i _ => ?_, fails_append hfails _, rfl⟩
      rw [List.map_cons, List.take_succ_cons, List.sum_cons]
      omega
    · rw [List.map_cons, List.sum_cons] at hl
      obtain ⟨pos', tr, m, hruns, hwritten⟩ := hp.runs (as := as.take p.count) (rest := as.drop p.count ++ bad :: rest) rfl hs
        (by rw [ha, ← List.append_assoc, List.take_append_drop]) (by rw [List.length_take]; omega)
        (fun a h => hok a (List.mem_of_mem_take h))
      obtain ⟨j, n, tr', m', hcount, hfails, hall⟩ := ih (s := after s w pos' tr (as.drop p.count ++ bad :: rest) m) (pos := pos')
        (as := as.drop p.count) (fun q hq => hps q (by simp [hq])) rfl rfl (by rw [List.length_drop]; omega)
        (fun a h => hok a (List.mem_of_mem_drop h))
      refine ⟨j + 1, _, _, m', fun i hi => ?_, fails_seq hruns hfails, m, hwritten, hall⟩
      cases i with
      | zero => simpa using hlt
      | succ i =>
        have := hcount i (by simpa using hi)
        rw [List.length_drop] at this
        rw [List.map_cons, List.take_succ_cons, List.sum_cons]
        omega

/-! The procedures as stages. -/

section
variable {c : Config} {pg : Byte} {p : Page} {off : Nat}

/-- One read pair that does not fill `DBUF` (R118). -/
def readStage (c : Config) (pg : Byte) (p : Page) (off : Nat) : Stage where
  ops := readBurst c pg off 1 false
  count := 10
  addr := p.base + off
  bytes as := [answerByte as 9]

theorem readBurst_one (c : Config) (pg : Byte) (off : Nat) :
    readBurst c pg off 1 false = pageSelect c pg ++ readAt pg off none := rfl

theorem commits_readStage (hp : pageOf c pg = some p) (h : off < p.ext) : (readStage c pg p off).CommitsAsWhole c where
  runs := by
    rintro s w pos as rest rfl hs ha hl hok
    replace hl : as.length = 10 := hl
    have hread := runs_seq (runs_pageSelect_first pg hs ha (by omega) hok) (runs_readAt (as := as.drop 6) (buf := none) rfl rfl
      (by rw [List.length_drop, hl]) (fun a h => hok a (List.mem_of_mem_drop h)) (shadowAddr_of hp h) nofun)
    rw [answerByte_drop] at hread
    exact ⟨_, _, _, hread, written_write ..⟩
  fails := by
    rintro s w pos as rest bad rfl hs ha hl hok hbad
    replace hl : as.length < 10 := hl
    rw [readStage, readBurst_one]
    by_cases hlt : as.length < 6
    · obtain ⟨tr, hfails⟩ := fails_pageSelect pg hlt hs ha rfl hok hbad
      exact ⟨_, tr, fails_append hfails _⟩
    · exact ⟨_, _, fails_seq (runs_pageSelect_first pg hs ha (by omega) hok) (fails_readAt (shadowAddr_of hp h)
        (show as.length - 6 < 4 by omega) rfl rfl List.length_drop (fun a h => hok a (List.mem_of_mem_drop h)) hbad)⟩

/-- One single-byte write of a given value (R119). -/
def writeStage (c : Config) (pg : Byte) (p : Page) (off : Nat) (b : Byte) : Stage where
  ops := writeOne c pg off (.lit b)
  count := 9
  addr := p.base + off
  bytes _ := [b]

theorem commits_writeStage (hp : pageOf c pg = some p) (h : off < p.ext) (b : Byte) :
    (writeStage c pg p off b).CommitsAsWhole c where
  runs := by
    rintro s w pos as rest rfl hs ha hl hok
    exact ⟨_, _, _, runs_writeOne hs ha hl hok (shadowAddr_of hp h) rfl, written_write ..⟩
  fails := by
    rintro s w pos as rest bad rfl hs ha hl hok hbad
    exact ⟨_, fails_writeOne rfl hl hs ha rfl hok hbad⟩

/-- The sends of a burst, of which number `r` fails. -/
theorem fails_sends {d : List Src} {bs : List Byte} {r : Nat} {ops : List Op} {s : State} {w : Word} {pos : Nat}
    {as rest : List BusAnswer} {bad : BusAnswer} (hd : evalAll s d = .ok bs) (hr : r < d.length) (hs : s.seq = .busy w pos .run)
    (ha : s.answers = as ++ bad :: rest) (hl : as.length = r) (hok : ∀ a ∈ as, a.ok = true) (hbad : bad.ok = false) :
    ∃ tr, Fails (d.map .send ++ ops) r s (failed s tr rest s.mem) := by
  induction d generalizing s pos as bs r with
  | nil => exact absurd hr (Nat.not_lt_zero r)
  | cons x d ih =>
    obtain ⟨b, bs', hb, hbs⟩ : ∃ b bs', evalSrc s x = .ok b ∧ evalAll s d = .ok bs' := by
      simp only [evalAll] at hd
      split at hd
      · next b bs' hb hbs => exact ⟨b, bs', hb, hbs⟩
      · simp at hd
      · simp at hd
    cases as with
    | nil =>
      obtain rfl : 0 = r := hl
      exact ⟨_, fails_send hb ha hbad⟩
    | cons a as =>
      obtain rfl : as.length + 1 = r := hl
      obtain ⟨tr, hfails⟩ := ih (s := after s w (pos + 1) [.send b true] (as ++ bad :: rest) s.mem) (pos := pos + 1) (as := as)
        (evalAll_after.trans hbs) (Nat.lt_of_succ_lt_succ hr) rfl rfl rfl (fun a h => hok a (by simp [h]))
      exact ⟨_, fails_cons hs (callStep_send hs ha (hok a (by simp)) hb) hfails⟩

/-- A transaction that sends these bytes, before anything is committed. -/
theorem fails_startSends {d : List Src} {bs : List Byte} {ops : List Op} {s : State} {w : Word} {pos : Nat}
    {as rest : List BusAnswer} {bad : BusAnswer} (hd : evalAll s d = .ok bs) (hs : s.seq = .busy w pos .run)
    (ha : s.answers = as ++ bad :: rest) (hl : as.length < 1 + d.length) (hok : ∀ a ∈ as, a.ok = true) (hbad : bad.ok = false) :
    ∃ tr, Fails (.start .write .none :: (d.map .send ++ ops)) as.length s (failed s tr rest s.mem) := by
  cases as with
  | nil => exact ⟨_, fails_start .write ha hbad⟩
  | cons a as =>
    obtain ⟨tr, hfails⟩ := fails_sends (ops := ops)
      (s := after s w (pos + 1) [.start (addrByte s .write) 10 true] (as ++ bad :: rest) s.mem)
      (evalAll_after.trans hd) (by simp only [List.length_cons] at hl; omega) rfl rfl rfl (fun b h => hok b (by simp [h])) hbad
    exact ⟨_, fails_cons hs (callStep_start .write hs ha (hok a (by simp))) hfails⟩

/-- `WriteBurst` (R120): no failure commits anything (R141). -/
theorem fails_writeBurst {d : List Src} {bs : List Byte} {s : State} {w : Word} {pos : Nat} {as rest : List BusAnswer}
    {bad : BusAnswer} (hd : evalAll s d = .ok bs) (hs : s.seq = .busy w pos .run) (ha : s.answers = as ++ bad :: rest)
    (hl : as.length < 8 + d.length) (hok : ∀ a ∈ as, a.ok = true) (hbad : bad.ok = false) :
    ∃ n tr, Fails (writeBurst s.cfg pg off d) n s (failed s tr rest s.mem) := by
  have hops : writeBurst s.cfg pg off d = pageSelect s.cfg pg ++ (.start .write .none ::
      ((Src.lit (BitVec.ofNat 8 off) :: d).map .send ++ [.stop (.commit pg off d)])) := by simp [writeBurst]
  rw [hops]
  by_cases hlt : as.length < 6
  · obtain ⟨tr, hfails⟩ := fails_pageSelect pg hlt hs ha rfl hok hbad
    exact ⟨_, tr, fails_append hfails _⟩
  · obtain ⟨tr, hfails⟩ := fails_startSends (s := after s w (pos + 8) (selectTrace s pg) (as.drop 6 ++ bad :: rest) s.mem)
      (d := .lit (BitVec.ofNat 8 off) :: d) (bs := BitVec.ofNat 8 off :: bs) (ops := [.stop (.commit pg off d)])
      (by simp [evalAll, evalSrc, evalAll_after, hd]) rfl rfl (by rw [List.length_drop, List.length_cons]; omega)
      (fun a h => hok a (List.mem_of_mem_drop h)) hbad
    exact ⟨_, _, fails_seq (runs_pageSelect_first pg hs ha (by omega) hok) hfails⟩

/-- A burst write of given values (R120). -/
def burstStage (c : Config) (pg : Byte) (p : Page) (bs : List Byte) : Stage where
  ops := writeBurst c pg 0 (bs.map .lit)
  count := 8 + bs.length
  addr := p.base
  bytes _ := bs

theorem commits_burstStage {bs : List Byte} (hp : pageOf c pg = some p) (h : bs.length ≤ p.ext) :
    (burstStage c pg p bs).CommitsAsWhole c where
  runs := by
    rintro s w pos as rest rfl hs ha hl hok
    obtain ⟨m, hruns, hbytes, hframe⟩ := runs_writeBurst (off := 0) (d := bs.map .lit) hp (by simpa using h)
      (evalAll_lit s bs) hs ha (by rwa [List.length_map]) hok
    simp only [Nat.zero_add] at hbytes hframe
    exact ⟨_, _, m, hruns, hbytes, hframe⟩
  fails := by
    rintro s w pos as rest bad rfl hs ha hl hok hbad
    exact fails_writeBurst (evalAll_lit s bs) hs ha (by rwa [List.length_map]) hok hbad

end

end Sys2Proof.Machine
end

section
/-! `RESET` (42_backlight_sequences.md R162, 70_reset_and_hazards.md R222): the clear of its first step, and the steps that a failed
`RESET` leaves on top of it. -/

namespace Sys2Proof.Machine

/-- Steps 2 to 8 of `RESET`. -/
def resetStages (c : Config) : List Stage :=
  [readStage c c.pFunc .func c.fReset.toNat, writeStage c c.pFunc .func c.fConfig.toNat c.cfgRunValue,
    writeStage c c.pFunc .func c.fGcc.toNat 0x00, writeStage c c.pFunc .func c.fSwpu.toNat c.swpuValue,
    writeStage c c.pFunc .func c.fCspd.toNat c.cspdValue, burstStage c c.pOnoff .onoff c.onoffMask.toList,
    burstStage c c.pPwm .pwm (List.replicate 0xC0 0x00)]

theorem resetStages_commit {c : Config} (hc : configOk c = true) : ∀ p ∈ resetStages c, p.CommitsAsWhole c := by
  obtain ⟨hconfig, hgcc, hswpu, hcspd, hreset⟩ := func_lt hc
  have hfunc := pageOf_number hc .func
  simp only [resetStages, List.forall_mem_cons]
  exact ⟨commits_readStage hfunc hreset, commits_writeStage hfunc hconfig _, commits_writeStage hfunc hgcc _,
    commits_writeStage hfunc hswpu _, commits_writeStage hfunc hcspd _,
    commits_burstStage (pageOf_number hc .onoff) (by simp [Page.ext]),
    commits_burstStage (pageOf_number hc .pwm) (List.length_replicate ..).le, nofun⟩

/-- `RESET` makes the calls of its stages, and clears the shadow in the step of the first (log 5). -/
theorem opsReset_eq (c : Config) : ∃ ops, opsReset c = .start .write .clearShadow :: ops ∧
    (resetStages c).flatMap Stage.ops = .start .write .none :: ops := by
  refine ⟨(readBurst c c.pFunc c.fReset.toNat 1 false).tail ++ (resetStages c).tail.flatMap Stage.ops, ?_, rfl⟩
  simp only [opsReset, List.append_assoc, resetStages, List.tail_cons, List.flatMap_cons, List.flatMap_nil, List.append_nil,
    writeStage, burstStage, List.map_replicate]
  rfl

/-- How many statuses steps 2 to 8 of `RESET` have (R222). -/
def resetCounts : List Nat := [10, 9, 9, 9, 9, 32, 200]

theorem count_resetStages (c : Config) : (resetStages c).map Stage.count = resetCounts := by
  simp only [resetCounts, resetStages, readStage, writeStage, burstStage, List.map_cons, List.map_nil, Vector.length_toList, List.length_replicate]

/-- A failure after the clear is a failure from the cleared shadow. -/
theorem fails_clear {d : Dir} {ops : List Op} {n : Nat} {s t : State} (h : Fails (.start d .none :: ops) n (shadowClear s) t) :
    Fails (.start d .clearShadow :: ops) n s t := by
  cases n <;> exact h

/-- The blocks that `RESET` commits, by the answers to its calls. -/
def resetBlocks (c : Config) (as : List BusAnswer) : List (Nat × List Byte) :=
  [(0x700 + c.fReset.toNat, [answerByte as 9]), (0x700 + c.fConfig.toNat, [c.cfgRunValue]), (0x700 + c.fGcc.toNat, [0]),
    (0x700 + c.fSwpu.toNat, [c.swpuValue]), (0x700 + c.fCspd.toNat, [c.cspdValue]), (0x400, c.onoffMask.toList),
    (0x500, List.replicate 0xC0 0)]

theorem blocksOf_resetStages (c : Config) (as : List BusAnswer) : blocksOf (resetStages c) as = resetBlocks c as := by
  have h : answerByte (as.take 10) 9 = answerByte as 9 := answerByte_take as (by decide)
  rw [resetBlocks, ← h]
  rfl

/-- The function registers differ (R10), and the other two blocks stand in windows of their own. -/
theorem resetBlocks_apart {c : Config} (hc : configOk c = true) (as : List BusAnswer) :
    (resetBlocks c as).Pairwise Apart := by
  have hnodup := (configOk_iff.mp hc).2.2.1
  obtain ⟨hconfig, hgcc, hswpu, hcspd, hreset⟩ := func_lt hc
  simp only [List.nodup_cons, List.mem_cons, List.not_mem_nil, or_false, not_or, ← BitVec.toNat_inj] at hnodup
  simp only [resetBlocks, List.pairwise_cons, List.Pairwise.nil, List.forall_mem_cons, List.not_mem_nil, false_imp_iff,
    implies_true, and_true, Apart, List.length_singleton, Vector.length_toList, List.length_replicate]
  omega

/-- The addresses outside the blocks. -/
theorem outside_resetBlocks {c : Config} {as : List BusAnswer} {a : Nat}
    (hregs : a ≠ 0x700 + c.fReset.toNat ∧ a ≠ 0x700 + c.fConfig.toNat ∧ a ≠ 0x700 + c.fGcc.toNat ∧
      a ≠ 0x700 + c.fSwpu.toNat ∧ a ≠ 0x700 + c.fCspd.toNat)
    (honoff : a < 0x400 ∨ 0x418 ≤ a) (hpwm : a < 0x500 ∨ 0x5C0 ≤ a) :
    Outside (resetBlocks c as) a := by
  simp only [Outside, resetBlocks, List.forall_mem_cons, List.length_singleton, Vector.length_toList, List.length_replicate]
  exact ⟨by omega, by omega, by omega, by omega, by omega, honoff, hpwm, nofun⟩

/-- `RESET` commits shadow bytes only (R144). -/
theorem resetBlocks_shadow {c : Config} (hc : configOk c = true) (as : List BusAnswer) :
    ∀ b ∈ resetBlocks c as, ∀ k, k < b.2.length → isShadowAddr (b.1 + k) = true := by
  obtain ⟨hconfig, hgcc, hswpu, hcspd, hreset⟩ := func_lt hc
  have hreg : ∀ {f k : Nat}, f < 0x12 → k < 1 → isShadowAddr (0x700 + f + k) = true := fun hf hk => by
    rw [isShadowAddr_iff]
    omega
  simp only [resetBlocks, List.forall_mem_cons, List.length_singleton, Vector.length_toList, List.length_replicate]
  exact ⟨fun _ => hreg hreset, fun _ => hreg hconfig, fun _ => hreg hgcc, fun _ => hreg hswpu, fun _ => hreg hcspd,
    fun _ hk => isShadowAddr_base (p := .onoff) (hk.trans (by decide)), fun _ hk => isShadowAddr_base (p := .pwm) hk, nofun⟩

/-- What a failed `RESET` leaves: the steps before the failing one, on top of the cleared shadow (R222). -/
theorem fails_reset {s : State} {w : Word} {as rest : List BusAnswer} {bad : BusAnswer} (hc : configOk s.cfg = true)
    (hs : s.seq = .busy w 0 .run) (ha : s.answers = as ++ bad :: rest) (hl : as.length < 278) (hok : ∀ a ∈ as, a.ok = true)
    (hbad : bad.ok = false) :
    ∃ n tr m, Fails (opsOf s.cfg .reset) n s (failed s tr rest m) ∧
      (∀ i x bs, (resetBlocks s.cfg as)[i]? = some (x, bs) → ∀ k, (hk : k < bs.length) → m.read (x + k) =
        if (resetCounts.take (i + 1)).sum ≤ as.length then bs[k] else 0) ∧
      ∀ a, Outside (resetBlocks s.cfg as) a → m.read a = s.mem.clearShadow.read a := by
  obtain ⟨ops, hops, hstages⟩ := opsReset_eq s.cfg
  obtain ⟨j, n, tr, m, hcount, hfails, hall⟩ := fails_stages (s := shadowClear s) (resetStages_commit hc) hs ha
    (by rw [count_resetStages]; exact hl) hok hbad
  rw [shadowClear_cfg, hstages] at hfails
  rw [shadowClear_cfg, count_resetStages] at hcount
  rw [blocksOf_resetStages] at hall
  refine ⟨n, tr, m, by rw [opsOf, hops]; exact fails_clear hfails, fun i x bs hi k hk => ?_,
    fun a h => hall.frame fun b hb => h b (List.mem_of_mem_take hb)⟩
  have hlt : i < (resetStages s.cfg).length := (List.getElem?_eq_some_iff.mp hi).1
  rw [hall.read_block (resetBlocks_apart hc as) hi hk, shadowClear_mem, read_clearShadow,
    if_pos (resetBlocks_shadow hc as _ (List.mem_of_getElem? hi) k hk)]
  exact if_congr (hcount i hlt) rfl rfl

/-- The first step of `RESET` (log 5). -/
theorem exec_reset_first {s : State} {w : Word} (hs : s.seq = .busy w 0 .run) :
    exec .reset s = .next (busStart .write (shadowClear s)) :=
  exec_of_op (i := .reset) (op := .start .write .clearShadow) rfl hs rfl

/-- Settles O46: the first call of `RESET` follows the clear, and each later step commits as a whole. -/
theorem resetClearsShadowFirst : Obligations.ResetClearsShadowFirst := by
  refine ⟨fun s w hs => ?_, fun s w n as rest bad hc hs ha hl hn hok hbad => ?_⟩
  · refine ⟨_, exec_reset_first hs, fun a h => ?_, fun a h => ?_⟩
    · rw [busStart_mem, shadowClear_mem, read_clearShadow, if_pos h]
    · rw [busStart_mem, shadowClear_mem, read_clearShadow, h, if_neg Bool.false_ne_true]
  · subst hl
    obtain ⟨k, tr, m, hfails, hblock, hframe⟩ := fails_reset hc hs ha hn hok hbad
    obtain ⟨hconfig, hgcc, hswpu, hcspd, hreset⟩ := func_lt hc
    obtain ⟨t, hrun, hseq, hres, rfl, -, hrest, hkeep⟩ := execTimes_failed (i := .reset) rfl hs hfails
    have hreg : ∀ (i : Nat) (f b : Byte), (resetBlocks s.cfg as)[i]? = some (0x700 + f.toNat, [b]) →
        t.func f.toNat = if (resetCounts.take (i + 1)).sum ≤ as.length then b else 0 :=
      fun i f b hi => hblock i _ _ hi 0 Nat.one_pos
    have hzero : ∀ a, Outside (resetBlocks s.cfg as) a → isShadowAddr a = true → t.mem.read a = 0 :=
      fun a hout hshadow => by rw [hframe a hout, read_clearShadow, if_pos hshadow]
    have hout : ∀ {a}, a < 0x700 ∨ 0x712 ≤ a → a < 0x400 ∨ 0x418 ≤ a → a < 0x500 ∨ 0x5C0 ≤ a →
        Outside (resetBlocks s.cfg as) a :=
      fun hfunc honoff hpwm => outside_resetBlocks (by omega) honoff hpwm
    refine ⟨k + 3, t, hrun, hseq, hres, hreg 0 _ _ rfl, hreg 1 _ _ rfl, hreg 3 _ _ rfl, hreg 4 _ _ rfl,
      fun f hf h1 h2 h3 h4 => ?_, fun o ho => ?_, fun o ho ho' => ?_, fun o ho => ?_, fun o ho => ?_, ?_,
      fun o ho => ?_, hrest, hkeep⟩
    · by_cases hf' : f = s.cfg.fGcc.toNat
      · rw [hf', hreg 2 _ _ rfl, ite_self]
      · exact hzero (0x700 + f) (outside_resetBlocks (by omega) (by omega) (by omega)) (isShadowAddr_base (p := .func) hf)
    · exact hblock 5 _ _ rfl o (by rwa [Vector.length_toList])
    · exact hzero (0x400 + o) (hout (by omega) (by omega) (by omega)) (isShadowAddr_base (p := .onoff) ho')
    · have h := hblock 6 _ _ rfl o (by rwa [List.length_replicate])
      rw [List.getElem_replicate, ite_self] at h
      exact h
    · exact hzero (0x600 + o) (hout (by omega) (by omega) (by omega)) (isShadowAddr_base (p := .abm) ho)
    · exact hzero 0x800 (hout (by decide) (by decide) (by decide)) (by decide)
    · have hdbuf : isDbufAddr (0x100 + o) = true := isDbufAddr_iff.mpr ⟨by omega, by omega⟩
      rw [State.dbuf, hframe _ (hout (a := 0x100 + o) (by omega) (by omega) (by omega)), read_clearShadow,
        not_shadow_of_dbuf hdbuf, if_neg Bool.false_ne_true]
      rfl

end Sys2Proof.Machine
end

section
/-! Single-byte writes with their traces when every call returns `ok` (42_backlight_sequences.md R161, R163, R165 to R167): the
commands that make one access or several. -/

namespace Sys2Proof.Machine

/-- Settles O32: the places of the cell commands are those that `StoresTo` lists. -/
theorem cellCommandsFrame : Obligations.CellCommandsFrame := fun _ _ _ _ h _ ha => exec_frame h ha

/-- Settles O47: one single-byte write. -/
theorem brightSetsGlobalCurrent : Obligations.BrightSetsGlobalCurrent := by
  intro s w data as rest hc hs hans hlen hok
  obtain ⟨-, hgcc, -⟩ := func_lt hc
  obtain ⟨t, hrun, hseq, hres, hmem, htrace, hrest, hkeep⟩ := execTimes_ok (i := .bright data) rfl hs
    (runs_writeOne (v := .lit data) hs hans hlen hok (shadowAddr_func hc hgcc) rfl)
  exact ⟨t, hrun, hseq, hres, by rw [State.func, hmem]; exact read_write_same .., fun a ha => by rw [hmem, read_write_ne _ _ ha],
    htrace, hrest, hkeep⟩

/-! Several accesses. -/

/-- The calls of some accesses that make these writes (R119). -/
def accessTrace (s : State) (xs : List Access) (ws : List (Nat × Byte)) : List BusEvent :=
  (xs.zip ws).flatMap fun y => writeOneTrace s y.1.pg y.1.off y.2.2

theorem accessTrace_append (s : State) {xs ys : List Access} {ws us : List (Nat × Byte)} (h : xs.length = ws.length) :
    accessTrace s (xs ++ ys) (ws ++ us) = accessTrace s xs ws ++ accessTrace s ys us := by
  rw [accessTrace, List.zip_append h, List.flatMap_append, accessTrace, accessTrace]

section
variable {s : State} {w : Word} {pos : Nat} {as rest : List BusAnswer}

/-- The run of an access, with its trace: a check that passes makes no call (R149). -/
theorem runs_access_trace {x : Access} {wr : Nat × Byte} (hx : x.Makes s wr) (hs : s.seq = .busy w pos .run)
    (ha : s.answers = as ++ rest) (hl : as.length = 9) (hok : ∀ a ∈ as, a.ok = true) :
    Runs (x.ops s.cfg) s (after s w (pos + 12) (writeOneTrace s x.pg x.off wr.2) rest (s.mem.write wr.1 wr.2)) := by
  have h := runs_writeOne hs ha hl hok hx.addr hx.byte
  obtain ⟨pre, pg, off, src⟩ := x
  rcases hx.check with rfl | ⟨row, col, rfl, hcheck⟩
  · exact h
  · exact runs_withPre_cell hcheck h

/-- The run of some accesses, with its trace. -/
theorem runs_writes_trace {xs : List Access} {ws : List (Nat × Byte)} (hx : Writes xs ws s) (hs : s.seq = .busy w pos .run)
    (ha : s.answers = as ++ rest) (hl : as.length = 9 * xs.length) (hok : ∀ a ∈ as, a.ok = true) :
    Runs (xs.flatMap (Access.ops s.cfg)) s
      (after s w (pos + 12 * xs.length) (accessTrace s xs ws) rest (writeAll s.mem ws)) := by
  induction xs generalizing s pos as ws with
  | nil =>
    cases ws with
    | nil =>
      obtain rfl : as = [] := List.length_eq_zero_iff.mp hl
      simp only [List.nil_append] at ha
      simp [Runs, after, accessTrace, ← ha, ← hs]
    | cons wr ws => exact hx.elim
  | cons x xs ih =>
    cases ws with
    | nil => exact hx.elim
    | cons wr ws =>
      rw [List.length_cons] at hl
      have hfirst := runs_access_trace (as := as.take 9) (rest := as.drop 9 ++ rest) hx.1 hs
        (by rw [ha, ← List.append_assoc, List.take_append_drop]) (by rw [List.length_take]; omega)
        (fun a h => hok a (List.mem_of_mem_take h))
      have hothers := ih (s := after s w (pos + 12) (writeOneTrace s x.pg x.off wr.2) (as.drop 9 ++ rest) (s.mem.write wr.1 wr.2))
        (pos := pos + 12) (as := as.drop 9) (ws := ws) (writes_after _ _ _ _ hx.2) rfl rfl (by rw [List.length_drop]; omega)
        (fun a h => hok a (List.mem_of_mem_drop h))
      have h := runs_seq hfirst hothers
      rwa [Nat.add_assoc, show 12 + 12 * xs.length = 12 * (xs.length + 1) by omega] at h

end

/-- A command that consists of accesses whose checks pass makes their writes and ends with `OK`. -/
theorem execTimes_writes {i : Instr} {s : State} {w : Word} {xs : List Access} {ws : List (Nat × Byte)} {as rest : List BusAnswer}
    (hw : admits s.cfg i = true) (hops : opsOf s.cfg i = xs.flatMap (Access.ops s.cfg)) (hx : Writes xs ws s)
    (hs : s.seq = .busy w 0 .run) (ha : s.answers = as ++ rest) (hl : as.length = 9 * xs.length) (hok : ∀ a ∈ as, a.ok = true) :
    ∃ t, execTimes (callCount i + 1) i s = .next t ∧ t.seq = .idle ∧ t.result = .ok ∧ t.mem = writeAll s.mem ws ∧
      t.trace = s.trace ++ accessTrace s xs ws ∧ t.answers = rest ∧ KeepsRest s t :=
  execTimes_ok hw hs (by rw [hops]; exact runs_writes_trace hx hs ha hl hok)

/-- Of writes that give an address one byte, however often, that byte is read. -/
theorem read_writeAll {m : Memory} {ws : List (Nat × Byte)} {a : Nat} {b : Byte} (hmem : (a, b) ∈ ws)
    (h : ∀ wr ∈ ws, wr.1 = a → wr.2 = b) : (writeAll m ws).read a = b := by
  induction ws generalizing m with
  | nil => exact absurd hmem List.not_mem_nil
  | cons wr ws ih =>
    rw [writeAll_cons]
    by_cases hlater : (a, b) ∈ ws
    · exact ih hlater fun wr hwr => h wr (by simp [hwr])
    · obtain rfl : (a, b) = wr := by simpa [hlater] using hmem
      rw [read_writeAll_ne fun wr hwr haddr => hlater ?_, read_write_same]
      rwa [← haddr, ← h wr (by simp [hwr]) haddr]

/-! Cells. -/

section
variable {base : Nat} {v : Nat → Byte} {cells : List (Byte × Byte)}

theorem mem_cellWrites {wr : Nat × Byte} : (wr ∈ cells.flatMap fun q => cellWrites base q.1 q.2 v) ↔
    ∃ q ∈ cells, ∃ k, k < 3 ∧ (base + pwmOffset q.1.toNat q.2.toNat k, v k) = wr := by
  simp [cellWrites]

/-- The offset of a channel tells which channel it is (R145). -/
theorem pwmOffset_inj_channel {row row' col col' k k' : Nat} (hc : col < 16) (hc' : col' < 16) (hk : k < 3) (hk' : k' < 3)
    (h : pwmOffset row col k = pwmOffset row' col' k') : k = k' := by
  simp only [pwmOffset, subRow, subrows, cols] at h
  omega

/-- The byte of channel `k` of a cell after the writes of some cells; a cell may stand among them more than once. -/
theorem read_cellWrites (m : Memory) (hcells : ∀ q ∈ cells, q.2.toNat < 16) {q : Byte × Byte} (hq : q ∈ cells) {k : Nat}
    (hk : k < 3) :
    (writeAll m (cells.flatMap fun q => cellWrites base q.1 q.2 v)).read (base + pwmOffset q.1.toNat q.2.toNat k) = v k := by
  refine read_writeAll (mem_cellWrites.mpr ⟨q, hq, k, hk, rfl⟩) fun wr hwr haddr => ?_
  obtain ⟨q', hq', k', hk', rfl⟩ := mem_cellWrites.mp hwr
  rw [pwmOffset_inj_channel (hcells q' hq') (hcells q hq) hk' hk (Nat.add_left_cancel haddr)]

theorem read_cellWrites_ne (m : Memory) {a : Nat}
    (ha : ∀ q ∈ cells, ∀ k, k < 3 → a ≠ base + pwmOffset q.1.toNat q.2.toNat k) :
    (writeAll m (cells.flatMap fun q => cellWrites base q.1 q.2 v)).read a = m.read a := by
  refine read_writeAll_ne fun wr hwr => ?_
  obtain ⟨q, hq, k, hk, rfl⟩ := mem_cellWrites.mp hwr
  exact (ha q hq k hk).symm

/-- The trace of some cells: blue, green and red of each in turn (R161). -/
theorem accessTrace_cells (s : State) (pg : Byte) (vB vG vR : Src) :
    accessTrace s (cells.flatMap (cellAccesses pg vB vG vR)) (cells.flatMap fun q => cellWrites base q.1 q.2 v) =
      cells.flatMap fun q => (List.range 3).flatMap fun k => writeOneTrace s pg (pwmOffset q.1.toNat q.2.toNat k) (v k) := by
  induction cells with
  | nil => rfl
  | cons q cells ih =>
    rw [List.flatMap_cons, List.flatMap_cons, List.flatMap_cons, ← ih, accessTrace_append s rfl]
    rfl

end

/-- A command that writes the bytes `v` to enabled cells of a page, from sources that the writes do not change. -/
theorem execTimes_cells {i : Instr} {s : State} {w : Word} {p : Page} {vB vG vR : Src} {v : Nat → Byte}
    {cells : List (Byte × Byte)} {as rest : List BusAnswer} (hc : configOk s.cfg = true) (hw : admits s.cfg i = true)
    (hops : opsOf s.cfg i = cells.flatMap fun q => lightCell s.cfg (p.number s.cfg) q.1 q.2 vB vG vR) (hext : p.ext = 0xC0)
    (hB : Steady s vB (v 0)) (hG : Steady s vG (v 1)) (hR : Steady s vR (v 2))
    (hcells : ∀ q ∈ cells, CellEnabled s q.1.toNat q.2.toNat) (hs : s.seq = .busy w 0 .run) (ha : s.answers = as ++ rest)
    (hl : as.length = 27 * cells.length) (hok : ∀ a ∈ as, a.ok = true) :
    ∃ t, execTimes (callCount i + 1) i s = .next t ∧ t.seq = .idle ∧ t.result = .ok ∧
      (∀ q ∈ cells, ∀ k, k < 3 → t.mem.read (p.base + pwmOffset q.1.toNat q.2.toNat k) = v k) ∧
      (∀ a, (∀ q ∈ cells, ∀ k, k < 3 → a ≠ p.base + pwmOffset q.1.toNat q.2.toNat k) → t.mem.read a = s.mem.read a) ∧
      t.trace = s.trace ++ cells.flatMap (fun q => (List.range 3).flatMap fun k =>
        writeOneTrace s (p.number s.cfg) (pwmOffset q.1.toNat q.2.toNat k) (v k)) ∧
      t.answers = rest ∧ KeepsRest s t := by
  obtain ⟨t, hrun, hseq, hres, hmem, htrace, hrest, hkeep⟩ := execTimes_writes hw (hops.trans (flatMap_cellAccesses ..).symm)
    (writes_cells (pageOf_number hc p) hext hB hG hR hcells) hs ha (by rw [length_flatMap_cellAccesses]; omega) hok
  rw [accessTrace_cells] at htrace
  refine ⟨t, hrun, hseq, hres, fun q hq k hk => ?_, fun a h => ?_, htrace, hrest, hkeep⟩
  · rw [hmem]
    exact read_cellWrites _ (fun q hq => (hcells q hq).2.1) hq hk
  · rw [hmem]
    exact read_cellWrites_ne _ h

/-- Settles O50: the cells are the positions of the half, and their bytes come from `DBUF`. -/
theorem setallWritesHalf : Obligations.SetallWritesHalf := by
  intro s w half as rest hc hhalf hcells hs hans hlen hok
  have hw : admits s.cfg (.setall half) = true := by rcases hhalf with rfl | rfl <;> rfl
  exact execTimes_cells (i := .setall half) (p := .pwm) (v := colourByte s) hc hw rfl rfl (steady_dbuf s (i := 2) (by decide))
    (steady_dbuf s (i := 1) (by decide)) (steady_dbuf s (i := 0) (by decide)) hcells hs hans
    (by rw [hlen, length_halfPos]) hok

/-- Settles O51: one cell, whose three bytes are given. -/
theorem abmsetAssignsCell : Obligations.AbmsetAssignsCell := by
  intro s w row col chan as rest hc hcell hs hans hlen hok
  have hops : opsOf s.cfg (.abmset row col chan) = [(row, col)].flatMap fun q =>
      lightCell s.cfg s.cfg.pAbm q.1 q.2 (.lit abmValue) (.lit abmValue) (.lit abmValue) :=
    (List.flatMap_singleton ..).symm
  obtain ⟨t, hrun, hseq, hres, hbytes, hframe, htrace, hrest, hkeep⟩ := execTimes_cells (p := .abm) (v := fun _ => 0x01) hc rfl
    hops rfl (steady_lit s _) (steady_lit s _) (steady_lit s _) (List.forall_mem_singleton.mpr hcell) hs hans hlen hok
  rw [List.flatMap_singleton] at htrace
  simp only [List.forall_mem_singleton] at hbytes hframe
  exact ⟨t, hrun, hseq, hres, hbytes, hframe, htrace, hrest, hkeep⟩

/-! `CHKTRIG`. -/

/-- Settles O52: its accesses are those of `chktrigAccesses`; the last byte stays. -/
theorem chktrigTogglesDetection : Obligations.ChktrigTogglesDetection := by
  rintro s w _ as rest hc rfl hs hans hlen hok
  obtain ⟨t, hrun, hseq, hres, hmem, htrace, hrest, hkeep⟩ := execTimes_writes (i := .chktrig) rfl (opsChktrig_eq s.cfg)
    (writes_chktrig hc) hs hans hlen hok
  have hne : 0x700 + s.cfg.fGcc.toNat ≠ 0x700 + s.cfg.fConfig.toNat := fun h => fGcc_ne_fConfig hc (Nat.add_left_cancel h)
  simp only [singleWrites, writeAll_cons, writeAll_nil] at hmem
  refine ⟨t, hrun, hseq, hres, ?_, ?_, fun a hgcc hconfig => ?_, ?_, hrest, hkeep⟩
  · rw [State.func, hmem, read_write_ne _ _ hne, read_write_ne _ _ hne, read_write_same]
  · rw [State.func, hmem, read_write_same]
  · rw [hmem, read_write_ne _ _ hconfig, read_write_ne _ _ hconfig, read_write_ne _ _ hgcc]
  · rw [htrace, List.append_assoc, List.append_assoc]
    rfl

end Sys2Proof.Machine
end

section
/-! `CHECK` (42_backlight_sequences.md R168): two burst reads into the zones of the on/off page. -/

namespace Sys2Proof.Machine

/-- Settles O53: each zone is a burst read, the second with the answers after the first 102. -/
theorem checkReadsZones : Obligations.CheckReadsZones := by
  intro s w as rest hc hs hans hlen hok
  have honoff := pageOf_number hc .onoff
  obtain ⟨m, hopen, hbytes, -, hframe⟩ := runs_readBurst (off := 0x18) (n := 0x18) (toBuf := false) (as := as.take 102)
    (rest := as.drop 102 ++ rest) honoff (by decide) hs (by rw [hans, ← List.append_assoc, List.take_append_drop])
    (by rw [List.length_take, hlen]; rfl) (fun a h => hok a (List.mem_of_mem_take h))
  obtain ⟨m', hshort, hbytes', -, hframe'⟩ := runs_readBurst (off := 0x30) (n := 0x18) (toBuf := false) (as := as.drop 102)
    (rest := rest) (s := after s w _ _ (as.drop 102 ++ rest) m) honoff (by decide) rfl rfl (by rw [List.length_drop, hlen])
    (fun a h => hok a (List.mem_of_mem_drop h))
  obtain ⟨t, hrun, hseq, hres, rfl, htrace, hrest, hkeep⟩ := execTimes_ok (i := .check) rfl hs (runs_seq hopen hshort)
  have hfirst : ∀ k, k < 0x18 → answerByte (as.take 102) (9 + 4 * k) = answerByte as (9 + 4 * k) :=
    fun k hk => answerByte_take as (by omega)
  have hsecond : ∀ k, answerByte (as.drop 102) (9 + 4 * k) = answerByte as (111 + 4 * k) :=
    fun k => by rw [answerByte_drop, ← Nat.add_assoc]
  simp only [Page.base, onoffBase, after_mem] at hbytes hframe hbytes' hframe'
  refine ⟨t, hrun, hseq, hres, fun k hk => ?_, fun k hk => ?_, fun a ha => ?_, ?_, hrest, hkeep⟩
  · rw [State.onoff, hframe' _ fun j _ => ⟨by simp only [onoffBase]; omega, nofun⟩, ← hfirst k hk]
    exact hbytes k hk
  · rw [← hsecond]
    exact hbytes' k hk
  · rw [hframe' a fun k hk => ⟨?_, nofun⟩, hframe a fun k hk => ⟨?_, nofun⟩]
    · have := ha k (by omega)
      omega
    · have := ha (0x18 + k) (by omega)
      omega
  · have hpairs : ∀ k ∈ List.range 0x18, readTrace s (0x18 + k) (answerByte (as.take 102) (9 + 4 * k)) =
        readTrace s (0x18 + k) (answerByte as (9 + 4 * k)) :=
      fun k hk => by rw [hfirst k (List.mem_range.mp hk)]
    simp only [List.flatMap_congr hpairs, hsecond] at htrace
    rw [htrace]
    simp only [List.append_assoc]
    rfl

end Sys2Proof.Machine
end

section
/-! `RESET` when every call returns `ok` (42_backlight_sequences.md R162, 70_reset_and_hazards.md R221): its stages with their
traces, and the state they leave. -/

namespace Sys2Proof.Machine

/-! Stages with traces. -/

/-- A stage and the calls it makes, by the answers to them. -/
structure TracedStage extends Stage where
  calls : State → List BusAnswer → List BusEvent

/-- The stage makes its calls and commits its bytes when every call of it returns `ok`; the calls depend on nothing that a stage
before it changes. -/
structure TracedStage.Succeeds (c : Config) (p : TracedStage) : Prop where
  runs : ∀ {s : State} {w : Word} {pos : Nat} {as rest : List BusAnswer}, s.cfg = c → s.seq = .busy w pos .run →
    s.answers = as ++ rest → as.length = p.count → (∀ a ∈ as, a.ok = true) →
    ∃ pos' m, Runs p.ops s (after s w pos' (p.calls s as) rest m) ∧ Written p.addr (p.bytes as) s.mem m
  calls_after : ∀ (s : State) w pos tr rest m as, p.calls (after s w pos tr rest m) as = p.calls s as

/-- The calls of some stages, each by the answers that are its own. -/
def callsOf (s : State) : List TracedStage → List BusAnswer → List BusEvent
  | [], _ => []
  | p :: ps, as => p.calls s (as.take p.count) ++ callsOf s ps (as.drop p.count)

theorem callsOf_after {ps : List TracedStage} {c : Config} (hps : ∀ p ∈ ps, p.Succeeds c) (s : State) (w : Word) (pos : Nat)
    (tr : List BusEvent) (rest : List BusAnswer) (m : Memory) (as : List BusAnswer) :
    callsOf (after s w pos tr rest m) ps as = callsOf s ps as := by
  induction ps generalizing as with
  | nil => rfl
  | cons p ps ih => rw [callsOf, callsOf, (hps p (by simp)).calls_after, ih fun q hq => hps q (by simp [hq])]

/-- Stages whose calls all return `ok` commit their blocks one after another. -/
theorem runs_stages {ps : List TracedStage} {s : State} {w : Word} {pos : Nat} {as rest : List BusAnswer}
    (hps : ∀ p ∈ ps, p.Succeeds s.cfg) (hs : s.seq = .busy w pos .run) (ha : s.answers = as ++ rest)
    (hl : as.length = (ps.map fun p => p.count).sum) (hok : ∀ a ∈ as, a.ok = true) :
    ∃ pos' m, Runs (ps.flatMap fun p => p.ops) s (after s w pos' (callsOf s ps as) rest m) ∧
      WrittenAll (blocksOf (ps.map TracedStage.toStage) as) s.mem m := by
  induction ps generalizing s pos as with
  | nil =>
    obtain rfl : as = [] := List.length_eq_zero_iff.mp hl
    simp only [List.nil_append] at ha
    exact ⟨pos, s.mem, by simp [Runs, after, callsOf, ← ha, ← hs], rfl⟩
  | cons p ps ih =>
    rw [List.map_cons, List.sum_cons] at hl
    obtain ⟨pos₁, m, hfirst, hwritten⟩ := (hps p (by simp)).runs (as := as.take p.count) (rest := as.drop p.count ++ rest) rfl hs
      (by rw [ha, ← List.append_assoc, List.take_append_drop]) (by rw [List.length_take]; omega)
      (fun a h => hok a (List.mem_of_mem_take h))
    have hps' : ∀ q ∈ ps, q.Succeeds s.cfg := fun q hq => hps q (by simp [hq])
    obtain ⟨pos₂, m', hothers, hall⟩ := ih (s := after s w pos₁ (p.calls s (as.take p.count)) (as.drop p.count ++ rest) m)
      (pos := pos₁) (as := as.drop p.count) hps' rfl rfl (by rw [List.length_drop]; omega)
      (fun a h => hok a (List.mem_of_mem_drop h))
    rw [callsOf_after hps'] at hothers
    exact ⟨pos₂, m', runs_seq hfirst hothers, m, hwritten, hall⟩

section
variable {c : Config} {pg : Byte} {p : Page} {off : Nat}

/-- One read pair (R118). -/
def tracedRead (c : Config) (pg : Byte) (p : Page) (off : Nat) : TracedStage where
  toStage := readStage c pg p off
  calls s as := selectTrace s pg ++ readTrace s off (answerByte as 9)

theorem tracedRead_succeeds (hp : pageOf c pg = some p) (h : off < p.ext) : (tracedRead c pg p off).Succeeds c where
  runs := by
    rintro s w pos as rest rfl hs ha hl hok
    replace hl : as.length = 10 := hl
    have hread := runs_seq (runs_pageSelect_first pg hs ha (by omega) hok) (runs_readAt (as := as.drop 6) (buf := none) rfl rfl
      (by rw [List.length_drop, hl]) (fun a h => hok a (List.mem_of_mem_drop h)) (shadowAddr_of hp h) nofun)
    rw [answerByte_drop] at hread
    exact ⟨_, _, hread, written_write ..⟩
  calls_after _ _ _ _ _ _ _ := rfl

/-- One single-byte write (R119). -/
def tracedWrite (c : Config) (pg : Byte) (p : Page) (off : Nat) (b : Byte) : TracedStage where
  toStage := writeStage c pg p off b
  calls s _ := writeOneTrace s pg off b

theorem tracedWrite_succeeds (hp : pageOf c pg = some p) (h : off < p.ext) (b : Byte) :
    (tracedWrite c pg p off b).Succeeds c where
  runs := by
    rintro s w pos as rest rfl hs ha hl hok
    exact ⟨_, _, runs_writeOne hs ha hl hok (shadowAddr_of hp h) rfl, written_write ..⟩
  calls_after _ _ _ _ _ _ _ := rfl

/-- One burst write (R120). -/
def tracedBurst (c : Config) (pg : Byte) (p : Page) (bs : List Byte) : TracedStage where
  toStage := burstStage c pg p bs
  calls s _ := selectTrace s pg ++ writeTrace s 0 bs

theorem tracedBurst_succeeds {bs : List Byte} (hp : pageOf c pg = some p) (h : bs.length ≤ p.ext) :
    (tracedBurst c pg p bs).Succeeds c where
  runs := by
    rintro s w pos as rest rfl hs ha hl hok
    obtain ⟨m, hruns, hbytes, hframe⟩ := runs_writeBurst (off := 0) (d := bs.map .lit) hp (by simpa using h)
      (evalAll_lit s bs) hs ha (by rwa [List.length_map]) hok
    simp only [Nat.zero_add] at hbytes hframe
    exact ⟨_, m, hruns, hbytes, hframe⟩
  calls_after _ _ _ _ _ _ _ := rfl

end

/-! The stages of `RESET`. -/

/-- Steps 2 to 8 of `RESET`, with their calls. -/
def tracedReset (c : Config) : List TracedStage :=
  [tracedRead c c.pFunc .func c.fReset.toNat, tracedWrite c c.pFunc .func c.fConfig.toNat c.cfgRunValue,
    tracedWrite c c.pFunc .func c.fGcc.toNat 0x00, tracedWrite c c.pFunc .func c.fSwpu.toNat c.swpuValue,
    tracedWrite c c.pFunc .func c.fCspd.toNat c.cspdValue, tracedBurst c c.pOnoff .onoff c.onoffMask.toList,
    tracedBurst c c.pPwm .pwm (List.replicate 0xC0 0x00)]

theorem toStage_tracedReset (c : Config) : (tracedReset c).map TracedStage.toStage = resetStages c := rfl

theorem tracedReset_succeeds {c : Config} (hc : configOk c = true) : ∀ p ∈ tracedReset c, p.Succeeds c := by
  obtain ⟨hconfig, hgcc, hswpu, hcspd, hreset⟩ := func_lt hc
  have hfunc := pageOf_number hc .func
  simp only [tracedReset, List.forall_mem_cons]
  exact ⟨tracedRead_succeeds hfunc hreset, tracedWrite_succeeds hfunc hconfig _, tracedWrite_succeeds hfunc hgcc _,
    tracedWrite_succeeds hfunc hswpu _, tracedWrite_succeeds hfunc hcspd _,
    tracedBurst_succeeds (pageOf_number hc .onoff) (by simp [Page.ext]),
    tracedBurst_succeeds (pageOf_number hc .pwm) (List.length_replicate ..).le, nofun⟩

/-- The calls of steps 2 to 8 (R162): the byte read comes with the tenth answer. -/
theorem callsOf_tracedReset (s : State) (as : List BusAnswer) : callsOf s (tracedReset s.cfg) as =
    selectTrace s s.cfg.pFunc ++ readTrace s s.cfg.fReset.toNat (answerByte as 9)
      ++ writeOneTrace s s.cfg.pFunc s.cfg.fConfig.toNat s.cfg.cfgRunValue
      ++ writeOneTrace s s.cfg.pFunc s.cfg.fGcc.toNat 0
      ++ writeOneTrace s s.cfg.pFunc s.cfg.fSwpu.toNat s.cfg.swpuValue
      ++ writeOneTrace s s.cfg.pFunc s.cfg.fCspd.toNat s.cfg.cspdValue
      ++ selectTrace s s.cfg.pOnoff ++ writeTrace s 0 s.cfg.onoffMask.toList
      ++ selectTrace s s.cfg.pPwm ++ writeTrace s 0 (List.replicate 0xC0 0) := by
  have hread : answerByte (as.take 10) 9 = answerByte as 9 := answerByte_take as (by decide)
  simp only [← hread, tracedReset, callsOf, tracedRead, tracedWrite, tracedBurst, readStage, List.append_assoc, List.append_nil]

/-- What a `RESET` leaves of the bytes before it: its blocks on top of the cleared shadow (R221). -/
structure ResetLeaves (c : Config) (as : List BusAnswer) (m m' : Memory) : Prop where
  block : ∀ {i x : Nat} {bs : List Byte}, (resetBlocks c as)[i]? = some (x, bs) →
    ∀ k, (hk : k < bs.length) → m'.read (x + k) = bs[k]
  frame : ∀ {a : Nat}, Outside (resetBlocks c as) a → m'.read a = m.clearShadow.read a

section
variable {c : Config} {as : List BusAnswer} {m m' : Memory}

theorem resetLeaves_of_writtenAll (hc : configOk c = true) (h : WrittenAll (resetBlocks c as) m.clearShadow m') :
    ResetLeaves c as m m' where
  block {i} _ _ hi k hk := by
    rw [WrittenAll.read_block (j := (resetBlocks c as).length) (resetBlocks_apart hc as) (by rwa [List.take_length]) hi hk,
      if_pos (List.getElem?_eq_some_iff.mp hi).1]
  frame := h.frame

/-- A function register that a step of `RESET` writes. -/
theorem ResetLeaves.register (h : ResetLeaves c as m m') {i : Nat} {f b : Byte}
    (hi : (resetBlocks c as)[i]? = some (0x700 + f.toNat, [b])) : m'.read (0x700 + f.toNat) = b :=
  h.block hi 0 Nat.one_pos

/-- A shadow byte that no step of `RESET` writes stays cleared (R144). -/
theorem ResetLeaves.cleared (h : ResetLeaves c as m m') {a : Nat} (hshadow : isShadowAddr a = true)
    (hregs : a ≠ 0x700 + c.fReset.toNat ∧ a ≠ 0x700 + c.fConfig.toNat ∧ a ≠ 0x700 + c.fGcc.toNat ∧
      a ≠ 0x700 + c.fSwpu.toNat ∧ a ≠ 0x700 + c.fCspd.toNat)
    (honoff : a < 0x400 ∨ 0x418 ≤ a) (hpwm : a < 0x500 ∨ 0x5C0 ≤ a) : m'.read a = 0 := by
  rw [h.frame (outside_resetBlocks hregs honoff hpwm), read_clearShadow, if_pos hshadow]

/-- `RESET` changes no byte of `DBUF` (R223). -/
theorem ResetLeaves.buffer (h : ResetLeaves c as m m') {a : Nat} (ha : isDbufAddr a = true) : m'.read a = m.read a := by
  have hrange := isDbufAddr_iff.mp ha
  rw [h.frame (outside_resetBlocks (by omega) (by omega) (by omega)), read_clearShadow, not_shadow_of_dbuf ha,
    if_neg Bool.false_ne_true]

end

/-- The run of `RESET`: the clear in the step of its first call (log 5), then its stages. -/
theorem runs_reset {s : State} {w : Word} {as rest : List BusAnswer} (hc : configOk s.cfg = true) (hs : s.seq = .busy w 0 .run)
    (ha : s.answers = as ++ rest) (hl : as.length = 278) (hok : ∀ a ∈ as, a.ok = true) :
    ∃ pos m, Runs (opsOf s.cfg .reset) s (after s w pos (callsOf s (tracedReset s.cfg) as) rest m) ∧
      ResetLeaves s.cfg as s.mem m := by
  obtain ⟨ops, hops, hstages⟩ := opsReset_eq s.cfg
  have hcount : ((tracedReset s.cfg).map fun p => p.count).sum = 278 := congrArg List.sum (count_resetStages s.cfg)
  obtain ⟨pos, m, hruns, hall⟩ := runs_stages (s := shadowClear s) (ps := tracedReset s.cfg) (tracedReset_succeeds hc) hs ha
    (hl.trans hcount.symm) hok
  rw [toStage_tracedReset, blocksOf_resetStages] at hall
  have hflat : ((tracedReset s.cfg).flatMap fun p => p.ops) = .start .write .none :: ops := hstages
  rw [hflat] at hruns
  refine ⟨pos, m, ?_, resetLeaves_of_writtenAll hc hall⟩
  rw [opsOf, hops]
  exact hruns

/-- Settles O45: the trace and the bytes that the stages leave on top of the cleared shadow. -/
theorem resetReinitialises : Obligations.ResetReinitialises := by
  intro s w as rest hc hs hans hlen hok
  obtain ⟨pos, m, hruns, hleaves⟩ := runs_reset hc hs hans hlen hok
  obtain ⟨t, hrun, hseq, hres, rfl, htrace, hrest, hkeep⟩ := execTimes_ok (i := .reset) rfl hs hruns
  refine ⟨t, hrun, hseq, hres, fun k hk => ?onoffMask, fun k hk hk' => ?onoffZones, fun k hk => ?pwm, fun k hk => ?abm,
    hleaves.register (i := 0) rfl, hleaves.register (i := 1) rfl, hleaves.register (i := 2) rfl,
    hleaves.register (i := 3) rfl, hleaves.register (i := 4) rfl, fun k hk h1 h2 h3 h4 h5 => ?func, ?intmask,
    fun k hk => ?dbuf, hrest, hkeep, ?trace⟩
  case onoffMask => exact hleaves.block (i := 5) rfl k (by rwa [Vector.length_toList])
  case onoffZones =>
    exact hleaves.cleared (a := 0x400 + k) (isShadowAddr_base (p := .onoff) hk') (by omega) (by omega) (by omega)
  case pwm =>
    have h := hleaves.block (i := 6) rfl k (by rwa [List.length_replicate])
    rwa [List.getElem_replicate] at h
  case abm => exact hleaves.cleared (a := 0x600 + k) (isShadowAddr_base (p := .abm) hk) (by omega) (by omega) (by omega)
  case func => exact hleaves.cleared (a := 0x700 + k) (isShadowAddr_base (p := .func) hk) (by omega) (by omega) (by omega)
  case intmask =>
    obtain ⟨hconfig, hgcc, hswpu, hcspd, hreset⟩ := func_lt hc
    exact hleaves.cleared (a := 0x800) (by decide) (by omega) (by decide) (by decide)
  case dbuf => exact hleaves.buffer (a := 0x100 + k) (isDbufAddr_iff.mpr ⟨by omega, by omega⟩)
  case trace =>
    rw [htrace, callsOf_tracedReset]
    simp only [List.append_assoc]

end Sys2Proof.Machine
end

section
/-! Block reset (70_reset_and_hazards.md R220) and the host's duties while `BUSY = 1` (R225): the accesses that the host port refuses
then. -/

namespace Sys2Proof.Machine

/-! Block reset. -/

/-- `STATUS` reads 0 exactly when the block is in `Idle` with the result `OK` (R23, R37). -/
theorem statusWord_eq_zero_iff {s : State} : statusWord s = 0 ↔ s.seq = .idle ∧ s.result = .ok := by
  constructor
  · intro h
    have hbusy : s.busy = false := by rw [← statusWord_busy, h]; rfl
    have hcode : s.result.code = 0 := by rw [← statusWord_result, h]; rfl
    refine ⟨busy_false.mp hbusy, ?_⟩
    cases hr : s.result <;> simp [hr, Result.code] at hcode ⊢
  · rintro ⟨hseq, hres⟩
    rw [statusWord, busy_false.mpr hseq, hres]
    rfl

/-- Settles O18: a due block reset is the whole step, and the memory it leaves lists no byte. -/
theorem blockResetSetsEveryElement : Obligations.BlockResetSetsEveryElement := by
  intro s rest hc hh
  exact ⟨{ blockReset s with host := rest }, step_blockReset hc hh, blockReset_sdb s, fun a _ => read_nil a, rfl,
    fun i _ => read_nil (0x100 + i), statusWord_eq_zero_iff.mpr ⟨blockReset_seq s, blockReset_result s⟩, blockReset_seq s,
    blockReset_trace s⟩

/-! Accesses while `Busy`. -/

/-- The places that the host must leave alone while `BUSY = 1` (R225, 93 U15). -/
def Target.needsIdle (p : Target) : Prop := p = .cmd ∨ p = .buffer ∨ p = .window

/-- A byte of `DBUF` or of the shadow window is such a place. -/
theorem needsIdle_of_byteAddr {a : HostAddr} (h : isDbufAddr a.toNat = true ∨ isShadowAddr a.toNat = true) :
    (target a 1).needsIdle := by
  rcases h with hdbuf | hshadow
  · exact .inr (.inl (target_of_dbuf hdbuf))
  · exact .inr (.inr (target_of_shadow hshadow))

section
variable {s : State} {w : Word} {pos : Nat} {ph : Phase} {a : HostAddr} {n : Nat}

theorem memRead_busy (ht : (target a n).needsIdle) (hs : s.seq = .busy w pos ph) : memRead a n s = .refused .hostDuty := by
  rcases ht with ht | ht | ht <;> simp [memRead, ht, whileIdle_busy hs]

theorem memWrite_busy (ht : (target a n).needsIdle) (hs : s.seq = .busy w pos ph) (v : Word) :
    memWrite a n v s = .refused .hostDuty := by
  rcases ht with ht | ht | ht <;> simp [memWrite, ht, whileIdle_busy hs]

end

/-- Settles O28: `CMD` and every byte of `DBUF` and of the shadow window are places that need `Idle`. -/
theorem busyAccessRefused : Obligations.BusyAccessRefused := by
  intro s w pos ph hs
  have hcmd : (target 0x000 4).needsIdle := .inl target_cmd
  exact ⟨memWrite_busy hcmd hs, memRead_busy hcmd hs,
    fun _ ha => ⟨memRead_busy (needsIdle_of_byteAddr ha) hs, memWrite_busy (needsIdle_of_byteAddr ha) hs⟩⟩

end Sys2Proof.Machine
end
